-- ==== Sys2Proof/Word.lean ====
section
/-! DEFINITION. The element types of CPTV-CORE (00_scope.md R10): `u8`, `u16` and the 32-bit pattern that a register or a
residual entry holds, read as `u32` with `toNat` and as `i32` with `toInt`. -/

namespace Sys2Proof

/-- An element of `OBUF` or `IBUF` (20_memory.md R60). -/
abbrev Byte := BitVec 8

/-- A raw sample, `SAMPLE_BITS = 16` (00_scope.md R8). -/
abbrev Sample := BitVec 16

/-- A 32-bit register or residual pattern, `RES_BITS = 32` (00_scope.md R8). -/
abbrev Word := BitVec 32

end Sys2Proof
end

