-- ==== Sys2Proof/Config.lean ====
section
/-! DEFINITION. The parameters of 00_scope.md R8, and the free values of what the spec leaves unspecified. A free value is an
uninterpreted constant: it has no body, so no proof can rest on what it is. -/

namespace Sys2Proof

/-- The path along which samples are visited, the OPEN parameter `SCAN` (20_memory.md R54, D9). -/
inductive Scan where
  /-- Row-major, left to right in every row: the reference value. -/
  | raster
  /-- Odd rows run right to left. -/
  | serpentine
  deriving DecidableEq, Repr, Inhabited

/-- The layout of one frame's byte sequence, `FRAMING` (00_scope.md R8). -/
inductive Framing where
  /-- The framing of this hardware (30_encoding.md R80 to R84). -/
  | dense
  /-- The non-normative alternative (30_encoding.md R88). -/
  | seeded32
  deriving DecidableEq, Repr, Inhabited

/-- The parameters of the engine that are fixed for the life of the hardware and that the spec leaves to the model's
argument (00_scope.md R8, 10_state.md R37). -/
structure Params where
  /-- `SCAN`. -/
  scan : Scan
  /-- `FRAMING`. -/
  framing : Framing
  /-- `MAX_N`: entries of each history and residual memory. -/
  maxN : Nat
  /-- `IBUF_CAP`: bytes of the input buffer. -/
  ibufCap : Nat
  /-- `OBUF_CAP`: bytes of the output buffer. -/
  obufCap : Nat
  deriving DecidableEq, Repr

/-- Bytes of the longest frame: 16 bits a sample, and the seed under SEEDED32 (41_bitstream.md R104, D25). -/
def Params.frameBytes (p : Params) : Nat :=
  2 * p.maxN + (match p.framing with | .dense => 0 | .seeded32 => 4)

/-- The legal parameter values: `MAX_N` at least 1 (D21), `OBUF_CAP` holds the longest frame (D25).
DEDUCED (log 3), safe: `OBUF_CAP < 2^32`, since `OLEN` has 32 bits, never exceeds `OBUF_CAP` and never wraps
(10_state.md R23, R30). -/
abbrev Params.legal (p : Params) : Prop :=
  1 ≤ p.maxN ∧ p.frameBytes ≤ p.obufCap ∧ p.obufCap < 2 ^ 32

namespace Config

/-- `W_MIN` (00_scope.md R8). -/
def wMin : Nat := 1

/-- `W_MAX` (00_scope.md R8). -/
def wMax : Nat := 16

/-- `BASELINE`, the NoHistory prediction reference (00_scope.md R8, 43_predictor.md R132, D7). -/
def baseline : Sample := 0

/-- The implementation's `SCAN` (OPEN, D9; log 2). -/
opaque scan : Scan

/-- Uninterpreted source of the implementation's `MAX_N` (log 2). -/
opaque maxNSource : Nat

/-- Uninterpreted source of the implementation's `OBUF_CAP` (log 2). -/
opaque obufSource : Nat

/-- The implementation's `IBUF_CAP` (OPEN, D25; log 2). -/
opaque ibufCap : Nat

/-- The implementation's `MAX_N` (OPEN, D21): any value for which a legal `OBUF_CAP` exists. -/
def maxN : Nat := maxNSource % (2 ^ 31 - 1) + 1

/-- The implementation's `OBUF_CAP` (OPEN, D25): any value from `2 * MAX_N` to `2^32 - 1`. -/
def obufCap : Nat := obufSource % (2 ^ 32 - 2 * maxN) + 2 * maxN

/-- The parameters of the implementation that leaves reset; `FRAMING` is DENSE (00_scope.md R8). -/
def params : Params :=
  { scan := scan, framing := .dense, maxN := maxN, ibufCap := ibufCap, obufCap := obufCap }

/-- The free 32-bit value number `n`: `RSLT` after a BRGET underrun (U5; log 7). -/
opaque freeWord (n : Nat) : Word

/-- The free natural number number `n`: `BR_POS` after a DNEXT underrun (U4; log 8). -/
opaque freeNat (n : Nat) : Nat

/-- The free value of element `k`, of `w` bits, in a memory that was left unspecified as generation `gen` (U14; log 6). -/
opaque freeElem (w gen k : Nat) : BitVec w

end Config

end Sys2Proof
end

