-- ==== Sys2Proof/Syntax.lean ====
section
/-! DEFINITION. The command set of 30_encoding.md R72, one constructor per row of the opcode table. -/

namespace Sys2Proof

/-- A command. A format W command carries its operand `w`, the low byte of the word read as a number (R70, R71); whether it
is a legal BitWidth is not a question of syntax (R73). -/
inductive Instr where
  /-- Construct the ENC context from the CameraSpec (44_compressor.md R151). -/
  | cinit
  /-- Construct the DEC context from the CameraSpec (45_decompressor.md R161). -/
  | dinit
  /-- Two's-complement encode (40_twos_complement.md R91). -/
  | tcenc (w : Nat)
  /-- Two's-complement decode (40_twos_complement.md R92). -/
  | tcdec (w : Nat)
  /-- A new, empty BitWriter (41_bitstream.md R101). -/
  | bwrst
  /-- Append a value to the stream (41_bitstream.md R102). -/
  | bwput (w : Nat)
  /-- Flush the partial byte (41_bitstream.md R103). -/
  | bwfin
  /-- A new BitReader over the input stream (41_bitstream.md R106). -/
  | brrst
  /-- Read a value from the stream (41_bitstream.md R107). -/
  | brget (w : Nat)
  /-- Predictor, forward (43_predictor.md R131). -/
  | pfwd
  /-- Predictor, inverse (43_predictor.md R136). -/
  | pinv
  /-- Select the bit width (42_width_selector.md R121). -/
  | selw
  /-- Compress the next frame (44_compressor.md R152). -/
  | cnext
  /-- Decompress the next frame (45_decompressor.md R162). -/
  | dnext (w : Nat)
  deriving DecidableEq, Repr

/-- The two formats of a command word (30_encoding.md R70). -/
inductive Format where
  /-- No operand: the low byte is 0. -/
  | n
  /-- Width operand in the low byte. -/
  | w
  deriving DecidableEq, Repr

end Sys2Proof
end

