-- ==== Sys2Proof/WellFormed.lean ====
section
/-! DEFINITION. When a command can be written as a command word (30_encoding.md R70, R76). -/

namespace Sys2Proof

/-- The operand of a command: `w` for a format W command, 0 for a format N command (30_encoding.md R71). -/
def Instr.operand : Instr → Nat
  | .tcenc w => w
  | .tcdec w => w
  | .bwput w => w
  | .brget w => w
  | .dnext w => w
  | .cinit => 0
  | .dinit => 0
  | .bwrst => 0
  | .bwfin => 0
  | .brrst => 0
  | .pfwd => 0
  | .pinv => 0
  | .selw => 0
  | .cnext => 0

/-- A command is well formed when its operand is a `u8`, "a decimal number 0 to 255" (30_encoding.md R70, R76). -/
abbrev Instr.wf (i : Instr) : Prop := i.operand < 256

end Sys2Proof
end

