-- ==== Sys2Proof/Decode.lean ====
section
/-! DEFINITION. Decoding and encoding of command words (30_encoding.md R70 to R76). -/

namespace Sys2Proof

/-- Why a 16-bit word is illegal (30_encoding.md R74). -/
inductive Reject where
  /-- The opcode is not one of the fourteen of R72. -/
  | opcode
  /-- A format N opcode with a low byte that is not 0. -/
  | operand
  deriving DecidableEq, Repr

/-- Bits 15:8 of a command word, the opcode (30_encoding.md R71). -/
def opField (word : BitVec 16) : Nat := word.toNat / 256

/-- Bits 7:0 of a command word, unsigned, not scaled (30_encoding.md R71). -/
def wField (word : BitVec 16) : Nat := word.toNat % 256

/-- A format N row matches only with the low byte 0 (30_encoding.md R73, R74). -/
def formatN (i : Instr) (w : Nat) : Except Reject Instr :=
  if w = 0 then .ok i else .error .operand

/-- The decoder: total, by the table of 30_encoding.md R72. -/
def decode (word : BitVec 16) : Except Reject Instr :=
  match opField word with
  | 0x01 => formatN .cinit (wField word)
  | 0x02 => formatN .dinit (wField word)
  | 0x10 => .ok (.tcenc (wField word))
  | 0x11 => .ok (.tcdec (wField word))
  | 0x20 => formatN .bwrst (wField word)
  | 0x21 => .ok (.bwput (wField word))
  | 0x22 => formatN .bwfin (wField word)
  | 0x28 => formatN .brrst (wField word)
  | 0x29 => .ok (.brget (wField word))
  | 0x30 => formatN .pfwd (wField word)
  | 0x31 => formatN .pinv (wField word)
  | 0x38 => formatN .selw (wField word)
  | 0x40 => formatN .cnext (wField word)
  | 0x41 => .ok (.dnext (wField word))
  | _ => .error .opcode

/-- The opcode of a command (30_encoding.md R72). -/
def opcode : Instr → Nat
  | .cinit => 0x01
  | .dinit => 0x02
  | .tcenc _ => 0x10
  | .tcdec _ => 0x11
  | .bwrst => 0x20
  | .bwput _ => 0x21
  | .bwfin => 0x22
  | .brrst => 0x28
  | .brget _ => 0x29
  | .pfwd => 0x30
  | .pinv => 0x31
  | .selw => 0x38
  | .cnext => 0x40
  | .dnext _ => 0x41

/-- The format of a command (30_encoding.md R72). -/
def format : Instr → Format
  | .cinit => .n
  | .dinit => .n
  | .tcenc _ => .w
  | .tcdec _ => .w
  | .bwrst => .n
  | .bwput _ => .w
  | .bwfin => .n
  | .brrst => .n
  | .brget _ => .w
  | .pfwd => .n
  | .pinv => .n
  | .selw => .n
  | .cnext => .n
  | .dnext _ => .w

/-- The word of a command: opcode in bits 15:8, operand in bits 7:0 (30_encoding.md R70, R71). -/
def encode (i : Instr) : BitVec 16 := BitVec.ofNat 16 (opcode i * 256 + i.operand)

/-- The mnemonic of a command (30_encoding.md R72). -/
def mnemonic : Instr → String
  | .cinit => "CINIT"
  | .dinit => "DINIT"
  | .tcenc _ => "TCENC"
  | .tcdec _ => "TCDEC"
  | .bwrst => "BWRST"
  | .bwput _ => "BWPUT"
  | .bwfin => "BWFIN"
  | .brrst => "BRRST"
  | .brget _ => "BRGET"
  | .pfwd => "PFWD"
  | .pinv => "PINV"
  | .selw => "SELW"
  | .cnext => "CNEXT"
  | .dnext _ => "DNEXT"

/-- The assembler text of a command: the mnemonic and, for format W, one space and `w` in decimal (30_encoding.md R76). -/
def assembly (i : Instr) : String :=
  match format i with
  | .n => mnemonic i
  | .w => mnemonic i ++ " " ++ toString i.operand

/-- The 16-bit word a host write delivers: the bits of the written word above bit 15 are ignored (30_encoding.md R70). -/
def commandWord (v : Word) : BitVec 16 := v.setWidth 16

/-- The command the decoder reads from a word of `nbits` bits, bit 0 the least significant. Every command is one 16-bit word
(30_encoding.md R75). -/
def decodeTableWord (nbits w : Nat) : Option Instr :=
  match decode (commandWord (BitVec.ofNat 32 (w % 2 ^ nbits))) with
  | .ok i => some i
  | .error _ => none

end Sys2Proof
end

