-- ==== Sys2Proof/Machine/State.lean ====
section
/-! DEFINITION. The state of CPTV-CORE as plain data (10_state.md), the host's moves, the reasons to stop, and reset. -/

namespace Sys2Proof.Machine

/-- A memory of `w`-bit elements: the elements something has written, by rising address. An element nothing has written is
a free value of generation `gen` (U14; log 6). -/
structure Mem (w : Nat) where
  gen : Nat
  cells : List (Nat × BitVec w)
  deriving DecidableEq, Repr

/-- A memory whose every element is unspecified, under a generation of its own (10_state.md R38; log 5, log 6). -/
def Mem.unspecified (w gen : Nat) : Mem w := { gen := gen, cells := [] }

/-- The error kinds a command can leave in `STATUS.ERR` (60_exceptions.md R170). -/
inductive Err where
  /-- Code 0: the command succeeded. -/
  | ok
  /-- Code 1 (R171). -/
  | dimensionMismatch
  /-- Code 2 (R172). -/
  | bitWidthOverflow
  /-- Code 3 (R173). -/
  | streamUnderrun
  /-- Code 4 (R174). -/
  | badOperand
  /-- Code 5 (R175). -/
  | illegalCommand
  deriving DecidableEq, Repr

/-- Horizontal resolution, vertical resolution and frame rate (10_state.md R26, R28). -/
structure CameraSpec where
  cols : BitVec 16
  rows : BitVec 16
  fps : BitVec 16
  deriving DecidableEq, Repr

/-- The width and height a Frame declares (10_state.md R27). -/
structure Dims where
  cols : BitVec 16
  rows : BitVec 16
  deriving DecidableEq, Repr

/-- The BitWriter (10_state.md R30, R34). -/
structure Writer where
  /-- `BW_ACC`, the partial byte. -/
  acc : Byte
  /-- `BW_NB`, the number of bits pending in the partial byte, 0 to 7. -/
  nb : Fin 8
  /-- `OLEN`, the number of valid bytes of `OBUF`. -/
  olen : Word
  /-- `OBUF`. -/
  obuf : Mem 8
  deriving DecidableEq, Repr

/-- The BitReader (10_state.md R30, R35). -/
structure Reader where
  /-- `BR_POS`, the bit cursor. -/
  pos : Nat
  /-- `ILEN`, the number of bytes of the input stream. -/
  ilen : Word
  /-- `IBUF`. -/
  ibuf : Mem 8
  deriving DecidableEq, Repr

/-- The compressor context ENC (10_state.md R21). -/
structure Enc where
  /-- `E_COLS`, `E_ROWS`, `E_FPS`. -/
  spec : CameraSpec
  /-- `STATUS.E_VALID`. -/
  valid : Bool
  /-- `STATUS.E_HIST`: false is NoHistory, true is HasHistory. -/
  hist : Bool
  /-- `HISTE`, by path index. -/
  history : Mem 16
  /-- `RESE`, by path index. -/
  res : Mem 32
  /-- `BW_ACC`, `BW_NB`, `OLEN`, `OBUF`. -/
  bw : Writer
  /-- `WIDTH`. -/
  width : BitVec 8
  deriving DecidableEq, Repr

/-- The decompressor context DEC (10_state.md R21). -/
structure Dec where
  /-- `D_COLS`, `D_ROWS`, `D_FPS`. -/
  spec : CameraSpec
  /-- `STATUS.D_VALID`. -/
  valid : Bool
  /-- `STATUS.D_HIST`: false is NoHistory, true is HasHistory. -/
  hist : Bool
  /-- `HISTD`, by path index. -/
  history : Mem 16
  /-- `RESD`, by path index. -/
  res : Mem 32
  /-- `BR_POS`, `ILEN`, `IBUF`. -/
  br : Reader
  deriving DecidableEq, Repr

/-- The host-visible registers (10_state.md R24). -/
inductive Reg where
  | cmd | status | opa | rslt | width | olen | ilen
  | specCols | specRows | specFps
  | finCols | finRows | foutCols | foutRows
  | eCols | eRows | eFps
  | dCols | dRows | dFps
  deriving DecidableEq, Repr

/-- A move of the host between commands (10_state.md R20, R40; 30_encoding.md R77, R78; 70_reset_and_hazards.md R200). -/
inductive HostMove where
  /-- Write `v` to the register of number `n`; a write to `CMD` issues the command. -/
  | writeReg (n : Nat) (v : Word)
  /-- Read the register of number `src` and write what it reads to the register of number `dst` (the middle of `PUTS`). -/
  | copyReg (src dst : Nat)
  /-- Put a sample into the input frame store. -/
  | writeFin (row col : Nat) (v : Sample)
  /-- Put a sample into the output frame store, which the host owns (43_predictor.md R138). -/
  | writeFout (row col : Nat) (v : Sample)
  /-- Put a byte into `IBUF`. -/
  | writeIbuf (j : Nat) (v : Byte)
  /-- Put a residual into `RESE`. -/
  | writeRese (k : Nat) (v : Word)
  /-- Put a residual into `RESD`. -/
  | writeResd (k : Nat) (v : Word)
  /-- `COPYOUT`: `OBUF[0 .. OLEN-1]` to `IBUF`, and `ILEN <- OLEN`. -/
  | copyOut
  /-- The reset input. -/
  | reset
  deriving DecidableEq, Repr

/-- The state of the machine: the engine's registers, contexts and hidden state (10_state.md), the two frame stores the host
owns (20_memory.md R50, R51), and the model's own `params`, `host` and `free` (log 1, log 9, log 5). -/
structure State where
  /-- The parameters, arguments of the model that no step changes (10_state.md R37; log 1). -/
  params : Params
  /-- The moves the host is still to make, first first (log 9). -/
  host : List HostMove
  /-- `CMD`, the command word last delivered (log 10). -/
  cmd : BitVec 16
  /-- `STATUS.ERR`. -/
  err : Err
  /-- `OPA`. -/
  opa : Word
  /-- `RSLT`. -/
  rslt : Word
  /-- `SPEC_COLS`, `SPEC_ROWS`, `SPEC_FPS`. -/
  spec : CameraSpec
  /-- `FIN_COLS`, `FIN_ROWS`. -/
  finDims : Dims
  /-- `FOUT_COLS`, `FOUT_ROWS`. -/
  foutDims : Dims
  /-- The compressor context. -/
  enc : Enc
  /-- The decompressor context. -/
  dec : Dec
  /-- `FIN`, by the key of (row, column). -/
  fin : Mem 16
  /-- `FOUT`, by the key of (row, column). -/
  fout : Mem 16
  /-- The number of free values taken so far (log 5). -/
  free : Nat
  deriving DecidableEq, Repr

/-- Why the machine stops with a fault. -/
inductive Fault where
  /-- An element outside the capacity of its memory: raised by a host move that names one, and by a command in a state no run
  reaches (`N > MAX_N`, `ILEN > IBUF_CAP`). Safe: the spec gives the access no effect, and the model gives none (log 13). -/
  | noSuchAddress
  deriving DecidableEq, Repr

/-- Why the machine refuses a step. -/
inductive Refusal where
  /-- No meaning for the instruction yet: raised by an arm of `exec` only. Safe. -/
  | notModelled (mnemonic : String)
  /-- Stream bits beyond `OBUF_CAP` bytes: raised by BWPUT and BWFIN, and by CNEXT in a state no run reaches. Safe: the spec says a
  model refuses such a step (41_bitstream.md R104, U9; log 12). -/
  | obufCapacity
  /-- `ILEN > IBUF_CAP`: raised by a host write of `ILEN` and by COPYOUT. Safe: the spec says a model refuses such a step
  (U9; log 12). -/
  | ilenCapacity
  deriving DecidableEq, Repr

/-- What a step or a command answers. -/
abbrev Result := Host.Outcome State Fault Refusal

/-- The machine after reset with parameters `p`, its eight memories unspecified under the generations from `g` on
(10_state.md R38, 70_reset_and_hazards.md R200). -/
def State.afterReset (p : Params) (g : Nat) : State :=
  { params := p
    host := []
    cmd := 0
    err := .ok
    opa := 0
    rslt := 0
    spec := { cols := 0, rows := 0, fps := 0 }
    finDims := { cols := 0, rows := 0 }
    foutDims := { cols := 0, rows := 0 }
    enc :=
      { spec := { cols := 0, rows := 0, fps := 0 }
        valid := false
        hist := false
        history := .unspecified 16 g
        res := .unspecified 32 (g + 1)
        bw := { acc := 0, nb := 0, olen := 0, obuf := .unspecified 8 (g + 2) }
        width := 0 }
    dec :=
      { spec := { cols := 0, rows := 0, fps := 0 }
        valid := false
        hist := false
        history := .unspecified 16 (g + 3)
        res := .unspecified 32 (g + 4)
        br := { pos := 0, ilen := 0, ibuf := .unspecified 8 (g + 5) } }
    fin := .unspecified 16 (g + 6)
    fout := .unspecified 16 (g + 7)
    free := g + 8 }

/-- The machine right after reset, under the implementation's parameters (10_state.md R38; log 2). -/
def State.reset : State := State.afterReset Config.params 0

end Sys2Proof.Machine
end

