-- ==== Sys2Proof/Machine/Ops.lean ====
section
/-! DEFINITION. The shared operations: memories (20_memory.md), ending a command with or without an error
(60_exceptions.md R181), the BitWriter and the BitReader (41_bitstream.md). -/

namespace Sys2Proof.Machine

/-! ### Memories -/

/-- What was last written to element `k`, if anything was since the memory became unspecified. -/
def Mem.find? {w : Nat} (m : Mem w) (k : Nat) : Option (BitVec w) := m.cells.lookup k

/-- A read returns the last value written (20_memory.md R61); with nothing written, the element's free value (U14). -/
def Mem.read {w : Nat} (m : Mem w) (k : Nat) : BitVec w := (m.find? k).getD (Config.freeElem w m.gen k)

/-- Insert an element, keeping addresses rising. -/
def insertCell {α : Type} (k : Nat) (v : α) : List (Nat × α) → List (Nat × α)
  | [] => [(k, v)]
  | (j, u) :: t =>
    if k < j then (k, v) :: (j, u) :: t
    else if k = j then (k, v) :: t
    else (j, u) :: insertCell k v t

/-- A write moves one whole element (20_memory.md R60). -/
def Mem.write {w : Nat} (m : Mem w) (k : Nat) (v : BitVec w) : Mem w :=
  { m with cells := insertCell k v m.cells }

/-- Write `vs` to the elements from `k` on, in rising order. -/
def Mem.writeFrom {w : Nat} (m : Mem w) (k : Nat) : List (BitVec w) → Mem w
  | [] => m
  | v :: vs => (m.write k v).writeFrom (k + 1) vs

/-- The canonical form: addresses strictly rising. -/
abbrev Mem.wf {w : Nat} (m : Mem w) : Prop := m.cells.Pairwise (fun a b => a.1 < b.1)

/-- Every element something has written has an address below `n`. -/
abbrev Mem.below {w : Nat} (m : Mem w) (n : Nat) : Prop := ∀ c ∈ m.cells, c.1 < n

/-- Something has written every element below `n`. -/
abbrev Mem.covers {w : Nat} (m : Mem w) (n : Nat) : Prop := ∀ k, k < n → (m.find? k).isSome = true

/-! ### Updates of one part of the state -/

def State.setErr (s : State) (e : Err) : State := { s with err := e }

def State.setRslt (s : State) (v : Word) : State := { s with rslt := v }

def State.setEnc (s : State) (e : Enc) : State := { s with enc := e }

def State.setDec (s : State) (d : Dec) : State := { s with dec := d }

def State.setFin (s : State) (m : Mem 16) : State := { s with fin := m }

def State.setFout (s : State) (m : Mem 16) : State := { s with fout := m }

/-- Take `n` free values (log 5). -/
def State.take (s : State) (n : Nat) : State := { s with free := s.free + n }

/-- Replace the BitWriter. -/
def State.setWriter (s : State) (b : Writer) : State := s.setEnc { s.enc with bw := b }

/-- Replace `WIDTH`. -/
def State.setWidth (s : State) (m : BitVec 8) : State := s.setEnc { s.enc with width := m }

/-- Replace the BitReader. -/
def State.setReader (s : State) (r : Reader) : State := s.setDec { s.dec with br := r }

/-! ### The end of a command -/

/-- A command that does not raise ends with `STATUS.ERR <- 0` (00_scope.md R11). -/
def complete (s : State) : Result := .next (s.setErr .ok)

/-- Taking an error: `STATUS.ERR` holds the code, nothing is saved, no mode changes, and every other piece of state is as the
raising rule left it (00_scope.md R11, 60_exceptions.md R181). There is no return (R183). -/
def raise (e : Err) (s : State) : Result := .next (s.setErr e)

/-! ### BitWriter (41_bitstream.md section 2) -/

/-- Bit `i` of a byte set to `b`, the other bits kept. -/
def setBit (v : Byte) (i : Nat) (b : Bool) : Byte :=
  (v &&& ~~~(1#8 <<< i)) ||| ((BitVec.ofBool b).setWidth 8 <<< i)

/-- The empty writer; no byte of `OBUF` is valid (41_bitstream.md R101). -/
def Writer.empty (gen : Nat) : Writer :=
  { acc := 0, nb := 0, olen := 0, obuf := .unspecified 8 gen }

/-- `OBUF[OLEN] <- BW_ACC ; OLEN <- OLEN + 1 ; BW_ACC <- 0 ; BW_NB <- 0` (41_bitstream.md R102). -/
def Writer.emit (b : Writer) : Writer :=
  { acc := 0, nb := 0, olen := b.olen + 1, obuf := b.obuf.write b.olen.toNat b.acc }

/-- One turn of the loop of BWPUT: `BW_ACC[7 - BW_NB] <- bit`, and the byte goes out when it is full (41_bitstream.md R102). -/
def Writer.pushBit (b : Writer) (bit : Bool) : Writer :=
  let acc := setBit b.acc (7 - b.nb.val) bit
  if b.nb.val = 7 then Writer.emit { b with acc := acc } else { b with acc := acc, nb := b.nb + 1 }

/-- Append the low `w` bits of `c`, most significant first (41_bitstream.md R102). -/
def Writer.put (c : Nat) : Nat → Writer → Writer
  | 0, b => b
  | i + 1, b => Writer.put c i (b.pushBit (c.testBit i))

/-- Append codes, each with its width, one after another with no padding (30_encoding.md R81). -/
def Writer.putAll (items : List (Nat × Nat)) (b : Writer) : Writer :=
  items.foldl (fun b cw => Writer.put cw.1 cw.2 b) b

/-- Flush the partial byte, if there is one, its unused low bits zero (41_bitstream.md R103). -/
def Writer.finish (b : Writer) : Writer :=
  if b.nb.val = 0 then { b with acc := 0, nb := 0 } else b.emit

/-- Bytes of `OBUF` that the writer's bits and `n` more bits fill, the last one perhaps in part. -/
def Writer.bytesWith (b : Writer) (n : Nat) : Nat := b.olen.toNat + (b.nb.val + n + 7) / 8

/-! ### BitReader (41_bitstream.md section 3) -/

/-- Bit `p` of the input stream: `IBUF[p div 8][7 - (p mod 8)]` (20_memory.md R57). -/
def Reader.bit (r : Reader) (p : Nat) : Bool := (r.ibuf.read (p / 8)).getLsbD (7 - p % 8)

/-- The `n` bits from `p` on as an unsigned number, most significant first, after the number `v` (41_bitstream.md R107). -/
def Reader.bitsFrom (r : Reader) : Nat → Nat → Nat → Nat
  | 0, _, v => v
  | n + 1, p, v => r.bitsFrom n (p + 1) (2 * v + (r.bit p).toNat)

/-- The `w` bits at the cursor. -/
def Reader.peek (r : Reader) (w : Nat) : Nat := r.bitsFrom w r.pos 0

/-- Fewer than `w` bits remain: `8 * ILEN - BR_POS < w` over the integers (41_bitstream.md R107, R108). -/
abbrev Reader.short (r : Reader) (w : Nat) : Prop := 8 * r.ilen.toNat < r.pos + w

/-- The cursor moved on by `w` bits. -/
def Reader.advance (r : Reader) (w : Nat) : Reader := { r with pos := r.pos + w }

/-- Read a code of each width in turn; none when a read runs short (45_decompressor.md R162). -/
def Reader.readAll : List Nat → Reader → Option (List Nat × Reader)
  | [], r => some ([], r)
  | w :: ws, r =>
    if r.short w then none
    else
      match Reader.readAll ws (r.advance w) with
      | none => none
      | some (cs, r') => some (r.peek w :: cs, r')

end Sys2Proof.Machine
end

