-- ==== Sys2Proof/Machine/Flags.lean ====
section
/-! DEFINITION. The `STATUS` register and its fields (10_state.md R25, 60_exceptions.md R170). -/

namespace Sys2Proof.Machine

/-- The code of an error kind in `STATUS.ERR` (60_exceptions.md R170). -/
def Err.code : Err → BitVec 4
  | .ok => 0
  | .dimensionMismatch => 1
  | .bitWidthOverflow => 2
  | .streamUnderrun => 3
  | .badOperand => 4
  | .illegalCommand => 5

/-- `STATUS`, 8 bits: `D_HIST`, `D_VALID`, `E_HIST`, `E_VALID`, `ERR[3:0]`, from bit 7 down (10_state.md R25). -/
def statusReg (s : State) : BitVec 8 :=
  BitVec.ofBool s.dec.hist ++ BitVec.ofBool s.dec.valid ++ BitVec.ofBool s.enc.hist ++ BitVec.ofBool s.enc.valid
    ++ s.err.code

end Sys2Proof.Machine
end

