-- ==== Sys2Proof/Machine/Operands.lean ====
section
/-! DEFINITION. The operands of commands: the width operand, the sample count, the path function and the frame addresses,
the CameraSpec and dimension checks, the residual lists; and the registers by number (10_state.md R24). -/

namespace Sys2Proof.Machine

/-- A BitWidth is in 1 to 16; a command refuses any other width (60_exceptions.md R174). -/
abbrev badWidth (w : Nat) : Prop := w < Config.wMin ∨ Config.wMax < w

/-- `N = COLS * ROWS` (10_state.md R28). -/
def CameraSpec.count (c : CameraSpec) : Nat := c.cols.toNat * c.rows.toNat

/-- The dimensions a frame of the context must declare. -/
def CameraSpec.dims (c : CameraSpec) : Dims := { cols := c.cols, rows := c.rows }

/-- A CameraSpec no context can be constructed from: a zero dimension or more than `MAX_N` samples (60_exceptions.md R174). -/
abbrev CameraSpec.bad (p : Params) (c : CameraSpec) : Prop := c.cols = 0 ∨ c.rows = 0 ∨ p.maxN < c.count

/-- `path(k)`, the (row, column) visited `k`-th in a frame of `cols` columns (20_memory.md R54). -/
def path (scan : Scan) (cols k : Nat) : Nat × Nat :=
  let row := k / cols
  let j := k % cols
  match scan with
  | .raster => (row, j)
  | .serpentine => if row % 2 = 0 then (row, j) else (row, cols - 1 - j)

/-- The key of (row, column) in a frame store; a column is below `2^16` (log 14). -/
def frameKey (rc : Nat × Nat) : Nat := rc.1 * 65536 + rc.2

/-- The key of the sample at `path(k)`. -/
def pathKey (scan : Scan) (cols k : Nat) : Nat := frameKey (path scan cols k)

/-- Rows and columns a frame can have: `FIN_COLS` and the like are 16-bit registers, so both are below 65535 (20_memory.md R50). -/
abbrev framePlace (row col : Nat) : Prop := row < 65535 ∧ col < 65535

/-- The first `n` residuals, each read as i32 (10_state.md R33). -/
def residuals (m : Mem 32) (n : Nat) : List Int := (List.range n).map (fun k => (m.read k).toInt)

/-- The register of a number (10_state.md R24); the other numbers are reserved. -/
def Reg.ofNumber : Nat → Option Reg
  | 0x00 => some .cmd
  | 0x01 => some .status
  | 0x02 => some .opa
  | 0x03 => some .rslt
  | 0x04 => some .width
  | 0x05 => some .olen
  | 0x06 => some .ilen
  | 0x08 => some .specCols
  | 0x09 => some .specRows
  | 0x0A => some .specFps
  | 0x0C => some .finCols
  | 0x0D => some .finRows
  | 0x0E => some .foutCols
  | 0x0F => some .foutRows
  | 0x10 => some .eCols
  | 0x11 => some .eRows
  | 0x12 => some .eFps
  | 0x14 => some .dCols
  | 0x15 => some .dRows
  | 0x16 => some .dFps
  | _ => none

/-- What the host reads from a register: its bits with the upper bits zero; `CMD` is write-only and reads 0 (10_state.md R24). -/
def readReg (s : State) : Reg → Word
  | .cmd => 0
  | .status => (statusReg s).setWidth 32
  | .opa => s.opa
  | .rslt => s.rslt
  | .width => s.enc.width.setWidth 32
  | .olen => s.enc.bw.olen
  | .ilen => s.dec.br.ilen
  | .specCols => s.spec.cols.setWidth 32
  | .specRows => s.spec.rows.setWidth 32
  | .specFps => s.spec.fps.setWidth 32
  | .finCols => s.finDims.cols.setWidth 32
  | .finRows => s.finDims.rows.setWidth 32
  | .foutCols => s.foutDims.cols.setWidth 32
  | .foutRows => s.foutDims.rows.setWidth 32
  | .eCols => s.enc.spec.cols.setWidth 32
  | .eRows => s.enc.spec.rows.setWidth 32
  | .eFps => s.enc.spec.fps.setWidth 32
  | .dCols => s.dec.spec.cols.setWidth 32
  | .dRows => s.dec.spec.rows.setWidth 32
  | .dFps => s.dec.spec.fps.setWidth 32

/-- What the host reads by register number; a reserved number reads 0 (10_state.md R24). -/
def hostRead (s : State) (n : Nat) : Word :=
  match Reg.ofNumber n with
  | some r => readReg s r
  | none => 0

/-- A host write of `v` to a register that holds host-written data: the low bits are taken, the upper ignored; a read-only
register ignores the write (10_state.md R24, R40). `CMD` holds no such data: see `issue`. -/
def writeReg (s : State) (r : Reg) (v : Word) : State :=
  match r with
  | .opa => { s with opa := v }
  | .ilen => s.setReader { s.dec.br with ilen := v }
  | .specCols => { s with spec := { s.spec with cols := v.setWidth 16 } }
  | .specRows => { s with spec := { s.spec with rows := v.setWidth 16 } }
  | .specFps => { s with spec := { s.spec with fps := v.setWidth 16 } }
  | .finCols => { s with finDims := { s.finDims with cols := v.setWidth 16 } }
  | .finRows => { s with finDims := { s.finDims with rows := v.setWidth 16 } }
  | .foutCols => { s with foutDims := { s.foutDims with cols := v.setWidth 16 } }
  | .foutRows => { s with foutDims := { s.foutDims with rows := v.setWidth 16 } }
  | .cmd => s
  | .status => s
  | .rslt => s
  | .width => s
  | .olen => s
  | .eCols => s
  | .eRows => s
  | .eFps => s
  | .dCols => s
  | .dRows => s
  | .dFps => s

end Sys2Proof.Machine
end

