-- ==== Sys2Proof/Machine/Bitstream.lean ====
section
/-! DEFINITION. The BitWriter and BitReader family: BWRST, BWPUT, BWFIN, BRRST, BRGET (41_bitstream.md). None of them needs a
constructed context (R100). -/

namespace Sys2Proof.Machine

/-- A new, empty BitWriter; the contents of `OBUF` become unspecified (41_bitstream.md R101). -/
def resetWriter (s : State) : State := (s.setWriter (.empty s.free)).take 1

/-- BWRST (41_bitstream.md R101). -/
def execBwrst (s : State) : Result := complete (resetWriter s)

/-- BWPUT (41_bitstream.md R102); bits beyond `8 * OBUF_CAP` are refused (R104, U9).
DEDUCED (log 12), safe: the padding bits of a BWFIN count as written. -/
def execBwput (w : Nat) (s : State) : Result :=
  if badWidth w then raise .badOperand s
  else if s.params.obufCap < s.enc.bw.bytesWith w then .refused .obufCapacity
  else complete (s.setWriter (Writer.put s.opa.toNat w s.enc.bw))

/-- BWFIN (41_bitstream.md R103); a byte beyond `OBUF_CAP` is refused (R104, U9). -/
def execBwfin (s : State) : Result :=
  if s.enc.bw.nb.val ≠ 0 ∧ s.params.obufCap < s.enc.bw.bytesWith 0 then .refused .obufCapacity
  else complete (s.setWriter s.enc.bw.finish)

/-- BRRST (41_bitstream.md R106). -/
def execBrrst (s : State) : Result := complete (s.setReader { s.dec.br with pos := 0 })

/-- BRGET (41_bitstream.md R107). On an underrun the cursor stays and `RSLT` is a free value (R108, U5; log 7). -/
def execBrget (w : Nat) (s : State) : Result :=
  if badWidth w then raise .badOperand s
  else if s.dec.br.short w then raise .streamUnderrun ((s.setRslt (Config.freeWord s.free)).take 1)
  else if 8 * s.params.ibufCap < s.dec.br.pos + w then .fault .noSuchAddress
  else complete ((s.setRslt (BitVec.ofNat 32 (s.dec.br.peek w))).setReader (s.dec.br.advance w))

end Sys2Proof.Machine
end

