-- ==== Sys2Proof/Machine/Predictor.lean ====
section
/-! DEFINITION. The Predictor family: PFWD, PINV (43_predictor.md). -/

namespace Sys2Proof.Machine

/-- The forward pass at path index `k`, after the temporal delta `tprev` (43_predictor.md R131): the new temporal delta, and the
context with `RESE[k]` and `HISTE[k]` written. -/
def forwardAt (p : Params) (fin : Mem 16) (st : Int × Enc) (k : Nat) : Int × Enc :=
  let e := st.2
  let smp := fin.read (pathKey p.scan e.spec.cols.toNat k)
  let h := if e.hist then e.history.read k else Config.baseline
  let t : Int := (smp.toNat : Int) - (h.toNat : Int)
  (t, { e with res := e.res.write k (BitVec.ofInt 32 (t - st.1)), history := e.history.write k smp })

/-- The forward pass over the first `n` path indices. -/
def forwardPass (p : Params) (fin : Mem 16) (e : Enc) (n : Nat) : Int × Enc :=
  (List.range n).foldl (forwardAt p fin) (0, e)

/-- `predict_forward()` (43_predictor.md R131, R133). -/
def predictForward (s : State) : State :=
  s.setEnc { (forwardPass s.params s.fin s.enc s.enc.spec.count).2 with hist := true }

/-- PFWD (43_predictor.md R131). -/
def execPfwd (s : State) : Result :=
  if s.enc.valid = false then raise .illegalCommand s
  else if s.finDims ≠ s.enc.spec.dims then raise .dimensionMismatch s
  else if s.params.maxN < s.enc.spec.count then .fault .noSuchAddress
  else complete (predictForward s)

/-- What the inverse pass carries: `acc`, the context and the output frame. -/
structure InverseState where
  acc : Word
  dec : Dec
  fout : Mem 16
  deriving DecidableEq, Repr

/-- The inverse pass at path index `k` (43_predictor.md R136): `acc` wraps mod `2^32`, the sample is `(h + acc) mod 2^16` (R137). -/
def inverseAt (p : Params) (st : InverseState) (k : Nat) : InverseState :=
  let d := st.dec
  let acc := st.acc + d.res.read k
  let h := if d.hist then d.history.read k else Config.baseline
  let smp : Sample := BitVec.ofInt 16 ((h.toNat : Int) + acc.toInt)
  { acc := acc
    dec := { d with history := d.history.write k smp }
    fout := st.fout.write (pathKey p.scan d.spec.cols.toNat k) smp }

/-- The inverse pass over the first `n` path indices. -/
def inversePass (p : Params) (d : Dec) (fout : Mem 16) (n : Nat) : InverseState :=
  (List.range n).foldl (inverseAt p) { acc := 0, dec := d, fout := fout }

/-- `predict_inverse()` (43_predictor.md R136, R138). -/
def predictInverse (s : State) : State :=
  let r := inversePass s.params s.dec s.fout s.dec.spec.count
  (s.setDec { r.dec with hist := true }).setFout r.fout

/-- PINV (43_predictor.md R136). -/
def execPinv (s : State) : Result :=
  if s.dec.valid = false then raise .illegalCommand s
  else if s.foutDims ≠ s.dec.spec.dims then raise .dimensionMismatch s
  else if s.params.maxN < s.dec.spec.count then .fault .noSuchAddress
  else complete (predictInverse s)

end Sys2Proof.Machine
end

