-- ==== Sys2Proof/Machine/TwosComplement.lean ====
section
/-! DEFINITION. The TwosComplement family: TCENC, TCDEC (40_twos_complement.md). -/

namespace Sys2Proof.Machine

/-- `tc_encode(v, w) = v mod 2^w` (40_twos_complement.md R90). -/
def tcEncode (v : Int) (w : Nat) : Nat := (v % 2 ^ w).toNat

/-- `tc_decode(c, w)`: `c - 2^w` when bit `w-1` is set, else `c` (40_twos_complement.md R90). -/
def tcDecode (c w : Nat) : Int := if c.testBit (w - 1) then (c : Int) - 2 ^ w else c

/-- TCENC (40_twos_complement.md R91). -/
def execTcenc (w : Nat) (s : State) : Result :=
  if badWidth w then raise .badOperand s
  else complete (s.setRslt (BitVec.ofNat 32 (tcEncode s.opa.toInt w)))

/-- TCDEC: the bits of `OPA` above `w-1` are ignored (40_twos_complement.md R92). -/
def execTcdec (w : Nat) (s : State) : Result :=
  if badWidth w then raise .badOperand s
  else complete (s.setRslt (BitVec.ofInt 32 (tcDecode (s.opa.toNat % 2 ^ w) w)))

end Sys2Proof.Machine
end

