-- ==== Sys2Proof/Machine/WidthSelector.lean ====
section
/-! DEFINITION. The BitWidthSelector family: SELW (42_width_selector.md). -/

namespace Sys2Proof.Machine

/-- `bitlen(n)`: the least `b` with `n < 2^b` (00_scope.md R10). -/
def bitlen (n : Nat) : Nat := if n = 0 then 0 else Nat.log2 n + 1

/-- `need(r)`: the least width whose two's-complement range contains `r` (42_width_selector.md R120). -/
def need (r : Int) : Nat := if 0 ≤ r then bitlen r.toNat + 1 else bitlen (-r - 1).toNat + 1

/-- `select_width(R)` (42_width_selector.md R120). -/
def selectWidth (rs : List Int) : Nat := rs.foldl (fun m r => if m < need r then need r else m) 1

/-- SELW (42_width_selector.md R121, R123), over all `N` residuals (R125).
DESIGN CHOICE (log 24), unsafe: under SEEDED32 too, where R125 ties all `N` to DENSE and 30_encoding.md R88 gives no SELW. -/
def execSelw (s : State) : Result :=
  if s.enc.valid = false then raise .illegalCommand s
  else if s.params.maxN < s.enc.spec.count then .fault .noSuchAddress
  else
    let m := selectWidth (residuals s.enc.res s.enc.spec.count)
    if Config.wMax < m then raise .bitWidthOverflow (s.setWidth 0)
    else complete (s.setWidth (BitVec.ofNat 8 m))

end Sys2Proof.Machine
end

