-- ==== Sys2Proof/Machine/Compressor.lean ====
section
/-! DEFINITION. The Compressor family: CINIT, CNEXT (44_compressor.md). The frame's byte sequence is the list of codes that
`frameItems` gives, written one after another: under DENSE all codes (30_encoding.md R81), under SEEDED32 the four seed bytes and
then the codes after the first (R88; log 4). -/

namespace Sys2Proof.Machine

/-- CINIT (44_compressor.md R151, 10_state.md R39). -/
def execCinit (s : State) : Result :=
  if s.spec.bad s.params then raise .badOperand s
  else
    complete ((s.setEnc
      { spec := s.spec
        valid := true
        hist := false
        history := .unspecified 16 s.free
        res := .unspecified 32 (s.free + 1)
        bw := .empty (s.free + 2)
        width := 0 }).take 3)

/-- The residuals CNEXT selects the width over: all under DENSE (42_width_selector.md R125), all but the first under SEEDED32
(30_encoding.md R88). SELW always takes all (log 24). -/
def widthResiduals (f : Framing) (rs : List Int) : List Int :=
  match f with
  | .dense => rs
  | .seeded32 => rs.drop 1

/-- The four bytes of a 32-bit two's-complement number, least significant first (30_encoding.md R88). -/
def seedBytes (r : Int) : List Nat :=
  let n := tcEncode r 32
  [n % 256, n / 256 % 256, n / 65536 % 256, n / 16777216 % 256]

/-- The codes of a frame at width `m`, each with its width, in stream order. -/
def frameItems (f : Framing) (m : Nat) (rs : List Int) : List (Nat × Nat) :=
  match f, rs with
  | .seeded32, r :: rest => (seedBytes r).map (fun b => (b, 8)) ++ rest.map (fun r => (tcEncode r m, m))
  | .seeded32, [] => []
  | .dense, rs => rs.map (fun r => (tcEncode r m, m))

/-- The number of bits of a list of codes. -/
def itemBits (items : List (Nat × Nat)) : Nat := (items.map Prod.snd).sum

/-- The packing step of CNEXT at width `m` (44_compressor.md R152). A frame longer than `OBUF_CAP` cannot occur in a run (41_bitstream.md
R104); the refusal covers the states no run reaches. -/
def packFrame (m : Nat) (items : List (Nat × Nat)) (s : State) : Result :=
  if s.params.obufCap < s.enc.bw.bytesWith (itemBits items) then .refused .obufCapacity
  else complete ((s.setWidth (BitVec.ofNat 8 m)).setWriter (Writer.putAll items s.enc.bw).finish)

/-- What CNEXT does after its checks: the predictor pass, the empty writer, the selector, the packing (44_compressor.md R152). After
BitWidthOverflow the predictor state has advanced and no output exists (R154). -/
def compressFrame (s : State) : Result :=
  let s1 := resetWriter (predictForward s)
  let rs := residuals s1.enc.res s1.enc.spec.count
  let m := selectWidth (widthResiduals s1.params.framing rs)
  if Config.wMax < m then raise .bitWidthOverflow (s1.setWidth 0)
  else packFrame m (frameItems s1.params.framing m rs) s1

/-- CNEXT (44_compressor.md R152). -/
def execCnext (s : State) : Result :=
  if s.enc.valid = false then raise .illegalCommand s
  else if s.finDims ≠ s.enc.spec.dims then raise .dimensionMismatch s
  else if s.params.maxN < s.enc.spec.count then .fault .noSuchAddress
  else compressFrame s

end Sys2Proof.Machine
end

