-- ==== Sys2Proof/Machine/Decompressor.lean ====
section
/-! DEFINITION. The Decompressor family: DINIT, DNEXT (45_decompressor.md). -/

namespace Sys2Proof.Machine

/-- DINIT (45_decompressor.md R161, 10_state.md R39). `ILEN` and `IBUF` are the host's and stay. -/
def execDinit (s : State) : Result :=
  if s.spec.bad s.params then raise .badOperand s
  else
    complete ((s.setDec
      { spec := s.spec
        valid := true
        hist := false
        history := .unspecified 16 s.free
        res := .unspecified 32 (s.free + 1)
        br := { s.dec.br with pos := 0 } }).take 2)

/-- The widths of the codes of a frame of `n` samples, in stream order: `n` codes of `w` bits under DENSE, four seed bytes and
`n - 1` codes under SEEDED32 (30_encoding.md R81, R88). -/
def frameWidths (f : Framing) (w n : Nat) : List Nat :=
  match f with
  | .dense => List.replicate n w
  | .seeded32 => List.replicate 4 8 ++ List.replicate (n - 1) w

/-- The 32-bit number of four bytes, least significant first. -/
def seedValue (b0 b1 b2 b3 : Nat) : Int := tcDecode (b0 + 256 * b1 + 65536 * b2 + 16777216 * b3) 32

/-- The residuals of the codes of a frame (45_decompressor.md R162, 30_encoding.md R88). -/
def frameResiduals (f : Framing) (w : Nat) (codes : List Nat) : List Int :=
  match f, codes with
  | .seeded32, b0 :: b1 :: b2 :: b3 :: rest => seedValue b0 b1 b2 b3 :: rest.map (fun c => tcDecode c w)
  | .seeded32, _ => []
  | .dense, codes => codes.map (fun c => tcDecode c w)

/-- The state after an underrun in DNEXT: `RESD`, `FOUT` and `BR_POS` unspecified, `HISTD` and `D_HIST` as before
(45_decompressor.md R164, U4; log 8). -/
def underrunState (s : State) : State :=
  ((s.setDec
      { s.dec with
        res := .unspecified 32 s.free
        br := { s.dec.br with pos := Config.freeNat (s.free + 1) } }).setFout (.unspecified 16 (s.free + 2))).take 3

/-- The first phase done: the codes' residuals in `RESD`, the cursor after the last code (45_decompressor.md R162). -/
def loadResiduals (rs : List Int) (br : Reader) (s : State) : State :=
  s.setDec { s.dec with res := s.dec.res.writeFrom 0 (rs.map (BitVec.ofInt 32)), br := br }

/-- What DNEXT does after its checks: all codes first, then the inverse pass (45_decompressor.md R162).
DEDUCED (log 4), unsafe for SEEDED32 only: there `BR_POS` ends after the last code, `32 + w * (N - 1)`, which 30_encoding.md R88 does not
say. -/
def decompressFrame (w : Nat) (s : State) : Result :=
  match Reader.readAll (frameWidths s.params.framing w s.dec.spec.count) { s.dec.br with pos := 0 } with
  | none => raise .streamUnderrun (underrunState s)
  | some (codes, br) =>
    if 8 * s.params.ibufCap < br.pos then .fault .noSuchAddress
    else complete (predictInverse (loadResiduals (frameResiduals s.params.framing w codes) br s))

/-- DNEXT (45_decompressor.md R162). -/
def execDnext (w : Nat) (s : State) : Result :=
  if s.dec.valid = false then raise .illegalCommand s
  else if s.foutDims ≠ s.dec.spec.dims then raise .dimensionMismatch s
  else if badWidth w then raise .badOperand s
  else if s.params.maxN < s.dec.spec.count then .fault .noSuchAddress
  else decompressFrame w s

end Sys2Proof.Machine
end

