-- ==== Sys2Proof/Machine/Dispatch.lean ====
section
/-! DEFINITION. One arm per command, each a direct call of its meaning. -/

namespace Sys2Proof.Machine

/-- The effect of one command, one atomic step of the engine (00_scope.md R12). -/
def exec (i : Instr) (s : State) : Host.Outcome State Fault Refusal :=
  match i with
  | .cinit => Sys2Proof.Machine.execCinit s
  | .dinit => Sys2Proof.Machine.execDinit s
  | .tcenc w => Sys2Proof.Machine.execTcenc w s
  | .tcdec w => Sys2Proof.Machine.execTcdec w s
  | .bwrst => Sys2Proof.Machine.execBwrst s
  | .bwput w => Sys2Proof.Machine.execBwput w s
  | .bwfin => Sys2Proof.Machine.execBwfin s
  | .brrst => Sys2Proof.Machine.execBrrst s
  | .brget w => Sys2Proof.Machine.execBrget w s
  | .pfwd => Sys2Proof.Machine.execPfwd s
  | .pinv => Sys2Proof.Machine.execPinv s
  | .selw => Sys2Proof.Machine.execSelw s
  | .cnext => Sys2Proof.Machine.execCnext s
  | .dnext w => Sys2Proof.Machine.execDnext w s

end Sys2Proof.Machine
end

