-- ==== Sys2Proof/Machine/Bus.lean ====
section
/-! DEFINITION. The host's moves: delivering a command word to `CMD`, register writes, element writes, COPYOUT, the reset
input (10_state.md R24, R40; 30_encoding.md R70, R77, R78; 70_reset_and_hazards.md R200). -/

namespace Sys2Proof.Machine

/-! ### What the host reads between commands (10_state.md R40); no read has an effect (20_memory.md R61)

DESIGN CHOICE (log 25), unsafe outside the memory: a read there is no fault. -/

/-- `OBUF[j]`; at or beyond `OBUF_CAP` a free value (DESIGN CHOICE, log 25). -/
def hostObuf (s : State) (j : Nat) : Byte := s.enc.bw.obuf.read j

/-- `RESE[k]`; at or beyond `MAX_N` a free value (DESIGN CHOICE, log 25). -/
def hostRese (s : State) (k : Nat) : Word := s.enc.res.read k

/-- `RESD[k]`; at or beyond `MAX_N` a free value (DESIGN CHOICE, log 25). -/
def hostResd (s : State) (k : Nat) : Word := s.dec.res.read k

/-- The sample of the output frame store at row `r`, column `c` (20_memory.md R51); outside `framePlace` the sample or free value of
its key, which from column 65536 on can be another place's (DESIGN CHOICE, log 25). -/
def hostFout (s : State) (r c : Nat) : Sample := s.fout.read (frameKey (r, c))

/-! ### The host's moves -/

/-- Run the command word in `CMD`; an illegal word raises IllegalCommand (30_encoding.md R74). -/
def runCommand (s : State) : Result :=
  match decode s.cmd with
  | .ok i => exec i s
  | .error _ => raise .illegalCommand s

/-- A write to `CMD` delivers the word, and it is executed once (20_memory.md R67, 30_encoding.md R70). -/
def issue (v : Word) (s : State) : Result := runCommand { s with cmd := commandWord v }

/-- A host write of `v` to register number `n` (10_state.md R24); `ILEN` beyond `IBUF_CAP` is refused (U9). -/
def hostWrite (n : Nat) (v : Word) (s : State) : Result :=
  match Reg.ofNumber n with
  | none => .next s
  | some .cmd => issue v s
  | some .ilen => if s.params.ibufCap < v.toNat then .refused .ilenCapacity else .next (writeReg s .ilen v)
  | some r => .next (writeReg s r v)

/-- `COPYOUT`: `OBUF[0 .. OLEN-1]` to `IBUF[0 ..]`, `ILEN <- OLEN` (30_encoding.md R77, 20_memory.md R56). -/
def copyOut (s : State) : Result :=
  if s.params.ibufCap < s.enc.bw.olen.toNat then .refused .ilenCapacity
  else
    .next (s.setReader
      { s.dec.br with
        ilen := s.enc.bw.olen
        ibuf := s.dec.br.ibuf.writeFrom 0 ((List.range s.enc.bw.olen.toNat).map s.enc.bw.obuf.read) })

/-- The reset input: every register 0, both contexts unconstructed, the memories unspecified; the frame stores are the host's and
stay, and so do the parameters and the host's moves (70_reset_and_hazards.md R200, 10_state.md R38; log 15). -/
def hardReset (s : State) : State :=
  { State.afterReset s.params s.free with host := s.host, fin := s.fin, fout := s.fout }

/-- One move of the host. A command issued by it runs to its end in the same step (00_scope.md R12). -/
def hostMove (m : HostMove) (s : State) : Result :=
  match m with
  | .writeReg n v => hostWrite n v s
  | .copyReg src dst => hostWrite dst (hostRead s src) s
  | .writeFin r c v =>
    if framePlace r c then .next (s.setFin (s.fin.write (frameKey (r, c)) v)) else .fault .noSuchAddress
  | .writeFout r c v =>
    if framePlace r c then .next (s.setFout (s.fout.write (frameKey (r, c)) v)) else .fault .noSuchAddress
  | .writeIbuf j v =>
    if j < s.params.ibufCap then .next (s.setReader { s.dec.br with ibuf := s.dec.br.ibuf.write j v })
    else .fault .noSuchAddress
  | .writeRese k v =>
    if k < s.params.maxN then .next (s.setEnc { s.enc with res := s.enc.res.write k v }) else .fault .noSuchAddress
  | .writeResd k v =>
    if k < s.params.maxN then .next (s.setDec { s.dec with res := s.dec.res.write k v }) else .fault .noSuchAddress
  | .copyOut => copyOut s
  | .reset => .next (hardReset s)

/-- What the next step does: the first of the host's pending moves; with none pending the engine is idle (60_exceptions.md R190,
70_reset_and_hazards.md R219; log 9). -/
def nextMove (s : State) : Result :=
  match s.host with
  | [] => .next s
  | m :: rest => hostMove m { s with host := rest }

/-- The move that delivers a command word of `nbits` bits, bit 0 the least significant. -/
def deliver (nbits w : Nat) : HostMove := .writeReg 0x00 (BitVec.ofNat 32 (w % 2 ^ nbits))

/-! ### Host directives and pseudo-instructions (30_encoding.md R77, R78) -/

/-- The move that issues a command. -/
def commandMove (i : Instr) : HostMove := .writeReg 0x00 ((encode i).setWidth 32)

/-- `SET OPA, v`. -/
def setOpa (v : Word) : HostMove := .writeReg 0x02 v

/-- `FILL FIN` with a list of rows. -/
def fillFin (rows : List (List Sample)) : List HostMove :=
  rows.zipIdx.flatMap (fun rw => rw.1.zipIdx.map (fun cv => .writeFin rw.2 cv.2 cv.1))

/-- `FILL IBUF`. -/
def fillIbuf (bytes : List Byte) : List HostMove := bytes.zipIdx.map (fun b => .writeIbuf b.2 b.1)

/-- `FILL RESE`. -/
def fillRese (rs : List Word) : List HostMove := rs.zipIdx.map (fun r => .writeRese r.2 r.1)

/-- `FILL RESD`. -/
def fillResd (rs : List Word) : List HostMove := rs.zipIdx.map (fun r => .writeResd r.2 r.1)

/-- `ENCV v, w`. -/
def encv (v : Word) (w : Nat) : List HostMove := [setOpa v, commandMove (.tcenc w)]

/-- `DECV c, w`. -/
def decv (c : Word) (w : Nat) : List HostMove := [setOpa c, commandMove (.tcdec w)]

/-- `PUTV c, w`. -/
def putv (c : Word) (w : Nat) : List HostMove := [setOpa c, commandMove (.bwput w)]

/-- `PUTS v, w`: encode, move `RSLT` to `OPA` through the host, append. -/
def puts (v : Word) (w : Nat) : List HostMove :=
  [setOpa v, commandMove (.tcenc w), .copyReg 0x03 0x02, commandMove (.bwput w)]

end Sys2Proof.Machine
end

