-- ==== Sys2Proof/Machine/Step.lean ====
section
/-! DEFINITION. One step of the machine: one move of the host, with the command it issues. -/

namespace Sys2Proof.Machine

/-- One step (00_scope.md R12, 10_state.md R20). -/
def step (s : State) : Host.Outcome State Fault Refusal := nextMove s

/-- `s` with the delivery of the command word `w` as the host's very next move (log 9). -/
def State.withFetchWord (s : State) (nbits w : Nat) : State := { s with host := deliver nbits w :: s.host }

end Sys2Proof.Machine
end

