-- ==== Sys2Proof/Safety.lean ====
section
/-! DEFINITION. The invariant of the reachable states and the notions the statements use: bit strings, the writer's and the
reader's stream, the sequences of the predictor, pairing. -/

namespace Sys2Proof.Machine

/-! ### The invariant -/

/-- A BitWriter between commands: the bits written fit in `OBUF_CAP` bytes (10_state.md R30, 41_bitstream.md R104), exactly the bytes below `OLEN` are valid, and the bits of
`BW_ACC` below the pending ones are 0 (10_state.md R34). -/
abbrev Writer.inv (p : Params) (b : Writer) : Prop :=
  b.bytesWith 0 ≤ p.obufCap ∧ b.obuf.wf ∧ b.obuf.below b.olen.toNat ∧ b.obuf.covers b.olen.toNat
    ∧ b.acc.toNat % 2 ^ (8 - b.nb.val) = 0

/-- A BitReader between commands: `ILEN <= IBUF_CAP` (10_state.md R30). -/
abbrev Reader.inv (p : Params) (r : Reader) : Prop :=
  r.ilen.toNat ≤ p.ibufCap ∧ r.ibuf.wf ∧ r.ibuf.below p.ibufCap

/-- The history and residual memory of a context: a constructed context has a legal CameraSpec (R26), HasHistory only a constructed
one, and then every history entry of the frame has been written (R31, R32). -/
abbrev ctxInv (p : Params) (spec : CameraSpec) (valid hist : Bool) (history : Mem 16) (res : Mem 32) : Prop :=
  (valid = true → ¬ spec.bad p) ∧ (hist = true → valid = true ∧ history.covers spec.count)
    ∧ history.wf ∧ history.below p.maxN ∧ res.wf ∧ res.below p.maxN

/-- The ENC context between commands; `WIDTH` is 0 to 16 (10_state.md R29). -/
abbrev Enc.inv (p : Params) (e : Enc) : Prop :=
  ctxInv p e.spec e.valid e.hist e.history e.res ∧ e.bw.inv p ∧ e.width.toNat ≤ 16

/-- The DEC context between commands. -/
abbrev Dec.inv (p : Params) (d : Dec) : Prop :=
  ctxInv p d.spec d.valid d.hist d.history d.res ∧ d.br.inv p

/-- A frame store holds samples only at places a frame can have. -/
abbrev frameInv (m : Mem 16) : Prop := m.wf ∧ ∀ c ∈ m.cells, framePlace (c.1 / 65536) (c.1 % 65536)

/-- The invariant of the machine between steps. -/
abbrev Inv (s : State) : Prop :=
  s.params.legal ∧ s.enc.inv s.params ∧ s.dec.inv s.params ∧ frameInv s.fin ∧ frameInv s.fout

/-! ### Bit strings (20_memory.md R57) -/

/-- The low `w` bits of a number, most significant first. -/
def codeBits (c w : Nat) : List Bool := (List.range w).map (fun i => c.testBit (w - 1 - i))

/-- The bits of codes written one after another. -/
def itemsBits (items : List (Nat × Nat)) : List Bool := items.flatMap (fun cw => codeBits cw.1 cw.2)

/-- The bits a BitWriter holds: the valid bytes of `OBUF`, then the pending bits (41_bitstream.md R105). -/
def Writer.stream (b : Writer) : List Bool :=
  (List.range b.olen.toNat).flatMap (fun j => codeBits (b.obuf.read j).toNat 8) ++ (codeBits b.acc.toNat 8).take b.nb.val

/-- The bits of the input stream `IBUF[0 .. ILEN-1]`. -/
def Reader.stream (r : Reader) : List Bool := (List.range (8 * r.ilen.toNat)).map r.bit

/-! ### The sequences of the predictor (43_predictor.md R130) -/

/-- `s[k]`: the input sample at `path(k)` of the ENC context. -/
def inputSample (s : State) (k : Nat) : Sample := s.fin.read (pathKey s.params.scan s.enc.spec.cols.toNat k)

/-- `h[k]`: the prediction reference of a context. -/
def reference (hist : Bool) (history : Mem 16) (k : Nat) : Sample := if hist then history.read k else Config.baseline

/-- `t[k] = s[k] - h[k]`. -/
def temporalDelta (s : State) (k : Nat) : Int :=
  ((inputSample s k).toNat : Int) - ((reference s.enc.hist s.enc.history k).toNat : Int)

/-- `r[k] = t[k] - t[k-1]`, with `t[-1] = 0`. -/
def residual (s : State) : Nat → Int
  | 0 => temporalDelta s 0
  | k + 1 => temporalDelta s (k + 1) - temporalDelta s k

/-- The residuals of the input frame, in path order. -/
def frameResidualList (s : State) : List Int := (List.range s.enc.spec.count).map (residual s)

/-- A number in the two's-complement range of width `w` (40_twos_complement.md R90). -/
abbrev inWidth (w : Nat) (r : Int) : Prop := -(2 : Int) ^ (w - 1) ≤ r ∧ r < (2 : Int) ^ (w - 1)

/-- The least width that holds every number of a list, as a property (42_width_selector.md R120, R122). -/
abbrev leastWidth (m : Nat) (rs : List Int) : Prop :=
  1 ≤ m ∧ (∀ r ∈ rs, inWidth m r) ∧ (1 < m → ∃ r ∈ rs, ¬ inWidth (m - 1) r)

/-- `r[0] + ... + r[k]` over the residual memory `RESD`. -/
def prefixSum (m : Mem 32) (k : Nat) : Int := ((List.range (k + 1)).map (fun j => (m.read j).toInt)).sum

/-- The sample the inverse reconstructs at `k`: `(h + r[0] + ... + r[k]) mod 2^16` on unbounded integers (43_predictor.md R137). -/
def outputSample (d : Dec) (res : Mem 32) (k : Nat) : Sample :=
  BitVec.ofInt 16 (((reference d.hist d.history k).toNat : Int) + prefixSum res k)

/-! ### Errors in their checking order (60_exceptions.md R178) -/

/-- The first error whose condition holds, or OK. -/
def firstError : List (Bool × Err) → Err
  | [] => .ok
  | (c, e) :: rest => if c then e else firstError rest

/-- Some number of the list does not fit in 16 bits. -/
def tooWide (rs : List Int) : Bool := rs.any (fun r => decide (¬ inWidth 16 r))

/-- The errors of a command with their conditions, in checking order. -/
def errorChecks (s : State) : Instr → List (Bool × Err)
  | .cinit => [(decide (s.spec.bad s.params), .badOperand)]
  | .dinit => [(decide (s.spec.bad s.params), .badOperand)]
  | .tcenc w => [(decide (badWidth w), .badOperand)]
  | .tcdec w => [(decide (badWidth w), .badOperand)]
  | .bwrst => []
  | .bwput w => [(decide (badWidth w), .badOperand)]
  | .bwfin => []
  | .brrst => []
  | .brget w => [(decide (badWidth w), .badOperand), (decide (s.dec.br.short w), .streamUnderrun)]
  | .pfwd => [(!s.enc.valid, .illegalCommand), (decide (s.finDims ≠ s.enc.spec.dims), .dimensionMismatch)]
  | .pinv => [(!s.dec.valid, .illegalCommand), (decide (s.foutDims ≠ s.dec.spec.dims), .dimensionMismatch)]
  | .selw =>
    [(!s.enc.valid, .illegalCommand), (tooWide (residuals s.enc.res s.enc.spec.count), .bitWidthOverflow)]
  | .cnext =>
    [(!s.enc.valid, .illegalCommand), (decide (s.finDims ≠ s.enc.spec.dims), .dimensionMismatch),
      (tooWide (widthResiduals s.params.framing (frameResidualList s)), .bitWidthOverflow)]
  | .dnext w =>
    [(!s.dec.valid, .illegalCommand), (decide (s.foutDims ≠ s.dec.spec.dims), .dimensionMismatch),
      (decide (badWidth w), .badOperand),
      (decide (8 * s.dec.br.ilen.toNat < (frameWidths s.params.framing w s.dec.spec.count).sum), .streamUnderrun)]

/-! ### Outcomes and runs -/

/-- An outcome with its next state, if it has one, changed by `f`. -/
def mapNext (f : State → State) : Result → Result
  | .next s => .next (f s)
  | .fault r => .fault r
  | .refused r => .refused r

/-- One frame through the engine: the host places the frame, CNEXT succeeds, COPYOUT, `DNEXT WIDTH` (45_decompressor.md R166). -/
def relayed (frame : Mem 16) (s t : State) : Prop :=
  ∃ s1 s2, exec .cnext (s.setFin frame) = .next s1 ∧ s1.err = .ok ∧ copyOut s1 = .next s2
    ∧ exec (.dnext s1.enc.width.toNat) s2 = .next t

/-- Frames through the engine, one after another. -/
def relayedAll : List (Mem 16) → State → State → Prop
  | [], s, t => s = t
  | f :: fs, s, t => ∃ s1, relayed f s s1 ∧ relayedAll fs s1 t

/-! ### When a command runs -/

/-- A context is constructed, its frame declares its dimensions, and its memories hold its samples. -/
abbrev ready (p : Params) (spec : CameraSpec) (valid : Bool) (dims : Dims) : Prop :=
  valid = true ∧ dims = spec.dims ∧ spec.count ≤ p.maxN

/-- PFWD and CNEXT pass their checks. -/
abbrev encReady (s : State) : Prop := ready s.params s.enc.spec s.enc.valid s.finDims

/-- PINV and DNEXT pass their context and dimension checks. -/
abbrev decReady (s : State) : Prop := ready s.params s.dec.spec s.dec.valid s.foutDims

/-- A legal BitWidth. -/
abbrev goodWidth (w : Nat) : Prop := 1 ≤ w ∧ w ≤ 16

/-- An ENC and a DEC context with equal `COLS` and `ROWS` and equal predictor state (43_predictor.md R139, 45_decompressor.md R166). -/
abbrev paired (s : State) : Prop :=
  s.enc.valid = true ∧ s.dec.valid = true ∧ s.enc.spec.dims = s.dec.spec.dims ∧ s.enc.hist = s.dec.hist
    ∧ (s.enc.hist = true → ∀ k, k < s.enc.spec.count → s.enc.history.read k = s.dec.history.read k)

end Sys2Proof.Machine
end

