-- ==== Sys2Proof/Certificates/Slice0/Obligations.lean ====
section
/-! DEFINITION. The statements for the provers, from the numbered rules of spec/. -/

open Sys2Proof Sys2Proof.Machine

/-! ### Encoding -/

/-- 30_encoding.md R70 to R73: the decoder answers a command exactly for the word that encodes it. -/
def Obligations.DecodeAnswersExactlyTheEncodedCommand : Prop :=
  ∀ (word : BitVec 16) (i : Instr), decode word = .ok i ↔ i.wf ∧ encode i = word

/-- 30_encoding.md R73: a format N row matches one word, a format W row matches under the mask `0xFF00` with `w` the low byte, every
other word is illegal; a width outside 1 to 16 decodes and its command raises BadOperand. -/
def Obligations.DecodeFollowsTheOpcodeTable : Prop :=
  (∀ word : BitVec 16,
    (decode word = .ok .cinit ↔ word = 0x0100) ∧ (decode word = .ok .dinit ↔ word = 0x0200)
      ∧ (decode word = .ok .bwrst ↔ word = 0x2000) ∧ (decode word = .ok .bwfin ↔ word = 0x2200)
      ∧ (decode word = .ok .brrst ↔ word = 0x2800) ∧ (decode word = .ok .pfwd ↔ word = 0x3000)
      ∧ (decode word = .ok .pinv ↔ word = 0x3100) ∧ (decode word = .ok .selw ↔ word = 0x3800)
      ∧ (decode word = .ok .cnext ↔ word = 0x4000))
  ∧ (∀ (word : BitVec 16) (w : Nat),
    (decode word = .ok (.tcenc w) ↔ word &&& 0xFF00 = 0x1000 ∧ w = (word &&& 0x00FF).toNat)
      ∧ (decode word = .ok (.tcdec w) ↔ word &&& 0xFF00 = 0x1100 ∧ w = (word &&& 0x00FF).toNat)
      ∧ (decode word = .ok (.bwput w) ↔ word &&& 0xFF00 = 0x2100 ∧ w = (word &&& 0x00FF).toNat)
      ∧ (decode word = .ok (.brget w) ↔ word &&& 0xFF00 = 0x2900 ∧ w = (word &&& 0x00FF).toNat)
      ∧ (decode word = .ok (.dnext w) ↔ word &&& 0xFF00 = 0x4100 ∧ w = (word &&& 0x00FF).toNat))
  ∧ (∀ (s : State) (w : Nat) (i : Instr), decode s.cmd = .ok i → (w = 0 ∨ 16 < w) →
    (i = .tcenc w ∨ i = .tcdec w ∨ i = .bwput w ∨ i = .brget w
      ∨ (i = .dnext w ∧ s.dec.valid = true ∧ s.foutDims = s.dec.spec.dims)) →
    runCommand s = .next { s with err := .badOperand })

/-- 95_test_vectors.md section 2.8: words written out from the encodings of 30_encoding.md R72. -/
def Obligations.SampleWordsDecodeToTheirCommands : Prop :=
  decode 0b0000000100000000#16 = .ok .cinit ∧ decode 0b0001000000000100#16 = .ok (.tcenc 4)
    ∧ decode 0b0010000100000101#16 = .ok (.bwput 5) ∧ decode 0b0011100000000000#16 = .ok .selw
    ∧ decode 0b0100000100001110#16 = .ok (.dnext 14) ∧ decode 0b0000000000000000#16 = .error .opcode
    ∧ decode 0b0010001011111111#16 = .error .operand

/-- 30_encoding.md R74. -/
def Obligations.IllegalWordsAndUnconstructedContextsRaise : Prop :=
  (∀ s : State,
    (opField s.cmd ∉ [0x01, 0x02, 0x10, 0x11, 0x20, 0x21, 0x22, 0x28, 0x29, 0x30, 0x31, 0x38, 0x40, 0x41]
      ∨ (opField s.cmd ∈ [0x01, 0x02, 0x20, 0x22, 0x28, 0x30, 0x31, 0x38, 0x40] ∧ wField s.cmd ≠ 0)) →
    runCommand s = .next { s with err := .illegalCommand })
  ∧ (∀ (s : State) (i : Instr), (i = .pfwd ∨ i = .selw ∨ i = .cnext) → i.wf → encode i = s.cmd → s.enc.valid = false →
    runCommand s = .next { s with err := .illegalCommand })
  ∧ (∀ (s : State) (i : Instr) (w : Nat), (i = .pinv ∨ i = .dnext w) → i.wf → encode i = s.cmd → s.dec.valid = false →
    runCommand s = .next { s with err := .illegalCommand })

/-! ### The machine -/

/-- 00_scope.md R12, 10_state.md R20, R40, 30_encoding.md R70, R74, R77: a step is the host's next move, whichever it is, on the state
with that move taken off; a write to `CMD` runs the decoded command on the state with the word in `CMD`, an illegal word raises
IllegalCommand; with no move pending the state stays. The list of moves is the model's form of the host (log 9). -/
def Obligations.StepRunsTheDeliveredCommand : Prop :=
  (∀ (s : State) (m : HostMove) (rest : List HostMove), s.host = m :: rest →
    step s = hostMove m { s with host := rest })
  ∧ (∀ (s : State) (n : Nat) (v : Word), hostMove (.writeReg n v) s = hostWrite n v s)
  ∧ (∀ (s : State) (src dst : Nat), hostMove (.copyReg src dst) s = hostWrite dst (hostRead s src) s)
  ∧ (∀ s : State, hostMove .copyOut s = copyOut s ∧ hostMove .reset s = .next (hardReset s))
  ∧ (∀ (s : State) (v : Word) (rest : List HostMove) (i : Instr),
    s.host = .writeReg 0x00 v :: rest → decode (commandWord v) = .ok i →
    step s = exec i { s with host := rest, cmd := commandWord v })
  ∧ (∀ (s : State) (v : Word) (rest : List HostMove) (r : Reject),
    s.host = .writeReg 0x00 v :: rest → decode (commandWord v) = .error r →
    step s = .next { s with host := rest, cmd := commandWord v, err := .illegalCommand })
  ∧ (∀ (s : State) (w : Nat) (i : Instr), w < 2 ^ 16 → decode (BitVec.ofNat 16 w) = .ok i →
    step (s.withFetchWord 16 w) = exec i { s with cmd := BitVec.ofNat 16 w })
  ∧ (∀ s : State, s.host = [] → step s = .next s)

/-- 10_state.md R24, R40: what a host write does to what the host reads. `CMD` reads 0, reserved numbers read 0 and ignore
writes, read-only registers ignore writes, a writable register takes the low bits of its width. -/
def Obligations.HostRegisterAccess : Prop :=
  (∀ s : State, hostRead s 0x00 = 0)
  ∧ (∀ (s : State) (n : Nat), n ∈ [0x07, 0x0B, 0x13] ∨ 0x16 < n → hostRead s n = 0)
  ∧ (∀ (s : State) (n : Nat) (v : Word),
    n ∈ [0x01, 0x03, 0x04, 0x05, 0x07, 0x0B, 0x10, 0x11, 0x12, 0x13, 0x14, 0x15, 0x16] ∨ 0x16 < n →
    hostWrite n v s = .next s)
  ∧ (∀ (s : State) (n : Nat) (v : Word),
    n ∈ [0x02, 0x06, 0x08, 0x09, 0x0A, 0x0C, 0x0D, 0x0E, 0x0F] → (n = 0x06 → v.toNat ≤ s.params.ibufCap) →
    ∃ t, hostWrite n v s = .next t
      ∧ hostRead t n = (if n = 0x02 ∨ n = 0x06 then v else (v.setWidth 16).setWidth 32)
      ∧ (∀ j, j ≠ n → hostRead t j = hostRead s j)
      ∧ t.enc = s.enc ∧ t.dec.history = s.dec.history ∧ t.dec.res = s.dec.res ∧ t.dec.br.pos = s.dec.br.pos
      ∧ t.dec.br.ibuf = s.dec.br.ibuf ∧ t.fin = s.fin ∧ t.fout = s.fout)

/-- 30_encoding.md R77, 20_memory.md R56: COPYOUT copies the valid bytes of `OBUF` to `IBUF`, sets `ILEN`, and changes nothing else;
93_implementation_defined.md U9: it is refused when they do not fit. -/
def Obligations.CopyoutCopiesTheOutputStream : Prop :=
  ∀ s : State,
    (s.enc.bw.olen.toNat ≤ s.params.ibufCap →
      ∃ m : Mem 8, copyOut s = .next { s with dec := { s.dec with br := { s.dec.br with ilen := s.enc.bw.olen, ibuf := m } } }
        ∧ (∀ j, j < s.enc.bw.olen.toNat → m.read j = s.enc.bw.obuf.read j)
        ∧ (∀ j, s.enc.bw.olen.toNat ≤ j → m.read j = s.dec.br.ibuf.read j))
    ∧ (s.params.ibufCap < s.enc.bw.olen.toNat → copyOut s = .refused .ilenCapacity)

/-- 20_memory.md R50, R51, R53, R56, R60, 10_state.md R40: a host write of one element changes that element and nothing else. A write
of `FOUT` by its owner is read from 43_predictor.md R138 (log 17); an element outside its memory is no place to write, the model's
choice (log 13). -/
def Obligations.HostElementWrites : Prop :=
  (∀ (s : State) (r c : Nat) (v : Sample), framePlace r c →
    (∃ m : Mem 16, hostMove (.writeFin r c v) s = .next { s with fin := m } ∧ m.read (frameKey (r, c)) = v
      ∧ ∀ r' c', framePlace r' c' → (r', c') ≠ (r, c) → m.read (frameKey (r', c')) = s.fin.read (frameKey (r', c')))
    ∧ (∃ m : Mem 16, hostMove (.writeFout r c v) s = .next { s with fout := m }
      ∧ hostFout { s with fout := m } r c = v
      ∧ ∀ r' c', framePlace r' c' → (r', c') ≠ (r, c) → hostFout { s with fout := m } r' c' = hostFout s r' c'))
  ∧ (∀ (s : State) (j : Nat) (v : Byte), j < s.params.ibufCap →
    ∃ m : Mem 8, hostMove (.writeIbuf j v) s = .next { s with dec := { s.dec with br := { s.dec.br with ibuf := m } } }
      ∧ m.read j = v ∧ ∀ i, i ≠ j → m.read i = s.dec.br.ibuf.read i)
  ∧ (∀ (s : State) (k : Nat) (v : Word), k < s.params.maxN →
    (∃ m : Mem 32, hostMove (.writeRese k v) s = .next { s with enc := { s.enc with res := m } }
      ∧ hostRese { s with enc := { s.enc with res := m } } k = v ∧ ∀ i, i ≠ k → m.read i = s.enc.res.read i)
    ∧ (∃ m : Mem 32, hostMove (.writeResd k v) s = .next { s with dec := { s.dec with res := m } }
      ∧ hostResd { s with dec := { s.dec with res := m } } k = v ∧ ∀ i, i ≠ k → m.read i = s.dec.res.read i))
  ∧ (∀ (s : State) (r c : Nat) (v : Sample), 65535 ≤ r ∨ 65535 ≤ c →
    hostMove (.writeFin r c v) s = .fault .noSuchAddress ∧ hostMove (.writeFout r c v) s = .fault .noSuchAddress)
  ∧ (∀ (s : State) (j : Nat) (v : Byte), s.params.ibufCap ≤ j → hostMove (.writeIbuf j v) s = .fault .noSuchAddress)
  ∧ (∀ (s : State) (k : Nat) (v : Word), s.params.maxN ≤ k →
    hostMove (.writeRese k v) s = .fault .noSuchAddress ∧ hostMove (.writeResd k v) s = .fault .noSuchAddress)

/-- 10_state.md R25, 60_exceptions.md R170: the fields of `STATUS`, the code of each error kind; bits 31:8 read 0. -/
def Obligations.StatusShowsItsFields : Prop :=
  (Err.code .ok = 0 ∧ Err.code .dimensionMismatch = 1 ∧ Err.code .bitWidthOverflow = 2 ∧ Err.code .streamUnderrun = 3
    ∧ Err.code .badOperand = 4 ∧ Err.code .illegalCommand = 5)
  ∧ ∀ s : State,
    (hostRead s 0x01).extractLsb' 0 4 = s.err.code ∧ (hostRead s 0x01).getLsbD 4 = s.enc.valid
      ∧ (hostRead s 0x01).getLsbD 5 = s.enc.hist ∧ (hostRead s 0x01).getLsbD 6 = s.dec.valid
      ∧ (hostRead s 0x01).getLsbD 7 = s.dec.hist ∧ (∀ i, 8 ≤ i → (hostRead s 0x01).getLsbD i = false)
      ∧ s.err.code.toNat ≤ 5

/-- 10_state.md R38, 70_reset_and_hazards.md R200: every register reads 0, the writer is empty, the cursor 0. That a memory
lists nothing is the model's form of "unspecified" (log 6); that the frame stores stay is R38's last row. -/
def Obligations.ResetGivesTheResetValues : Prop :=
  (∀ n, hostRead State.reset n = 0)
  ∧ State.reset.enc.bw.acc = 0 ∧ State.reset.enc.bw.nb = 0 ∧ State.reset.dec.br.pos = 0 ∧ State.reset.cmd = 0
  ∧ (∀ (s : State) (n : Nat), hostRead (hardReset s) n = 0)
  ∧ (∀ s : State, (hardReset s).enc.bw.acc = 0 ∧ (hardReset s).enc.bw.nb = 0 ∧ (hardReset s).dec.br.pos = 0
    ∧ (hardReset s).cmd = 0 ∧ (hardReset s).fin = s.fin ∧ (hardReset s).fout = s.fout
    ∧ (hardReset s).enc.history.cells = [] ∧ (hardReset s).enc.res.cells = [] ∧ (hardReset s).enc.bw.obuf.cells = []
    ∧ (hardReset s).dec.history.cells = [] ∧ (hardReset s).dec.res.cells = [] ∧ (hardReset s).dec.br.ibuf.cells = [])

/-- The invariant holds right after reset. -/
def Obligations.ResetMeetsTheInvariant : Prop := Inv State.reset

/-- Every step keeps the invariant: legal CameraSpecs, written history under HasHistory, valid bytes below `OLEN`, zero bits
below the pending ones, lengths within capacities, `WIDTH` at most 16, memories in canonical form. -/
def Obligations.StepKeepsTheInvariant : Prop := ∀ s t : State, Inv s → step s = .next t → Inv t

/-- 10_state.md R37: the parameters are fixed for the life of the hardware. -/
def Obligations.NoStepChangesTheParameters : Prop := ∀ s t : State, step s = .next t → t.params = s.params

/-- 60_exceptions.md R178, R179: a command ends with the first error of its checking order whose condition holds, or with OK; an
illegal word raises IllegalCommand. The one premise beside the invariant is that a BWPUT of a legal width fits in `OBUF` (R104; a BWFIN's
padding counted, log 12). The
conditions of CNEXT and DNEXT under SEEDED32 rest on 30_encoding.md R88 and on the model's inference from it (log 4), that of SELW on
the model's choice (log 24). -/
def Obligations.FirstErrorInCheckingOrderIsReported : Prop :=
  (∀ (s : State) (i : Instr), Inv s →
    (∀ w, i = .bwput w → goodWidth w → s.enc.bw.bytesWith w ≤ s.params.obufCap) →
    ∃ t, exec i s = .next t ∧ t.err = firstError (errorChecks s i))
  ∧ (∀ (s : State) (r : Reject), decode s.cmd = .error r → runCommand s = .next { s with err := .illegalCommand })

/-- 60_exceptions.md R176. -/
def Obligations.UnconstructedContextIsIllegal : Prop :=
  (∀ (s : State) (i : Instr), (i = .pfwd ∨ i = .selw ∨ i = .cnext) → s.enc.valid = false →
    exec i s = .next { s with err := .illegalCommand })
  ∧ (∀ (s : State) (i : Instr) (w : Nat), (i = .pinv ∨ i = .dnext w) → s.dec.valid = false →
    exec i s = .next { s with err := .illegalCommand })
  ∧ (∀ (s t : State) (i : Instr) (w : Nat),
    (i = .tcenc w ∨ i = .tcdec w ∨ i = .bwrst ∨ i = .bwput w ∨ i = .bwfin ∨ i = .brrst ∨ i = .brget w) →
    exec i s = .next t → t.err ≠ .illegalCommand)

/-- 60_exceptions.md R171. -/
def Obligations.DimensionMismatchChangesNothingElse : Prop :=
  (∀ (s : State) (i : Instr), (i = .pfwd ∨ i = .cnext) → s.enc.valid = true →
    (s.finDims.cols ≠ s.enc.spec.cols ∨ s.finDims.rows ≠ s.enc.spec.rows) →
    exec i s = .next { s with err := .dimensionMismatch })
  ∧ (∀ (s : State) (i : Instr) (w : Nat), (i = .pinv ∨ i = .dnext w) → s.dec.valid = true →
    (s.foutDims.cols ≠ s.dec.spec.cols ∨ s.foutDims.rows ≠ s.dec.spec.rows) →
    exec i s = .next { s with err := .dimensionMismatch })

/-- 60_exceptions.md R174, with R94 and R109 for the width operands. -/
def Obligations.BadOperandChangesNothingElse : Prop :=
  (∀ (s : State) (i : Instr) (w : Nat), (i = .tcenc w ∨ i = .tcdec w ∨ i = .bwput w ∨ i = .brget w) → (w = 0 ∨ 16 < w) →
    exec i s = .next { s with err := .badOperand })
  ∧ (∀ (s : State) (w : Nat), s.dec.valid = true → s.foutDims = s.dec.spec.dims → (w = 0 ∨ 16 < w) →
    exec (.dnext w) s = .next { s with err := .badOperand })
  ∧ (∀ (s : State) (i : Instr), (i = .cinit ∨ i = .dinit) →
    (s.spec.cols = 0 ∨ s.spec.rows = 0 ∨ s.params.maxN < s.spec.cols.toNat * s.spec.rows.toNat) →
    exec i s = .next { s with err := .badOperand })

/-- 10_state.md R21, 60_exceptions.md R185: an ENC command neither reads nor writes DEC state or the output frame, a DEC command
neither ENC state nor the input frame, a TwosComplement command none of them. -/
def Obligations.ContextsDoNotInterfere : Prop :=
  (∀ (s : State) (d : Dec) (f : Mem 16) (i : Instr) (w : Nat),
    (i = .cinit ∨ i = .bwrst ∨ i = .bwput w ∨ i = .bwfin ∨ i = .pfwd ∨ i = .selw ∨ i = .cnext
      ∨ i = .tcenc w ∨ i = .tcdec w) →
    exec i { s with dec := d, fout := f } = mapNext (fun t => { t with dec := d, fout := f }) (exec i s))
  ∧ (∀ (s : State) (e : Enc) (f : Mem 16) (i : Instr) (w : Nat),
    (i = .dinit ∨ i = .brrst ∨ i = .brget w ∨ i = .pinv ∨ i = .dnext w ∨ i = .tcenc w ∨ i = .tcdec w) →
    exec i { s with enc := e, fin := f } = mapNext (fun t => { t with enc := e, fin := f }) (exec i s))

/-- 10_state.md R22, R24, R26, R27, R29, R40: what no command writes, and which commands write `RSLT`, `WIDTH`, `FOUT`, the latched
CameraSpecs and the residual memories. -/
def Obligations.CommandsWriteOnlyTheirRegisters : Prop :=
  ∀ (s t : State) (i : Instr), exec i s = .next t →
    t.params = s.params ∧ t.host = s.host ∧ t.cmd = s.cmd ∧ t.opa = s.opa ∧ t.spec = s.spec ∧ t.finDims = s.finDims
      ∧ t.foutDims = s.foutDims ∧ t.fin = s.fin ∧ t.dec.br.ilen = s.dec.br.ilen ∧ t.dec.br.ibuf = s.dec.br.ibuf
      ∧ (t.rslt ≠ s.rslt → ∃ w, i = .tcenc w ∨ i = .tcdec w ∨ i = .brget w)
      ∧ (t.enc.width ≠ s.enc.width → i = .selw ∨ i = .cnext ∨ i = .cinit)
      ∧ (t.enc.bw.olen ≠ s.enc.bw.olen → ∃ w, i = .bwrst ∨ i = .bwput w ∨ i = .bwfin ∨ i = .cnext ∨ i = .cinit)
      ∧ (t.enc.spec ≠ s.enc.spec → i = .cinit) ∧ (t.dec.spec ≠ s.dec.spec → i = .dinit)
      ∧ (t.enc.res ≠ s.enc.res → i = .pfwd ∨ i = .cnext ∨ i = .cinit)
      ∧ (t.dec.res ≠ s.dec.res → ∃ w, i = .dnext w ∨ i = .dinit)
      ∧ (t.fout ≠ s.fout → ∃ w, i = .pinv ∨ i = .dnext w)

/-- 10_state.md R31, 70_reset_and_hazards.md R201: among the commands, only construction leaves HasHistory, and only the predictor
passes enter it. -/
def Obligations.PredictorStateTransitions : Prop :=
  ∀ (s t : State) (i : Instr), exec i s = .next t →
    (s.enc.hist = true → t.enc.hist = false → i = .cinit)
      ∧ (s.dec.hist = true → t.dec.hist = false → i = .dinit)
      ∧ (s.enc.hist = false → t.enc.hist = true → i = .pfwd ∨ i = .cnext)
      ∧ (s.dec.hist = false → t.dec.hist = true → ∃ w, i = .pinv ∨ i = .dnext w)

/-! ### TwosComplement -/

/-- 40_twos_complement.md R91, R93: TCENC gives the low `w` bits of `OPA`, zeros above, and changes nothing else, whatever the
contexts are; a bad width raises BadOperand. -/
def Obligations.TcencGivesTheLowBitsOfTheOperand : Prop :=
  ∀ (s : State) (w : Nat),
    (w < 256 → encode (.tcenc w) = 0x1000 + BitVec.ofNat 16 w)
      ∧ (goodWidth w →
        exec (.tcenc w) s = .next { s with rslt := (s.opa.setWidth w).setWidth 32, err := .ok }
          ∧ tcEncode s.opa.toInt w = (s.opa.setWidth w).toNat)
      ∧ (w = 0 ∨ 16 < w → exec (.tcenc w) s = .next { s with err := .badOperand })

/-- 40_twos_complement.md R92: TCDEC sign-extends the low `w` bits of `OPA`, and changes nothing else; a bad width raises
BadOperand. -/
def Obligations.TcdecSignExtendsTheLowBits : Prop :=
  ∀ (s : State) (w : Nat),
    (w < 256 → encode (.tcdec w) = 0x1100 + BitVec.ofNat 16 w)
      ∧ (goodWidth w →
        exec (.tcdec w) s = .next { s with rslt := (s.opa.setWidth w).signExtend 32, err := .ok }
          ∧ ((s.opa.setWidth w).signExtend 32).toInt = tcDecode (s.opa.setWidth w).toNat w)
      ∧ (w = 0 ∨ 16 < w → exec (.tcdec w) s = .next { s with err := .badOperand })

/-- 40_twos_complement.md R90. -/
def Obligations.TwosComplementIsABijection : Prop :=
  ∀ w : Nat, goodWidth w →
    (∀ v : Int, tcEncode v w < 2 ^ w ∧ (tcEncode v w : Int) = v % 2 ^ w
      ∧ (tcEncode v w : Int) = (if v < 0 then v + 2 ^ w else v) % 2 ^ w)
    ∧ (∀ c : Nat, c < 2 ^ w → tcDecode c w = (if c.testBit (w - 1) then (c : Int) - 2 ^ w else (c : Int)) ∧ inWidth w (tcDecode c w))
    ∧ (∀ v : Int, inWidth w v → tcDecode (tcEncode v w) w = v)
    ∧ (∀ c : Nat, c < 2 ^ w → tcEncode (tcDecode c w) w = c)

/-! ### BitWriter and BitReader -/

/-- 41_bitstream.md R101: the writer is empty, `OBUF` is then any memory, nothing else changes; `free` is the model's counter. -/
def Obligations.BwrstEmptiesTheWriter : Prop :=
  encode .bwrst = 0x2000
  ∧ ∀ s : State, ∃ (m : Mem 8) (g : Nat),
    exec .bwrst s =
      .next { s with enc := { s.enc with bw := { acc := 0, nb := 0, olen := 0, obuf := m } }, free := g, err := .ok }

/-- 41_bitstream.md R102: BWPUT appends the low `w` bits of `OPA`, most significant first; `BW_NB`, `OLEN` and the bytes already
out are as the rule says, and nothing outside the writer changes; a bad width raises BadOperand. The premise that the bits fit counts
the padding of a BWFIN as written (log 12). -/
def Obligations.BwputAppendsTheCodeBits : Prop :=
  ∀ (s : State) (w : Nat),
    (w < 256 → encode (.bwput w) = 0x2100 + BitVec.ofNat 16 w)
      ∧ (w = 0 ∨ 16 < w → exec (.bwput w) s = .next { s with err := .badOperand })
      ∧ (goodWidth w → s.params.legal → s.enc.bw.bytesWith w ≤ s.params.obufCap →
        ∃ b : Writer, exec (.bwput w) s = .next { s with enc := { s.enc with bw := b }, err := .ok }
          ∧ b.stream = s.enc.bw.stream ++ codeBits s.opa.toNat w
          ∧ b.nb.val = (s.enc.bw.nb.val + w) % 8
          ∧ b.olen.toNat = s.enc.bw.olen.toNat + (s.enc.bw.nb.val + w) / 8
          ∧ (s.enc.bw.nb.val + w) / 8 ≤ 2
          ∧ (∀ j, j < s.enc.bw.olen.toNat ∨ s.enc.bw.olen.toNat + (s.enc.bw.nb.val + w) / 8 ≤ j →
            b.obuf.read j = s.enc.bw.obuf.read j))

/-- 41_bitstream.md R103: BWFIN flushes the partial byte with zero fill in its low bits, and nothing outside the writer changes. -/
def Obligations.BwfinFlushesThePartialByte : Prop :=
  encode .bwfin = 0x2200
  ∧ ∀ s : State, s.params.legal → s.enc.bw.inv s.params →
    ∃ b : Writer, exec .bwfin s = .next { s with enc := { s.enc with bw := b }, err := .ok }
      ∧ b.acc = 0 ∧ b.nb = 0
      ∧ b.olen.toNat = s.enc.bw.olen.toNat + (if s.enc.bw.nb.val = 0 then 0 else 1)
      ∧ b.stream = s.enc.bw.stream ++ List.replicate ((8 - s.enc.bw.nb.val) % 8) false
      ∧ (∀ j, j < s.enc.bw.olen.toNat ∨ b.olen.toNat ≤ j → b.obuf.read j = s.enc.bw.obuf.read j)

/-- 41_bitstream.md R104, U9: bits beyond `8 * OBUF_CAP` are refused, and only those. Without a BWFIN since the reset, `8 * OLEN + BW_NB` is
the number of bits written, as R104 counts; that the padding bits of a BWFIN count as written too is the model's reading (log 12). -/
def Obligations.BitsBeyondTheOutputBufferAreRefused : Prop :=
  ∀ (s : State) (w : Nat), goodWidth w →
    (exec (.bwput w) s = .refused .obufCapacity ↔ 8 * s.params.obufCap < 8 * s.enc.bw.olen.toNat + s.enc.bw.nb.val + w)

/-- 41_bitstream.md R105: the closed form of the writer, before and after `finish`. -/
def Obligations.WriterClosedForm : Prop :=
  ∀ (items : List (Nat × Nat)) (gen : Nat), (∀ cw ∈ items, goodWidth cw.2) → (itemBits items + 7) / 8 < 2 ^ 32 →
    let b := Writer.putAll items (.empty gen)
    let f := b.finish
    b.olen.toNat = itemBits items / 8 ∧ b.nb.val = itemBits items % 8 ∧ b.stream = itemsBits items
      ∧ b.acc.toNat % 2 ^ (8 - b.nb.val) = 0
      ∧ f.olen.toNat = (itemBits items + 7) / 8 ∧ f.nb = 0 ∧ f.acc = 0
      ∧ f.stream = itemsBits items ++ List.replicate ((8 - itemBits items % 8) % 8) false

/-- 41_bitstream.md R106: BRRST rewinds the cursor and changes nothing else. -/
def Obligations.BrrstRewindsTheCursor : Prop :=
  encode .brrst = 0x2800
  ∧ ∀ s : State,
    exec .brrst s = .next { s with dec := { s.dec with br := { s.dec.br with pos := 0 } }, err := .ok }

/-- 41_bitstream.md R107: BRGET gives the next `w` bits of the stream, zero-extended, moves the cursor by `w`, and changes nothing
else. -/
def Obligations.BrgetGivesTheNextBits : Prop :=
  ∀ (s : State) (w : Nat), goodWidth w → s.dec.br.pos + w ≤ 8 * s.dec.br.ilen.toNat →
    s.dec.br.ilen.toNat ≤ s.params.ibufCap →
    ∃ v : Word,
      exec (.brget w) s =
        .next { s with rslt := v, dec := { s.dec with br := { s.dec.br with pos := s.dec.br.pos + w } }, err := .ok }
      ∧ v.toNat < 2 ^ w ∧ codeBits v.toNat w = (s.dec.br.stream.drop s.dec.br.pos).take w

/-- 41_bitstream.md R108: an underrun leaves the cursor; `RSLT` is then any value, `ERR` reports it, nothing else changes, and a
BRGET of a width that still fits then succeeds; `free` is the model's counter. -/
def Obligations.BrgetUnderrunKeepsTheCursor : Prop :=
  ∀ (s : State) (w : Nat), goodWidth w → 8 * s.dec.br.ilen.toNat < s.dec.br.pos + w →
    ∃ (v : Word) (g : Nat), exec (.brget w) s = .next { s with rslt := v, err := .streamUnderrun, free := g }
      ∧ (∀ n, goodWidth n → s.dec.br.pos + n ≤ 8 * s.dec.br.ilen.toNat → s.dec.br.ilen.toNat ≤ s.params.ibufCap →
        ∃ t, exec (.brget n) { s with rslt := v, err := .streamUnderrun, free := g } = .next t ∧ t.err = .ok
          ∧ t.dec.br.pos = s.dec.br.pos + n)

/-- 41_bitstream.md R110: what the writer packs the reader gives back, the length is exact, and the padding bits are zero. -/
def Obligations.PackedValuesReadBack : Prop :=
  ∀ (items : List (Nat × Nat)) (gen : Nat) (m : Mem 8), (∀ cw ∈ items, goodWidth cw.2) →
    (itemBits items + 7) / 8 < 2 ^ 32 →
    let f := (Writer.putAll items (.empty gen)).finish
    (∀ j, j < f.olen.toNat → m.read j = f.obuf.read j) →
    let r : Reader := { pos := 0, ilen := f.olen, ibuf := m }
    Reader.readAll (items.map Prod.snd) r
        = some (items.map (fun cw => cw.1 % 2 ^ cw.2), { r with pos := itemBits items })
      ∧ f.olen.toNat = (itemBits items + 7) / 8
      ∧ (∀ p, itemBits items ≤ p → p < 8 * f.olen.toNat → r.bit p = false)

/-! ### BitWidthSelector -/

/-- 42_width_selector.md R120: `need`, its formula, and `select_width`, without the bound of 16. -/
def Obligations.SelectWidthMeetsItsContract : Prop :=
  (∀ r : Int, 1 ≤ need r ∧ (∀ w, 1 ≤ w → (need r ≤ w ↔ inWidth w r))
    ∧ (0 ≤ r → need r = bitlen r.toNat + 1) ∧ (r < 0 → need r = bitlen (-r - 1).toNat + 1))
  ∧ (∀ n b : Nat, bitlen n ≤ b ↔ n < 2 ^ b)
  ∧ ∀ rs : List Int, leastWidth (selectWidth rs) rs ∧ selectWidth rs = (rs.map need).foldl max 1
    ∧ ∀ w, 1 ≤ w → (selectWidth rs ≤ w ↔ ∀ r ∈ rs, inWidth w r)

/-- 42_width_selector.md R121, R122: on residuals that fit in 16 bits SELW selects the least width, no residual is lossy at it, and
nothing else changes. That it takes all `N` residuals under SEEDED32 too is the model's choice (log 24). -/
def Obligations.SelwSelectsTheLeastWidth : Prop :=
  ∀ s : State, s.enc.valid = true → s.enc.spec.count ≤ s.params.maxN →
    (∀ r ∈ residuals s.enc.res s.enc.spec.count, inWidth 16 r) →
    ∃ m : Nat, goodWidth m ∧ leastWidth m (residuals s.enc.res s.enc.spec.count)
      ∧ exec .selw s = .next { s with enc := { s.enc with width := BitVec.ofNat 8 m }, err := .ok }
      ∧ (∀ r ∈ residuals s.enc.res s.enc.spec.count, tcDecode (tcEncode r m) m = r)

/-- 42_width_selector.md R121, R123: a residual that needs more than 16 bits. That SELW takes all `N` residuals under SEEDED32 too is
the model's choice (log 24). -/
def Obligations.SelwReportsBitWidthOverflow : Prop :=
  ∀ s : State, s.enc.valid = true → s.enc.spec.count ≤ s.params.maxN →
    (∃ r ∈ residuals s.enc.res s.enc.spec.count, ¬ inWidth 16 r) →
    ∃ t, exec .selw s = .next t ∧ t = { s with enc := { s.enc with width := 0 }, err := .bitWidthOverflow }
      ∧ t.err.code = 2

/-! ### Predictor -/

/-- 20_memory.md R55, for both values of `SCAN`. -/
def Obligations.PathIsABijectionOntoTheGrid : Prop :=
  ∀ (scan : Scan) (cols rows : Nat), 1 ≤ cols → 1 ≤ rows →
    path scan cols 0 = (0, 0)
      ∧ (∀ k, k < cols * rows → (path scan cols k).1 < rows ∧ (path scan cols k).2 < cols)
      ∧ (∀ j k, j < cols * rows → k < cols * rows → path scan cols j = path scan cols k → j = k)
      ∧ (∀ r c, r < rows → c < cols → ∃ k, k < cols * rows ∧ path scan cols k = (r, c))

/-- 20_memory.md R54: the two scan orders; under SERPENTINE consecutive path indices are neighbouring samples. -/
def Obligations.PathFollowsTheScanOrder : Prop :=
  (∀ cols k : Nat, path .raster cols k = (k / cols, k % cols))
  ∧ (∀ cols k : Nat, (k / cols) % 2 = 0 → path .serpentine cols k = (k / cols, k % cols))
  ∧ (∀ cols k : Nat, (k / cols) % 2 = 1 → path .serpentine cols k = (k / cols, cols - 1 - k % cols))
  ∧ (∀ cols k : Nat, 1 ≤ cols →
    ((path .serpentine cols (k + 1)).1 = (path .serpentine cols k).1
      ∧ ((path .serpentine cols (k + 1)).2 = (path .serpentine cols k).2 + 1
        ∨ (path .serpentine cols k).2 = (path .serpentine cols (k + 1)).2 + 1))
    ∨ ((path .serpentine cols (k + 1)).1 = (path .serpentine cols k).1 + 1
      ∧ (path .serpentine cols (k + 1)).2 = (path .serpentine cols k).2))

/-- 43_predictor.md R134: the ranges of temporal deltas and residuals. -/
def Obligations.ResidualRanges : Prop :=
  ∀ (s : State) (k : Nat), -65535 ≤ temporalDelta s k ∧ temporalDelta s k ≤ 65535
    ∧ -131070 ≤ residual s k ∧ residual s k ≤ 131070 ∧ residual s 0 = temporalDelta s 0
    ∧ (BitVec.ofInt 32 (residual s k)).toInt = residual s k

/-- 43_predictor.md R131, R133: PFWD writes the residuals of the frame and replaces the history, enters HasHistory, and changes nothing
else; entries at and beyond `N` stay. -/
def Obligations.PfwdWritesResidualsAndHistory : Prop :=
  ∀ s : State, encReady s →
    ∃ (r : Mem 32) (h : Mem 16),
      exec .pfwd s = .next { s with enc := { s.enc with res := r, history := h, hist := true }, err := .ok }
      ∧ (∀ k, k < s.enc.spec.count → (r.read k).toInt = residual s k ∧ h.read k = inputSample s k)
      ∧ (∀ k, s.enc.spec.count ≤ k → r.read k = s.enc.res.read k ∧ h.read k = s.enc.history.read k)

/-- 43_predictor.md R136, R137, R138: PINV writes the reconstructed samples to `FOUT` and the history, enters HasHistory, and changes
nothing else; the samples of `FOUT` outside the path and the entries at and beyond `N` stay. -/
def Obligations.PinvWritesTheReconstructedFrame : Prop :=
  ∀ s : State, decReady s →
    ∃ (h f : Mem 16),
      exec .pinv s = .next { s with dec := { s.dec with history := h, hist := true }, fout := f, err := .ok }
      ∧ (∀ k, k < s.dec.spec.count →
        h.read k = outputSample s.dec s.dec.res k
          ∧ f.read (pathKey s.params.scan s.dec.spec.cols.toNat k) = outputSample s.dec s.dec.res k)
      ∧ (∀ k, s.dec.spec.count ≤ k → h.read k = s.dec.history.read k)
      ∧ (∀ a, (∀ k, k < s.dec.spec.count → pathKey s.params.scan s.dec.spec.cols.toNat k ≠ a) →
        f.read a = s.fout.read a)

/-- 43_predictor.md R139: PFWD, the residuals carried over, PINV gives the frame back and keeps the contexts paired. -/
def Obligations.PredictorRoundTrip : Prop :=
  ∀ (s s1 : State) (m : Mem 32), paired s → encReady s → decReady s → exec .pfwd s = .next s1 →
    (∀ k, k < s.enc.spec.count → m.read k = s1.enc.res.read k) →
    ∃ s2, exec .pinv { s1 with dec := { s1.dec with res := m } } = .next s2 ∧ s2.err = .ok
      ∧ (∀ r c, r < s.enc.spec.rows.toNat → c < s.enc.spec.cols.toNat →
        s2.fout.read (frameKey (r, c)) = s.fin.read (frameKey (r, c)))
      ∧ s2.enc.hist = true ∧ s2.dec.hist = true
      ∧ (∀ k, k < s.enc.spec.count → s2.enc.history.read k = inputSample s k ∧ s2.dec.history.read k = inputSample s k)
      ∧ paired s2

/-! ### Compressor -/

/-- 10_state.md R39: construction values; an unspecified memory is then any memory; `free` is the model's counter. -/
def Obligations.ConstructionValues : Prop :=
  ∀ s : State, s.spec.cols ≠ 0 → s.spec.rows ≠ 0 → s.spec.cols.toNat * s.spec.rows.toNat ≤ s.params.maxN →
    (∃ (h : Mem 16) (r : Mem 32) (o : Mem 8) (g : Nat),
      exec .cinit s = .next { s with
        enc := { spec := s.spec, valid := true, hist := false, history := h, res := r,
                 bw := { acc := 0, nb := 0, olen := 0, obuf := o }, width := 0 },
        free := g, err := .ok })
    ∧ (∃ (h : Mem 16) (r : Mem 32) (g : Nat),
      exec .dinit s = .next { s with
        dec := { spec := s.spec, valid := true, hist := false, history := h, res := r,
                 br := { pos := 0, ilen := s.dec.br.ilen, ibuf := s.dec.br.ibuf } },
        free := g, err := .ok })

/-- 44_compressor.md R152, R153, 30_encoding.md R81 to R84: the results of CNEXT under DENSE framing when the residuals fit in 16
bits, and that nothing else changes. -/
def Obligations.CnextPacksTheFrame : Prop :=
  ∀ s : State, encReady s → s.params.legal → s.params.framing = .dense →
    (∀ r ∈ frameResidualList s, inWidth 16 r) →
    ∃ (m : Nat) (r : Mem 32) (h : Mem 16) (b : Writer) (g : Nat), goodWidth m ∧ leastWidth m (frameResidualList s)
      ∧ exec .cnext s = .next { s with
          enc := { s.enc with res := r, history := h, hist := true, bw := b, width := BitVec.ofNat 8 m },
          free := g, err := .ok }
      ∧ (∀ k, k < s.enc.spec.count → (r.read k).toInt = residual s k ∧ h.read k = inputSample s k)
      ∧ (∀ k, s.enc.spec.count ≤ k → r.read k = s.enc.res.read k ∧ h.read k = s.enc.history.read k)
      ∧ b.nb = 0 ∧ b.acc = 0 ∧ b.olen.toNat = (s.enc.spec.count * m + 7) / 8
      ∧ b.stream = itemsBits ((frameResidualList s).map (fun r => (tcEncode r m, m)))
          ++ List.replicate ((8 - s.enc.spec.count * m % 8) % 8) false

/-- 30_encoding.md R88: under SEEDED32 the first residual goes out as four bytes, least significant first, the others at the
least width that holds them; the model's inference (log 4) is that everything else is as under DENSE: `RESE`, `HISTE`, HasHistory, the
writer closed on a byte, nothing else changed. -/
def Obligations.CnextPacksTheSeededFrame : Prop :=
  ∀ s : State, encReady s → s.params.legal → s.params.framing = .seeded32 → 1 ≤ s.enc.spec.count →
    (∀ r ∈ (frameResidualList s).drop 1, inWidth 16 r) →
    ∃ (m : Nat) (r : Mem 32) (h : Mem 16) (b : Writer) (g : Nat), goodWidth m ∧ leastWidth m ((frameResidualList s).drop 1)
      ∧ exec .cnext s = .next { s with
          enc := { s.enc with res := r, history := h, hist := true, bw := b, width := BitVec.ofNat 8 m },
          free := g, err := .ok }
      ∧ (∀ k, k < s.enc.spec.count → (r.read k).toInt = residual s k ∧ h.read k = inputSample s k)
      ∧ (∀ k, s.enc.spec.count ≤ k → r.read k = s.enc.res.read k ∧ h.read k = s.enc.history.read k)
      ∧ b.nb = 0 ∧ b.acc = 0 ∧ b.olen.toNat = 4 + ((s.enc.spec.count - 1) * m + 7) / 8
      ∧ (b.obuf.read 0).toNat + 2 ^ 8 * (b.obuf.read 1).toNat + 2 ^ 16 * (b.obuf.read 2).toNat
          + 2 ^ 24 * (b.obuf.read 3).toNat = (BitVec.ofInt 32 (residual s 0)).toNat
      ∧ b.stream.drop 32 = itemsBits (((frameResidualList s).drop 1).map (fun r => (tcEncode r m, m)))
          ++ List.replicate ((8 - (s.enc.spec.count - 1) * m % 8) % 8) false

/-- 44_compressor.md R154, 90_conflicts.md C4: after BitWidthOverflow in CNEXT the residuals and the history are the frame's, entries
at and beyond `N` stay, HasHistory is entered, `WIDTH` and `OLEN` are 0, and nothing else changes. Under SEEDED32 the selected residuals
are all but the first (30_encoding.md R88), and that the rest is as under DENSE is the model's inference (log 4). -/
def Obligations.CnextOverflowAdvancesThePredictor : Prop :=
  ∀ s : State, encReady s → (∃ r ∈ widthResiduals s.params.framing (frameResidualList s), ¬ inWidth 16 r) →
    ∃ (r : Mem 32) (h : Mem 16) (o : Mem 8) (g : Nat),
      exec .cnext s = .next { s with
        enc := { s.enc with res := r, history := h, hist := true,
                            bw := { acc := 0, nb := 0, olen := 0, obuf := o }, width := 0 },
        free := g, err := .bitWidthOverflow }
      ∧ (∀ k, k < s.enc.spec.count → (r.read k).toInt = residual s k ∧ h.read k = inputSample s k)
      ∧ (∀ k, s.enc.spec.count ≤ k → r.read k = s.enc.res.read k ∧ h.read k = s.enc.history.read k)

/-- 42_width_selector.md R124: with every sample of the frame and of the history below `2^14`, CNEXT completes. Under SEEDED32 this rests
on 30_encoding.md R88 and the model's inference from it (log 4). -/
def Obligations.SmallSamplesNeverOverflow : Prop :=
  ∀ s : State, encReady s → s.params.legal →
    (∀ k, k < s.enc.spec.count → (inputSample s k).toNat < 2 ^ 14
      ∧ (s.enc.hist = true → (s.enc.history.read k).toNat < 2 ^ 14)) →
    ∃ t, exec .cnext s = .next t ∧ t.err = .ok

/-! ### Decompressor -/

/-- 45_decompressor.md R162, R163: the results of DNEXT under DENSE framing on a stream long enough, and that nothing else changes. -/
def Obligations.DnextWritesTheDecodedFrame : Prop :=
  ∀ (s : State) (w : Nat), decReady s → goodWidth w → s.params.framing = .dense →
    w * s.dec.spec.count ≤ 8 * s.dec.br.ilen.toNat → s.dec.br.ilen.toNat ≤ s.params.ibufCap →
    ∃ (r : Mem 32) (h f : Mem 16),
      exec (.dnext w) s = .next { s with
        dec := { s.dec with res := r, history := h, hist := true,
                            br := { s.dec.br with pos := w * s.dec.spec.count } },
        fout := f, err := .ok }
      ∧ (∀ k, k < s.dec.spec.count → inWidth w (r.read k).toInt
        ∧ codeBits (tcEncode (r.read k).toInt w) w = (s.dec.br.stream.drop (w * k)).take w
        ∧ h.read k = outputSample s.dec r k
        ∧ f.read (pathKey s.params.scan s.dec.spec.cols.toNat k) = outputSample s.dec r k)
      ∧ (∀ k, s.dec.spec.count ≤ k → r.read k = s.dec.res.read k ∧ h.read k = s.dec.history.read k)
      ∧ (∀ a, (∀ k, k < s.dec.spec.count → pathKey s.params.scan s.dec.spec.cols.toNat k ≠ a) →
        f.read a = s.fout.read a)

/-- 30_encoding.md R88: under SEEDED32 the first four bytes are the first residual, the codes of the others start at byte 4. That the
cursor ends at `32 + w * (N - 1)`, and that the inverse pass, the history, HasHistory and what else stays are as under DENSE, is the
model's inference (log 4). -/
def Obligations.DnextReadsTheSeededFrame : Prop :=
  ∀ (s : State) (w : Nat), decReady s → goodWidth w → s.params.framing = .seeded32 → 1 ≤ s.dec.spec.count →
    32 + w * (s.dec.spec.count - 1) ≤ 8 * s.dec.br.ilen.toNat → s.dec.br.ilen.toNat ≤ s.params.ibufCap →
    ∃ (r : Mem 32) (h f : Mem 16),
      exec (.dnext w) s = .next { s with
        dec := { s.dec with res := r, history := h, hist := true,
                            br := { s.dec.br with pos := 32 + w * (s.dec.spec.count - 1) } },
        fout := f, err := .ok }
      ∧ (r.read 0).toNat = (s.dec.br.ibuf.read 0).toNat + 2 ^ 8 * (s.dec.br.ibuf.read 1).toNat
          + 2 ^ 16 * (s.dec.br.ibuf.read 2).toNat + 2 ^ 24 * (s.dec.br.ibuf.read 3).toNat
      ∧ (∀ k, 1 ≤ k → k < s.dec.spec.count → inWidth w (r.read k).toInt
        ∧ codeBits (tcEncode (r.read k).toInt w) w = (s.dec.br.stream.drop (32 + w * (k - 1))).take w)
      ∧ (∀ k, k < s.dec.spec.count → h.read k = outputSample s.dec r k
        ∧ f.read (pathKey s.params.scan s.dec.spec.cols.toNat k) = outputSample s.dec r k)
      ∧ (∀ k, s.dec.spec.count ≤ k → r.read k = s.dec.res.read k ∧ h.read k = s.dec.history.read k)
      ∧ (∀ a, (∀ k, k < s.dec.spec.count → pathKey s.params.scan s.dec.spec.cols.toNat k ≠ a) →
        f.read a = s.fout.read a)

/-- 45_decompressor.md R164, U4: a stream too short leaves the history and the predictor state; `RESD`, `BR_POS` and `FOUT` are any
values, and nothing else but `ERR` changes. Under SEEDED32 the bits needed are those of 30_encoding.md R88, and that the underrun leaves
the same is the model's inference (log 4). -/
def Obligations.DnextUnderrunKeepsTheHistory : Prop :=
  ∀ (s : State) (w : Nat), decReady s → goodWidth w →
    8 * s.dec.br.ilen.toNat < (frameWidths s.params.framing w s.dec.spec.count).sum →
    ∃ (r : Mem 32) (p : Nat) (f : Mem 16) (g : Nat),
      exec (.dnext w) s = .next { s with
        dec := { s.dec with res := r, br := { s.dec.br with pos := p } },
        fout := f, free := g, err := .streamUnderrun }

/-- 45_decompressor.md R167, 30_encoding.md R84: DNEXT depends on the bits it consumes and on nothing else of the input stream, neither
padding bits nor surplus bytes. Under SEEDED32 this rests on R88 and the model's inference from it (log 4). -/
def Obligations.DnextIgnoresPaddingAndSurplus : Prop :=
  ∀ (s t : State) (w : Nat) (n : Word) (m : Mem 8), decReady s → goodWidth w →
    (frameWidths s.params.framing w s.dec.spec.count).sum ≤ 8 * s.dec.br.ilen.toNat →
    (frameWidths s.params.framing w s.dec.spec.count).sum ≤ 8 * n.toNat →
    s.dec.br.ilen.toNat ≤ s.params.ibufCap → n.toNat ≤ s.params.ibufCap →
    (∀ p, p < (frameWidths s.params.framing w s.dec.spec.count).sum →
      ({ s.dec.br with ibuf := m } : Reader).bit p = s.dec.br.bit p) →
    exec (.dnext w) s = .next t →
    exec (.dnext w) { s with dec := { s.dec with br := { s.dec.br with ilen := n, ibuf := m } } }
      = .next { t with dec := { t.dec with br := { t.dec.br with ilen := n, ibuf := m } } }

/-! ### The whole engine -/

/-- 45_decompressor.md R166, 43_predictor.md R139, one frame: what CNEXT packs, copied out, `DNEXT WIDTH` gives back, and the contexts
stay paired. R166 is written for DENSE; the SEEDED32 half rests on 30_encoding.md R88 and the model's inference from it (log 4). -/
def Obligations.CompressedFrameRoundTrip : Prop :=
  ∀ s s1 s2 : State, s.params.legal → paired s → ¬ s.enc.spec.bad s.params →
    s.finDims = s.enc.spec.dims → s.foutDims = s.enc.spec.dims →
    exec .cnext s = .next s1 → s1.err = .ok → copyOut s1 = .next s2 →
    ∃ s3, exec (.dnext s1.enc.width.toNat) s2 = .next s3 ∧ s3.err = .ok
      ∧ (∀ r c, r < s.enc.spec.rows.toNat → c < s.enc.spec.cols.toNat →
        s3.fout.read (frameKey (r, c)) = s.fin.read (frameKey (r, c)))
      ∧ paired s3 ∧ s3.enc.spec = s.enc.spec

/-- 45_decompressor.md R166: contexts constructed from the same CameraSpec, frames relayed in order, each CNEXT succeeding; then every
DNEXT succeeds and writes its frame sample for sample. R166 is written for DENSE; the SEEDED32 half rests on 30_encoding.md R88 and the
model's inference from it (log 4). -/
def Obligations.FrameSequenceRoundTrip : Prop :=
  ∀ (s0 s1 s2 s c d : State) (frames : List (Mem 16)) (frame : Mem 16), s0.params.legal →
    exec .cinit s0 = .next s1 → s1.err = .ok → exec .dinit s1 = .next s2 → s2.err = .ok →
    s0.finDims = s0.spec.dims → s0.foutDims = s0.spec.dims → relayedAll frames s2 s →
    exec .cnext (s.setFin frame) = .next c → c.err = .ok → copyOut c = .next d →
    ∃ t, exec (.dnext c.enc.width.toNat) d = .next t ∧ t.err = .ok
      ∧ ∀ r c, r < s0.spec.rows.toNat → c < s0.spec.cols.toNat →
        t.fout.read (frameKey (r, c)) = frame.read (frameKey (r, c))
end

