-- ==== Sys2Proof/Laws/Memory.lean ====
section
/-! SUPPORT. The laws of the memories: a read after a write, what a write leaves alone, and that every operation keeps the
canonical form and the address bounds. -/

namespace Sys2Proof.Machine

theorem lookup_cons_ite {α : Type} (l : List (Nat × α)) (k j : Nat) (v : α) :
    ((k, v) :: l).lookup j = if j = k then some v else l.lookup j := by
  rw [List.lookup_cons]
  by_cases h : j = k
  · simp [h]
  · rw [if_neg h, show (j == k) = false by simpa using h]

theorem lookup_insertCell {α : Type} (l : List (Nat × α)) (k j : Nat) (v : α) :
    (insertCell k v l).lookup j = if j = k then some v else l.lookup j := by
  induction l with
  | nil => exact lookup_cons_ite _ _ _ _
  | cons c t ih =>
    obtain ⟨i, u⟩ := c
    unfold insertCell
    split
    · exact lookup_cons_ite _ _ _ _
    · split
      · next h => subst h; simp only [lookup_cons_ite]; split <;> rfl
      · next h =>
        simp only [lookup_cons_ite, ih]
        split
        · next h' => rw [if_neg (by omega)]
        · rfl

theorem mem_insertCell {α : Type} {l : List (Nat × α)} {k : Nat} {v : α} {c : Nat × α} (h : c ∈ insertCell k v l) :
    c = (k, v) ∨ c ∈ l := by
  induction l with
  | nil => simpa [insertCell] using h
  | cons d t ih =>
    obtain ⟨i, u⟩ := d
    unfold insertCell at h
    split at h
    · simpa using h
    · split at h
      · rcases List.mem_cons.1 h with h | h
        · exact .inl h
        · exact .inr (List.mem_cons_of_mem _ h)
      · rcases List.mem_cons.1 h with h | h
        · exact .inr (h ▸ List.mem_cons_self)
        · exact (ih h).imp id (List.mem_cons_of_mem _)

theorem pairwise_insertCell {α : Type} {l : List (Nat × α)} (k : Nat) (v : α)
    (h : l.Pairwise (fun a b => a.1 < b.1)) : (insertCell k v l).Pairwise (fun a b => a.1 < b.1) := by
  induction l with
  | nil => simp [insertCell]
  | cons d t ih =>
    obtain ⟨i, u⟩ := d
    obtain ⟨hd, ht⟩ := List.pairwise_cons.1 h
    unfold insertCell
    split
    · next hk =>
      refine List.pairwise_cons.2 ⟨fun c hc => ?_, h⟩
      rcases List.mem_cons.1 hc with rfl | hc
      · exact hk
      · exact Nat.lt_trans hk (hd c hc)
    · next hk =>
      split
      · next he => subst he; exact List.pairwise_cons.2 ⟨hd, ht⟩
      · next he =>
        refine List.pairwise_cons.2 ⟨fun c hc => ?_, ih ht⟩
        rcases mem_insertCell hc with rfl | hc
        · show i < k
          omega
        · exact hd c hc

variable {w : Nat}

@[simp] theorem Mem.unspecified_cells (w g : Nat) : (Mem.unspecified w g).cells = [] := rfl

@[simp] theorem Mem.unspecified_gen (w g : Nat) : (Mem.unspecified w g).gen = g := rfl

@[simp] theorem Mem.write_gen (m : Mem w) (k : Nat) (v : BitVec w) : (m.write k v).gen = m.gen := rfl

theorem Mem.find?_write (m : Mem w) (k j : Nat) (v : BitVec w) :
    (m.write k v).find? j = if j = k then some v else m.find? j := lookup_insertCell _ _ _ _

/-- A read after a write to the same element gives the value, a write leaves every other element alone (20_memory.md R61). -/
theorem Mem.read_write (m : Mem w) (k j : Nat) (v : BitVec w) :
    (m.write k v).read j = if j = k then v else m.read j := by
  unfold Mem.read
  rw [Mem.find?_write, Mem.write_gen]
  split <;> rfl

@[simp] theorem Mem.read_write_same (m : Mem w) (k : Nat) (v : BitVec w) : (m.write k v).read k = v := by
  simp [Mem.read_write]

theorem Mem.read_write_of_ne (m : Mem w) {k j : Nat} (v : BitVec w) (h : j ≠ k) : (m.write k v).read j = m.read j := by
  simp [Mem.read_write, h]

theorem Mem.wf_unspecified (w g : Nat) : (Mem.unspecified w g).wf := List.Pairwise.nil

theorem Mem.below_unspecified (w g n : Nat) : (Mem.unspecified w g).below n := by intro c hc; cases hc

theorem Mem.wf_write {m : Mem w} (k : Nat) (v : BitVec w) (h : m.wf) : (m.write k v).wf := pairwise_insertCell k v h

theorem Mem.below_write {m : Mem w} {k n : Nat} (v : BitVec w) (h : m.below n) (hk : k < n) : (m.write k v).below n := by
  intro c hc
  rcases mem_insertCell hc with rfl | hc
  · exact hk
  · exact h c hc

theorem Mem.below_mono {m : Mem w} {n n' : Nat} (h : m.below n) (hn : n ≤ n') : m.below n' :=
  fun c hc => Nat.lt_of_lt_of_le (h c hc) hn

theorem Mem.covers_write {m : Mem w} {n : Nat} (k : Nat) (v : BitVec w) (h : m.covers n) : (m.write k v).covers n := by
  intro j hj
  rw [Mem.find?_write]
  split
  · rfl
  · exact h j hj

theorem Mem.covers_write_next {m : Mem w} {n : Nat} (v : BitVec w) (h : m.covers n) : (m.write n v).covers (n + 1) := by
  intro j hj
  rw [Mem.find?_write]
  split
  · rfl
  · exact h j (by omega)

/-- What `writeFrom` does to every element. -/
theorem Mem.read_writeFrom (vs : List (BitVec w)) (m : Mem w) (k j : Nat) :
    (m.writeFrom k vs).read j = if k ≤ j then vs.getD (j - k) (m.read j) else m.read j := by
  induction vs generalizing m k with
  | nil => simp [Mem.writeFrom]
  | cons v vs ih =>
    rw [Mem.writeFrom, ih, Mem.read_write]
    rcases Nat.lt_trichotomy j k with h | h | h
    · rw [if_neg (by omega), if_neg (by omega), if_neg (by omega)]
    · subst h; simp
    · rw [if_pos (by omega), if_neg (by omega), if_pos (by omega), show j - k = (j - (k + 1)) + 1 by omega]
      simp

@[simp] theorem Mem.writeFrom_gen (vs : List (BitVec w)) (m : Mem w) (k : Nat) : (m.writeFrom k vs).gen = m.gen := by
  induction vs generalizing m k with
  | nil => rfl
  | cons v vs ih => rw [Mem.writeFrom, ih, Mem.write_gen]

theorem Mem.wf_writeFrom (vs : List (BitVec w)) {m : Mem w} (k : Nat) (h : m.wf) : (m.writeFrom k vs).wf := by
  induction vs generalizing m k with
  | nil => exact h
  | cons v vs ih => exact ih _ (Mem.wf_write _ _ h)

theorem Mem.below_writeFrom (vs : List (BitVec w)) {m : Mem w} {k n : Nat} (h : m.below n) (hn : k + vs.length ≤ n) :
    (m.writeFrom k vs).below n := by
  induction vs generalizing m k with
  | nil => exact h
  | cons v vs ih =>
    simp only [List.length_cons] at hn
    exact ih (Mem.below_write v h (by omega)) (by omega)

/-- A write to a place a frame can have keeps a frame store's form. -/
theorem frameInv_write {m : Mem 16} {r c : Nat} (v : Sample) (h : frameInv m) (hp : framePlace r c) :
    frameInv (m.write (frameKey (r, c)) v) := by
  refine ⟨Mem.wf_write _ _ h.1, fun d hd => ?_⟩
  rcases mem_insertCell hd with rfl | hd
  · simp only [frameKey, framePlace] at *
    omega
  · exact h.2 d hd

theorem frameKey_inj {a b : Nat × Nat} (ha : a.2 < 65536) (hb : b.2 < 65536) (h : frameKey a = frameKey b) : a = b := by
  obtain ⟨r, c⟩ := a
  obtain ⟨r', c'⟩ := b
  simp only [frameKey] at *
  ext <;> simp only <;> omega

end Sys2Proof.Machine
end

