-- ==== Sys2Proof/Laws/Numbers.lean ====
section
/-! SUPPORT. The laws of the number operations: `tc_encode`, `tc_decode`, `need`, `select_width`. -/

namespace Sys2Proof.Machine

theorem tcEncode_cast (v : Int) (w : Nat) : ((tcEncode v w : Nat) : Int) = v % 2 ^ w :=
  Int.toNat_of_nonneg (Int.emod_nonneg _ (by positivity))

theorem tcEncode_lt (v : Int) (w : Nat) : tcEncode v w < 2 ^ w := by
  have h := Int.emod_lt_of_pos v (show (0 : Int) < 2 ^ w by positivity)
  rw [← tcEncode_cast] at h
  exact_mod_cast h

theorem testBit_top {c w : Nat} (hw : 1 ≤ w) (hc : c < 2 ^ w) : c.testBit (w - 1) = decide (2 ^ (w - 1) ≤ c) := by
  obtain ⟨n, rfl⟩ : ∃ n, w = n + 1 := ⟨w - 1, by omega⟩
  rw [Nat.add_sub_cancel, Nat.testBit_eq_decide_div_mod_eq]
  rw [Nat.pow_succ] at hc
  have h2 : c / 2 ^ n < 2 := (Nat.div_lt_iff_lt_mul (by positivity)).2 (by omega)
  have h1 : 1 ≤ c / 2 ^ n ↔ 2 ^ n ≤ c := by rw [Nat.le_div_iff_mul_le (by positivity), one_mul]
  by_cases h : 2 ^ n ≤ c
  · have := h1.2 h
    simp only [h, decide_true, decide_eq_true_eq]
    omega
  · have : ¬ 1 ≤ c / 2 ^ n := fun h' => h (h1.1 h')
    have h0 : c / 2 ^ n = 0 := Nat.lt_one_iff.1 (Nat.lt_of_not_le this)
    simp [h, h0]

/-- `tc_decode` on a code of `w` bits (40_twos_complement.md R90). -/
theorem tcDecode_of_lt {c w : Nat} (hw : 1 ≤ w) (hc : c < 2 ^ w) :
    tcDecode c w = if 2 ^ (w - 1) ≤ c then (c : Int) - 2 ^ w else (c : Int) := by
  simp [tcDecode, testBit_top hw hc]

theorem two_pow_pred {w : Nat} (hw : 1 ≤ w) : (2 : Int) ^ w = 2 * 2 ^ (w - 1) := by
  obtain ⟨n, rfl⟩ : ∃ n, w = n + 1 := ⟨w - 1, by omega⟩
  rw [Nat.add_sub_cancel, pow_succ]
  ring

theorem tcDecode_range {c w : Nat} (hw : 1 ≤ w) (hc : c < 2 ^ w) : inWidth w (tcDecode c w) := by
  rw [tcDecode_of_lt hw hc]
  have h := two_pow_pred hw
  have hc' : (c : Int) < 2 ^ w := by exact_mod_cast hc
  simp only [inWidth]
  split
  · next hl =>
    have hl' : ((2 : Int) ^ (w - 1)) ≤ c := by exact_mod_cast hl
    omega
  · next hl =>
    have hl' : (c : Int) < (2 : Int) ^ (w - 1) := by exact_mod_cast Nat.lt_of_not_le hl
    omega

theorem tcDecode_tcEncode {v : Int} {w : Nat} (hw : 1 ≤ w) (hv : inWidth w v) : tcDecode (tcEncode v w) w = v := by
  rw [tcDecode_of_lt hw (tcEncode_lt v w), tcEncode_cast]
  have h := two_pow_pred hw
  obtain ⟨h1, h2⟩ := hv
  have key : 2 ^ (w - 1) ≤ tcEncode v w ↔ (2 : Int) ^ (w - 1) ≤ v % 2 ^ w := by
    rw [← tcEncode_cast]; exact_mod_cast Iff.rfl
  simp only [key]
  rcases lt_or_ge v 0 with hn | hn
  · have hm : v % 2 ^ w = v + 2 ^ w := by
      rw [← Int.add_emod_right, Int.emod_eq_of_lt (by omega) (by omega)]
    rw [hm, if_pos (by omega)]
    omega
  · have hm : v % 2 ^ w = v := Int.emod_eq_of_lt hn (by omega)
    rw [hm, if_neg (by omega)]

theorem tcEncode_tcDecode {c w : Nat} (hw : 1 ≤ w) (hc : c < 2 ^ w) : tcEncode (tcDecode c w) w = c := by
  have hc' : (c : Int) < 2 ^ w := by exact_mod_cast hc
  have : ((tcEncode (tcDecode c w) w : Nat) : Int) = c := by
    rw [tcEncode_cast, tcDecode_of_lt hw hc]
    split
    · rw [Int.sub_emod_right, Int.emod_eq_of_lt (by omega) hc']
    · exact Int.emod_eq_of_lt (by omega) hc'
  exact_mod_cast this

theorem bitlen_le_iff (n b : Nat) : bitlen n ≤ b ↔ n < 2 ^ b := by
  unfold bitlen
  split
  · next h => subst h; simp
  · next h =>
    rw [← Nat.log2_lt h]
    omega

/-- `need(r) <= w` exactly when `r` is in the range of width `w` (42_width_selector.md R120). -/
theorem need_le_iff {w : Nat} (hw : 1 ≤ w) (r : Int) : need r ≤ w ↔ inWidth w r := by
  obtain ⟨n, rfl⟩ : ∃ n, w = n + 1 := ⟨w - 1, by omega⟩
  have hp : (0 : Int) < 2 ^ n := by positivity
  unfold need
  simp only [inWidth, Nat.add_sub_cancel]
  split
  · next h =>
    rw [Nat.add_le_add_iff_right, bitlen_le_iff]
    have : (r.toNat < 2 ^ n) ↔ ((r.toNat : Int) < 2 ^ n) := by exact_mod_cast Iff.rfl
    rw [this, Int.toNat_of_nonneg h]
    omega
  · next h =>
    rw [Nat.add_le_add_iff_right, bitlen_le_iff]
    have : ((-r - 1).toNat < 2 ^ n) ↔ (((-r - 1).toNat : Int) < 2 ^ n) := by exact_mod_cast Iff.rfl
    rw [this, Int.toNat_of_nonneg (by omega)]
    omega

theorem selectWidth_foldl_le (rs : List Int) (m w : Nat) :
    rs.foldl (fun m r => if m < need r then need r else m) m ≤ w ↔ m ≤ w ∧ ∀ r ∈ rs, need r ≤ w := by
  induction rs generalizing m with
  | nil => simp
  | cons r rs ih =>
    rw [List.foldl_cons, ih]
    simp only [List.mem_cons, forall_eq_or_imp]
    split <;> constructor <;> rintro ⟨h1, h2⟩
    · exact ⟨by omega, h1, h2⟩
    · exact ⟨h2.1, h2.2⟩
    · exact ⟨h1, by omega, h2⟩
    · exact ⟨h1, h2.2⟩

/-- The selector answers at most `w` exactly when every number is in the range of width `w` (42_width_selector.md R120). -/
theorem selectWidth_le_iff {w : Nat} (hw : 1 ≤ w) (rs : List Int) :
    selectWidth rs ≤ w ↔ ∀ r ∈ rs, inWidth w r := by
  unfold selectWidth
  rw [selectWidth_foldl_le]
  constructor
  · rintro ⟨-, h⟩ r hr
    exact (need_le_iff hw r).1 (h r hr)
  · exact fun h => ⟨hw, fun r hr => (need_le_iff hw r).2 (h r hr)⟩

theorem one_le_selectWidth (rs : List Int) : 1 ≤ selectWidth rs :=
  ((selectWidth_foldl_le rs 1 (selectWidth rs)).1 (le_refl _)).1

theorem inWidth_mono {w w' : Nat} (hw : 1 ≤ w) (h : w ≤ w') {r : Int} (hr : inWidth w r) : inWidth w' r :=
  (need_le_iff (by omega) r).1 (le_trans ((need_le_iff hw r).2 hr) h)

end Sys2Proof.Machine
end

