-- ==== Sys2Proof/Laws/Bitstream.lean ====
section
/-! SUPPORT. The laws of the BitWriter and the BitReader: what they do to the bit strings they hold (41_bitstream.md R105). -/

namespace Sys2Proof.Machine

/-! ### Bit strings -/

@[simp] theorem codeBits_length (c w : Nat) : (codeBits c w).length = w := by simp [codeBits]

theorem codeBits_zero (c : Nat) : codeBits c 0 = [] := rfl

theorem codeBits_succ (c w : Nat) : codeBits c (w + 1) = c.testBit w :: codeBits c w := by
  unfold codeBits
  rw [List.range_succ_eq_map, List.map_cons, List.map_map]
  refine congrArg₂ List.cons (by simp) (List.map_congr_left fun i _ => ?_)
  simp only [Function.comp]
  congr 1
  omega

theorem codeBits_getElem? (c w i : Nat) :
    (codeBits c w)[i]? = if i < w then some (c.testBit (w - 1 - i)) else none := by
  unfold codeBits
  by_cases h : i < w <;> simp [h]

theorem codeBits_mod (c w : Nat) : codeBits (c % 2 ^ w) w = codeBits c w := by
  refine List.map_congr_left fun i hi => ?_
  rw [Nat.testBit_mod_two_pow]
  have : w - 1 - i < w := by
    have := List.mem_range.1 hi
    omega
  simp [this]

/-- The bits of a code determine it. -/
theorem eq_of_codeBits_eq {c d w : Nat} (hc : c < 2 ^ w) (hd : d < 2 ^ w) (h : codeBits c w = codeBits d w) : c = d := by
  refine Nat.eq_of_testBit_eq fun i => ?_
  by_cases hi : i < w
  · have := congrArg (fun l => l[w - 1 - i]?) h
    simp only [codeBits_getElem?] at this
    rw [if_pos (by omega), if_pos (by omega), show w - 1 - (w - 1 - i) = i by omega] at this
    exact Option.some.inj this
  · have hp : 2 ^ w ≤ 2 ^ i := Nat.pow_le_pow_right (by omega) (by omega)
    rw [Nat.testBit_lt_two_pow (by omega), Nat.testBit_lt_two_pow (by omega)]

theorem itemsBits_length (items : List (Nat × Nat)) : (itemsBits items).length = itemBits items := by
  induction items with
  | nil => rfl
  | cons c t ih =>
    simp only [itemsBits, itemBits, List.flatMap_cons, List.length_append, codeBits_length, List.map_cons,
      List.sum_cons] at *
    omega

/-! ### BitWriter -/

/-- The number of bits a writer holds. -/
def Writer.size (b : Writer) : Nat := 8 * b.olen.toNat + b.nb.val

@[simp] theorem Writer.size_empty (g : Nat) : (Writer.empty g).size = 0 := rfl

theorem Writer.stream_empty (g : Nat) : (Writer.empty g).stream = [] := rfl

theorem bytes_length (f : Nat → Byte) (n : Nat) :
    ((List.range n).flatMap (fun j => codeBits (f j).toNat 8)).length = 8 * n := by
  induction n with
  | zero => rfl
  | succ n ih =>
    rw [List.range_succ, List.flatMap_append, List.length_append, ih]
    simp
    omega

theorem Writer.stream_length (b : Writer) : b.stream.length = b.size := by
  have := b.nb.isLt
  unfold Writer.stream Writer.size
  rw [List.length_append, bytes_length, List.length_take, codeBits_length]
  omega

theorem getLsbD_setBit (v : Byte) {i : Nat} (j : Nat) (b : Bool) (hi : i < 8) :
    (setBit v i b).getLsbD j = if j = i then b else v.getLsbD j := by
  unfold setBit
  simp only [BitVec.getLsbD_or, BitVec.getLsbD_and, BitVec.getLsbD_not, BitVec.getLsbD_shiftLeft, BitVec.getLsbD_setWidth,
    BitVec.getLsbD_ofBool, BitVec.getLsbD_one]
  by_cases h : j = i
  · subst h; simp [hi]
  · by_cases h8 : j < 8
    · by_cases hl : j < i
      · simp [h, h8, hl]
      · have : j - i ≠ 0 := by omega
        simp [h, h8, hl, this]
    · have : v.getLsbD j = false := BitVec.getLsbD_of_ge _ _ (by omega)
      simp [h, h8, this]

theorem setBit_bits (v : Byte) (n : Nat) (b : Bool) (hn : n < 8) :
    (codeBits (setBit v (7 - n) b).toNat 8).take (n + 1) = (codeBits v.toNat 8).take n ++ [b] := by
  apply List.ext_getElem?
  intro i
  rw [List.getElem?_take, codeBits_getElem?, List.getElem?_append, List.length_take, codeBits_length, List.getElem?_take,
    codeBits_getElem?]
  have e : ∀ u : Byte, u.toNat.testBit (8 - 1 - i) = u.getLsbD (7 - i) := fun u => rfl
  rw [e, e, getLsbD_setBit v _ b (by omega), Nat.min_eq_left (by omega)]
  rcases Nat.lt_trichotomy i n with h | h | h
  · rw [if_pos (by omega), if_pos (by omega), if_neg (by omega), if_pos h, if_pos h, if_pos (by omega)]
  · subst h
    rw [if_pos (by omega), if_pos hn, if_pos rfl, if_neg (by omega)]
    simp
  · rw [if_neg (by omega), if_neg (by omega)]
    symm
    rw [List.getElem?_eq_none]
    simp only [List.length_singleton]
    omega

theorem codeBits_take_all (v : Byte) : (codeBits v.toNat 8).take 8 = codeBits v.toNat 8 :=
  List.take_of_length_le (by simp)

theorem bytes_congr (f g : Nat → Byte) (n : Nat) (h : ∀ j, j < n → f j = g j) :
    (List.range n).flatMap (fun j => codeBits (f j).toNat 8) = (List.range n).flatMap (fun j => codeBits (g j).toNat 8) := by
  induction n with
  | zero => rfl
  | succ n ih =>
    rw [List.range_succ, List.flatMap_append, List.flatMap_append, ih (fun j hj => h j (by omega))]
    simp [h n (by omega)]

/-- What `emit` does: the byte in `BW_ACC` joins the valid bytes. -/
theorem Writer.emit_spec (b : Writer) (h : b.olen.toNat + 1 < 2 ^ 32) :
    b.emit.olen.toNat = b.olen.toNat + 1 ∧ b.emit.nb = 0 ∧ b.emit.acc = 0
      ∧ b.emit.stream = (List.range b.olen.toNat).flatMap (fun j => codeBits (b.obuf.read j).toNat 8) ++ codeBits b.acc.toNat 8
      ∧ (∀ j, j ≠ b.olen.toNat → b.emit.obuf.read j = b.obuf.read j) := by
  have ho : b.emit.olen.toNat = b.olen.toNat + 1 := by
    show (b.olen + 1).toNat = _
    rw [BitVec.toNat_add]
    exact Nat.mod_eq_of_lt h
  refine ⟨ho, rfl, rfl, ?_, fun j hj => Mem.read_write_of_ne _ _ hj⟩
  unfold Writer.stream
  rw [ho, List.range_succ, List.flatMap_append]
  rw [bytes_congr (fun j => b.emit.obuf.read j) (fun j => b.obuf.read j) _
    (fun j hj => Mem.read_write_of_ne _ _ (by omega))]
  simp [Writer.emit]

/-- What `pushBit` does: one bit joins the stream; only the byte at `OLEN` can be written. -/
theorem Writer.pushBit_spec (b : Writer) (bit : Bool) (h : b.size + 1 < 8 * 2 ^ 32) :
    (b.pushBit bit).size = b.size + 1 ∧ (b.pushBit bit).stream = b.stream ++ [bit]
      ∧ (∀ j, j ≠ b.olen.toNat ∨ b.nb.val ≠ 7 → (b.pushBit bit).obuf.read j = b.obuf.read j)
      ∧ (b.acc.toNat % 2 ^ (8 - b.nb.val) = 0 →
        (b.pushBit bit).acc.toNat % 2 ^ (8 - (b.pushBit bit).nb.val) = 0) := by
  have hnb := b.nb.isLt
  unfold Writer.pushBit
  unfold Writer.size at h
  by_cases h7 : b.nb.val = 7
  · rw [if_pos h7]
    have hs := Writer.emit_spec { b with acc := setBit b.acc (7 - b.nb.val) bit } (by show b.olen.toNat + 1 < _; omega)
    obtain ⟨h1, h2, h3, h4, h5⟩ := hs
    refine ⟨?_, ?_, ?_, ?_⟩
    · unfold Writer.size
      rw [h1, h2]
      show 8 * (b.olen.toNat + 1) + 0 = 8 * b.olen.toNat + b.nb.val + 1
      omega
    · rw [h4]
      have := setBit_bits b.acc 7 bit (by omega)
      rw [show 7 + 1 = 8 from rfl, codeBits_take_all] at this
      simp only [h7]
      rw [this]
      unfold Writer.stream
      rw [h7, List.append_assoc]
    · intro j hj
      exact h5 j (by rcases hj with hj | hj; exacts [hj, absurd h7 hj])
    · intro _
      simp only [h3]
      rfl
  · rw [if_neg h7]
    have hn : (b.nb + 1).val = b.nb.val + 1 := by
      rw [Fin.val_add]
      show (b.nb.val + 1) % 8 = _
      omega
    refine ⟨?_, ?_, fun _ _ => rfl, ?_⟩
    · unfold Writer.size
      simp only [hn]
      omega
    · unfold Writer.stream
      simp only [hn]
      rw [setBit_bits _ _ _ hnb, List.append_assoc]
    · intro ha
      simp only [hn]
      refine Nat.eq_of_testBit_eq fun i => ?_
      rw [Nat.testBit_mod_two_pow, Nat.zero_testBit]
      by_cases hi : i < 8 - (b.nb.val + 1)
      · have e : (setBit b.acc (7 - b.nb.val) bit).toNat.testBit i = (setBit b.acc (7 - b.nb.val) bit).getLsbD i := rfl
        rw [e, getLsbD_setBit _ _ _ (by omega), if_neg (by omega)]
        have := congrArg (fun n => n.testBit i) ha
        simp only [Nat.testBit_mod_two_pow, Nat.zero_testBit] at this
        rw [show decide (i < 8 - b.nb.val) = true by simp; omega, Bool.true_and] at this
        rw [show b.acc.getLsbD i = false from this, Bool.and_false]
      · rw [show decide (i < 8 - (b.nb.val + 1)) = false by simp only [hi, decide_false], Bool.false_and]

theorem Writer.olen_eq (b : Writer) : b.olen.toNat = b.size / 8 := by
  have := b.nb.isLt
  unfold Writer.size
  omega

theorem Writer.nb_eq (b : Writer) : b.nb.val = b.size % 8 := by
  have := b.nb.isLt
  unfold Writer.size
  omega

/-- What `put` does (41_bitstream.md R102): `w` bits join the stream; the bytes that were out stay, and so do those not yet out. -/
theorem Writer.put_spec (c w : Nat) (b : Writer) (h : b.size + w < 8 * 2 ^ 32) :
    (Writer.put c w b).size = b.size + w ∧ (Writer.put c w b).stream = b.stream ++ codeBits c w
      ∧ (∀ j, j < b.size / 8 ∨ (b.size + w) / 8 ≤ j → (Writer.put c w b).obuf.read j = b.obuf.read j)
      ∧ (b.acc.toNat % 2 ^ (8 - b.nb.val) = 0 →
        (Writer.put c w b).acc.toNat % 2 ^ (8 - (Writer.put c w b).nb.val) = 0) := by
  induction w generalizing b with
  | zero => exact ⟨rfl, by simp [Writer.put, codeBits_zero], fun _ _ => rfl, id⟩
  | succ n ih =>
    obtain ⟨p1, p2, p3, p4⟩ := b.pushBit_spec (c.testBit n) (by omega)
    obtain ⟨q1, q2, q3, q4⟩ := ih (b.pushBit (c.testBit n)) (by omega)
    refine ⟨by rw [Writer.put, q1, p1]; omega, ?_, fun j hj => ?_, fun ha => q4 (p4 ha)⟩
    · rw [Writer.put, q2, p2, codeBits_succ, List.append_assoc, List.singleton_append]
    · rw [Writer.put, q3 j (by omega), p3]
      have := b.olen_eq
      have := b.nb_eq
      omega

/-- What `putAll` does (30_encoding.md R81, R82): the codes join the stream one after another. -/
theorem Writer.putAll_spec (items : List (Nat × Nat)) (b : Writer) (h : b.size + itemBits items < 8 * 2 ^ 32) :
    (Writer.putAll items b).size = b.size + itemBits items ∧ (Writer.putAll items b).stream = b.stream ++ itemsBits items
      ∧ (∀ j, j < b.size / 8 ∨ (b.size + itemBits items) / 8 ≤ j → (Writer.putAll items b).obuf.read j = b.obuf.read j)
      ∧ (b.acc.toNat % 2 ^ (8 - b.nb.val) = 0 →
        (Writer.putAll items b).acc.toNat % 2 ^ (8 - (Writer.putAll items b).nb.val) = 0) := by
  induction items generalizing b with
  | nil => exact ⟨rfl, by simp [Writer.putAll, itemsBits], fun _ _ => rfl, id⟩
  | cons cw t ih =>
    have hb : itemBits (cw :: t) = cw.2 + itemBits t := by simp [itemBits]
    rw [hb] at h ⊢
    obtain ⟨p1, p2, p3, p4⟩ := Writer.put_spec cw.1 cw.2 b (by omega)
    obtain ⟨q1, q2, q3, q4⟩ := ih (Writer.put cw.1 cw.2 b) (by omega)
    have e : Writer.putAll (cw :: t) b = Writer.putAll t (Writer.put cw.1 cw.2 b) := rfl
    rw [e]
    refine ⟨by omega, ?_, fun j hj => ?_, fun ha => q4 (p4 ha)⟩
    · rw [q2, p2, List.append_assoc]
      rfl
    · rw [q3 j (by omega), p3 j (by omega)]

theorem low_zero_bits {v : Byte} {n : Nat} (hn : n < 8) (h : v.toNat % 2 ^ (8 - n) = 0) :
    codeBits v.toNat 8 = (codeBits v.toNat 8).take n ++ List.replicate (8 - n) false := by
  apply List.ext_getElem?
  intro i
  rw [List.getElem?_append, List.length_take, codeBits_length, Nat.min_eq_left (by omega), List.getElem?_take,
    codeBits_getElem?, List.getElem?_replicate]
  by_cases h1 : i < n
  · simp [h1]
  · rw [if_neg h1]
    by_cases h2 : i < 8
    · rw [if_pos h2, if_pos (by omega)]
      have := congrArg (fun m => m.testBit (8 - 1 - i)) h
      simp only [Nat.testBit_mod_two_pow, Nat.zero_testBit] at this
      rw [show decide (8 - 1 - i < 8 - n) = true by simp; omega, Bool.true_and] at this
      rw [this]
    · rw [if_neg h2, if_neg (by omega)]

/-- What `finish` does (41_bitstream.md R103): the stream is filled up to a byte with zeros. -/
theorem Writer.finish_spec (b : Writer) (h : b.olen.toNat + 1 < 2 ^ 32 ∨ b.nb.val = 0)
    (ha : b.acc.toNat % 2 ^ (8 - b.nb.val) = 0) :
    b.finish.nb = 0 ∧ b.finish.acc = 0 ∧ b.finish.olen.toNat = (b.size + 7) / 8
      ∧ b.finish.stream = b.stream ++ List.replicate ((8 - b.nb.val) % 8) false
      ∧ (∀ j, j < b.olen.toNat ∨ (b.size + 7) / 8 ≤ j → b.finish.obuf.read j = b.obuf.read j) := by
  have hnb := b.nb.isLt
  unfold Writer.finish
  by_cases h0 : b.nb.val = 0
  · rw [if_pos h0]
    refine ⟨rfl, rfl, ?_, ?_, fun _ _ => rfl⟩
    · show b.olen.toNat = _
      unfold Writer.size
      omega
    · simp [Writer.stream, h0]
  · rw [if_neg h0]
    obtain ⟨h1, h2, h3, h4, h5⟩ := b.emit_spec (by omega)
    refine ⟨h2, h3, ?_, ?_, fun j hj => h5 j ?_⟩
    · rw [h1]
      unfold Writer.size
      omega
    · rw [h4, low_zero_bits hnb ha, Nat.mod_eq_of_lt (by omega : 8 - b.nb.val < 8), ← List.append_assoc]
      rfl
    · unfold Writer.size at hj
      omega

/-! ### BitReader -/

theorem Reader.stream_getElem? (r : Reader) (p : Nat) :
    r.stream[p]? = if p < 8 * r.ilen.toNat then some (r.bit p) else none := by
  unfold Reader.stream
  by_cases h : p < 8 * r.ilen.toNat <;> simp [h]

theorem Reader.bitsFrom_eq (r : Reader) (n p v : Nat) :
    r.bitsFrom n p v = v * 2 ^ n + r.bitsFrom n p 0 := by
  induction n generalizing p v with
  | zero => simp [Reader.bitsFrom]
  | succ n ih =>
    rw [Reader.bitsFrom, ih, Reader.bitsFrom, ih (p + 1) (2 * 0 + _), pow_succ]
    ring

theorem Reader.bitsFrom_lt (r : Reader) (n p : Nat) : r.bitsFrom n p 0 < 2 ^ n := by
  induction n generalizing p with
  | zero => simp [Reader.bitsFrom]
  | succ n ih =>
    rw [Reader.bitsFrom, Reader.bitsFrom_eq, pow_succ]
    have := ih (p + 1)
    have : (r.bit p).toNat ≤ 1 := Bool.toNat_le _
    nlinarith

/-- What a read gives (41_bitstream.md R107): the code whose bits, most significant first, are the bits of the stream. -/
theorem Reader.codeBits_bitsFrom (r : Reader) (n p : Nat) :
    codeBits (r.bitsFrom n p 0) n = (List.range n).map (fun i => r.bit (p + i)) := by
  induction n generalizing p with
  | zero => rfl
  | succ n ih =>
    rw [codeBits_succ, List.range_succ_eq_map, List.map_cons, List.map_map]
    have hlt := r.bitsFrom_lt n (p + 1)
    have e : r.bitsFrom (n + 1) p 0 = (r.bit p).toNat * 2 ^ n + r.bitsFrom n (p + 1) 0 := by
      rw [Reader.bitsFrom, Reader.bitsFrom_eq]; simp
    refine congrArg₂ List.cons ?_ ?_
    · rw [e, Nat.testBit_eq_decide_div_mod_eq, Nat.add_comm, Nat.add_mul_div_right _ _ (by positivity),
        Nat.div_eq_of_lt hlt]
      cases r.bit p <;> simp
    · rw [← codeBits_mod, e, Nat.add_comm, Nat.add_mul_mod_self_right, codeBits_mod, ih]
      refine List.map_congr_left fun i _ => ?_
      simp only [Function.comp]
      congr 1
      omega

theorem Reader.bitsFrom_congr {r r' : Reader} {n p : Nat} (h : ∀ q, p ≤ q → q < p + n → r.bit q = r'.bit q) (v : Nat) :
    r.bitsFrom n p v = r'.bitsFrom n p v := by
  induction n generalizing p v with
  | zero => rfl
  | succ n ih =>
    rw [Reader.bitsFrom, Reader.bitsFrom, h p (by omega) (by omega)]
    exact ih (fun q h1 h2 => h q (by omega) (by omega)) _

/-- The codes of the widths `ws` from bit `p` on. -/
def Reader.codesFrom (r : Reader) : List Nat → Nat → List Nat
  | [], _ => []
  | w :: ws, p => r.bitsFrom w p 0 :: r.codesFrom ws (p + w)

theorem Reader.codesFrom_congr {r r' : Reader} (ws : List Nat) {p : Nat}
    (h : ∀ q, p ≤ q → q < p + ws.sum → r.bit q = r'.bit q) : r.codesFrom ws p = r'.codesFrom ws p := by
  induction ws generalizing p with
  | nil => rfl
  | cons w ws ih =>
    rw [List.sum_cons] at h
    rw [Reader.codesFrom, Reader.codesFrom, Reader.bitsFrom_congr (fun q h1 h2 => h q h1 (by omega)) 0,
      ih (fun q h1 h2 => h q (by omega) (by omega))]

theorem Reader.advance_codesFrom (r : Reader) (n : Nat) (ws : List Nat) (p : Nat) :
    (r.advance n).codesFrom ws p = r.codesFrom ws p := Reader.codesFrom_congr ws (fun _ _ _ => rfl)

/-- What `readAll` does on a stream long enough (45_decompressor.md R162): all codes, and the cursor after them. -/
theorem Reader.readAll_some (ws : List Nat) (r : Reader) (h : r.pos + ws.sum ≤ 8 * r.ilen.toNat) :
    Reader.readAll ws r = some (r.codesFrom ws r.pos, r.advance ws.sum) := by
  induction ws generalizing r with
  | nil => rfl
  | cons w ws ih =>
    rw [List.sum_cons] at h
    have ih := ih (r.advance w) (by show r.pos + w + _ ≤ 8 * r.ilen.toNat; omega)
    have hs : ¬ r.short w := by unfold Reader.short; omega
    rw [Reader.readAll, if_neg hs, ih, Reader.advance_codesFrom]
    simp [Reader.codesFrom, Reader.peek, Reader.advance, Nat.add_assoc]

/-- What `readAll` does on a stream too short: nothing comes back. -/
theorem Reader.readAll_none (ws : List Nat) (r : Reader) (h : r.pos ≤ 8 * r.ilen.toNat)
    (h2 : 8 * r.ilen.toNat < r.pos + ws.sum) : Reader.readAll ws r = none := by
  induction ws generalizing r with
  | nil =>
    rw [List.sum_nil] at h2
    omega
  | cons w ws ih =>
    rw [List.sum_cons] at h2
    rw [Reader.readAll]
    by_cases hs : r.short w
    · rw [if_pos hs]
    · rw [if_neg hs]
      unfold Reader.short at hs
      rw [ih (r.advance w) (by show r.pos + w ≤ 8 * r.ilen.toNat; omega)
        (by show 8 * r.ilen.toNat < r.pos + w + _; omega)]

end Sys2Proof.Machine
end

