-- ==== Sys2Proof/Laws/Predictor.lean ====
section
/-! SUPPORT. The laws of the path function and of the two predictor passes (20_memory.md R54, 43_predictor.md R130). -/

namespace Sys2Proof.Machine

/-! ### The path function -/

theorem path_row (scan : Scan) (cols k : Nat) : (path scan cols k).1 = k / cols := by
  unfold path
  cases scan
  · rfl
  · dsimp only
    split <;> rfl

theorem path_col_lt (scan : Scan) {cols : Nat} (k : Nat) (h : 1 ≤ cols) : (path scan cols k).2 < cols := by
  have hm := Nat.mod_lt k h
  unfold path
  cases scan
  · exact hm
  · dsimp only
    split <;> dsimp only <;> omega

theorem path_inj (scan : Scan) {cols j k : Nat} (h : 1 ≤ cols) (he : path scan cols j = path scan cols k) : j = k := by
  have hr : j / cols = k / cols := by rw [← path_row scan, ← path_row scan, he]
  have h1 := Nat.mod_lt j h
  have h2 := Nat.mod_lt k h
  have hc : j % cols = k % cols := by
    have := congrArg Prod.snd he
    unfold path at this
    cases scan
    · exact this
    · simp only [hr] at this
      split at this <;> dsimp only at this <;> omega
  rw [← Nat.div_add_mod j cols, ← Nat.div_add_mod k cols, hr, hc]

theorem pathKey_inj (scan : Scan) {cols j k : Nat} (h : 1 ≤ cols) (h2 : cols < 65536)
    (he : pathKey scan cols j = pathKey scan cols k) : j = k := by
  have hj := path_col_lt scan j h
  have hk := path_col_lt scan k h
  exact path_inj scan h (frameKey_inj (by omega) (by omega) he)

theorem path_row_lt (scan : Scan) {cols rows k : Nat} (hk : k < cols * rows) : (path scan cols k).1 < rows := by
  rw [path_row]
  exact Nat.div_lt_of_lt_mul hk

/-- The place visited `k`-th in a frame of 16-bit dimensions is a place a frame can have. -/
theorem path_place (scan : Scan) (c : CameraSpec) {k : Nat} (hk : k < c.count) :
    framePlace (path scan c.cols.toNat k).1 (path scan c.cols.toNat k).2 := by
  unfold CameraSpec.count at hk
  have h1 : 1 ≤ c.cols.toNat := Nat.pos_of_ne_zero fun h => by rw [h] at hk; omega
  have h2 := path_row_lt scan hk
  have h3 := path_col_lt scan k h1
  have := c.cols.isLt
  have := c.rows.isLt
  unfold framePlace
  omega

/-- A write at `n` after the first `n`, as a case on the index. -/
theorem ite_next {α : Type} (k n : Nat) (f g : Nat → α) (x : α) (hx : x = f n := by rfl) :
    (if k = n then x else if k < n then f k else g k) = if k < n + 1 then f k else g k := by
  by_cases h : k = n
  · subst h
    rw [if_pos rfl, if_pos (by omega), hx]
  · rw [if_neg h]
    by_cases h' : k < n
    · rw [if_pos h', if_pos (by omega)]
    · rw [if_neg h', if_neg (by omega)]

/-! ### The forward pass -/

/-- `t[k-1]`, with `t[-1] = 0`. -/
def previousDelta (s : State) : Nat → Int
  | 0 => 0
  | k + 1 => temporalDelta s k

theorem residual_eq (s : State) (k : Nat) : residual s k = temporalDelta s k - previousDelta s k := by
  cases k <;> simp [residual, previousDelta]

/-- What the forward pass does over the first `n` path indices (43_predictor.md R130, R131). -/
theorem forwardPass_spec (s : State) (n : Nat) :
    (forwardPass s.params s.fin s.enc n).1 = previousDelta s n
      ∧ (forwardPass s.params s.fin s.enc n).2 =
        { s.enc with
          res := (forwardPass s.params s.fin s.enc n).2.res
          history := (forwardPass s.params s.fin s.enc n).2.history }
      ∧ (∀ k, (forwardPass s.params s.fin s.enc n).2.res.read k =
        if k < n then BitVec.ofInt 32 (residual s k) else s.enc.res.read k)
      ∧ (∀ k, (forwardPass s.params s.fin s.enc n).2.history.read k =
        if k < n then inputSample s k else s.enc.history.read k) := by
  induction n with
  | zero => exact ⟨rfl, rfl, fun _ => rfl, fun _ => rfl⟩
  | succ n ih =>
    obtain ⟨h1, h2, h3, h4⟩ := ih
    have e : forwardPass s.params s.fin s.enc (n + 1) =
        forwardAt s.params s.fin (forwardPass s.params s.fin s.enc n) n := by
      unfold forwardPass
      rw [List.range_succ, List.foldl_append]
      rfl
    generalize forwardPass s.params s.fin s.enc n = st at *
    obtain ⟨t, enc⟩ := st
    dsimp only at h1 h2 h3 h4
    have hspec : enc.spec = s.enc.spec := by rw [h2]
    have hhist : enc.hist = s.enc.hist := by rw [h2]
    have hs : s.fin.read (pathKey s.params.scan enc.spec.cols.toNat n) = inputSample s n := by rw [hspec]; rfl
    have hh : (if enc.hist then enc.history.read n else Config.baseline) = reference s.enc.hist s.enc.history n := by
      rw [hhist, h4, if_neg (lt_irrefl n)]
      rfl
    have ht : ((s.fin.read (pathKey s.params.scan enc.spec.cols.toNat n)).toNat : Int)
        - ((if enc.hist then enc.history.read n else Config.baseline).toNat : Int) = temporalDelta s n := by
      rw [hs, hh]
      rfl
    rw [e]
    refine ⟨?_, ?_, fun k => ?_, fun k => ?_⟩
    · simp only [forwardAt]
      exact ht
    · rw [h2]
      rfl
    · show (enc.res.write n _).read k = _
      rw [Mem.read_write, ht, h1, ← residual_eq, h3]
      exact ite_next k n (fun k => BitVec.ofInt 32 (residual s k)) (fun k => s.enc.res.read k) _
    · show (enc.history.write n _).read k = _
      rw [Mem.read_write, hs, h4]
      exact ite_next k n (fun k => inputSample s k) (fun k => s.enc.history.read k) _

/-- The forward pass keeps the form and the bounds of the memories and covers the history entries it visits. -/
theorem forwardPass_mem (p : Params) (fin : Mem 16) (e : Enc) (n : Nat) :
    (e.res.wf → (forwardPass p fin e n).2.res.wf) ∧ (e.history.wf → (forwardPass p fin e n).2.history.wf)
      ∧ (∀ m, n ≤ m → e.res.below m → (forwardPass p fin e n).2.res.below m)
      ∧ (∀ m, n ≤ m → e.history.below m → (forwardPass p fin e n).2.history.below m)
      ∧ (forwardPass p fin e n).2.history.covers n := by
  induction n with
  | zero => exact ⟨id, id, fun _ _ => id, fun _ _ => id, fun k hk => absurd hk (by omega)⟩
  | succ n ih =>
    obtain ⟨h1, h2, h3, h4, h5⟩ := ih
    have e' : forwardPass p fin e (n + 1) = forwardAt p fin (forwardPass p fin e n) n := by
      unfold forwardPass
      rw [List.range_succ, List.foldl_append]
      rfl
    rw [e']
    exact ⟨fun h => Mem.wf_write _ _ (h1 h), fun h => Mem.wf_write _ _ (h2 h),
      fun m hm h => Mem.below_write _ (h3 m (by omega) h) (by omega),
      fun m hm h => Mem.below_write _ (h4 m (by omega) h) (by omega), Mem.covers_write_next _ h5⟩

/-! ### The inverse pass -/

/-- `r[0] + ... + r[n-1]` over a residual memory. -/
def sumBelow (m : Mem 32) (n : Nat) : Int := ((List.range n).map (fun j => (m.read j).toInt)).sum

theorem sumBelow_succ (m : Mem 32) (n : Nat) : sumBelow m (n + 1) = sumBelow m n + (m.read n).toInt := by
  unfold sumBelow
  rw [List.range_succ, List.map_append, List.sum_append]
  simp

theorem prefixSum_eq (m : Mem 32) (k : Nat) : prefixSum m k = sumBelow m (k + 1) := rfl

/-- A sample does not depend on the width of the accumulator (43_predictor.md R137). -/
theorem ofInt_add_wrapped (h x : Int) : BitVec.ofInt 16 (h + (BitVec.ofInt 32 x).toInt) = BitVec.ofInt 16 (h + x) := by
  apply BitVec.eq_of_toInt_eq
  rw [BitVec.toInt_ofInt, BitVec.toInt_ofInt, BitVec.toInt_ofInt]
  have hd : ∃ q : Int, x.bmod (2 ^ 32) = x + 2 ^ 32 * q := by
    refine ⟨-(x.bdiv (2 ^ 32)), ?_⟩
    have := Int.bdiv_add_bmod x (2 ^ 32)
    push_cast at this ⊢
    linarith
  obtain ⟨q, hq⟩ := hd
  rw [hq, show h + (x + 2 ^ 32 * q) = (h + x) + ((2 ^ 16 : Nat) : Int) * (2 ^ 16 * q) by push_cast; ring,
    Int.add_mul_bmod_self_left]

/-- What the inverse pass does over the first `n` path indices (43_predictor.md R136, R137). -/
theorem inversePass_spec (s : State) (n : Nat) (hn : n ≤ s.dec.spec.count) :
    (inversePass s.params s.dec s.fout n).acc = BitVec.ofInt 32 (sumBelow s.dec.res n)
      ∧ (inversePass s.params s.dec s.fout n).dec =
        { s.dec with history := (inversePass s.params s.dec s.fout n).dec.history }
      ∧ (∀ k, (inversePass s.params s.dec s.fout n).dec.history.read k =
        if k < n then outputSample s.dec s.dec.res k else s.dec.history.read k)
      ∧ (∀ k, k < n → (inversePass s.params s.dec s.fout n).fout.read (pathKey s.params.scan s.dec.spec.cols.toNat k)
        = outputSample s.dec s.dec.res k)
      ∧ (∀ a, (∀ k, k < n → pathKey s.params.scan s.dec.spec.cols.toNat k ≠ a) →
        (inversePass s.params s.dec s.fout n).fout.read a = s.fout.read a) := by
  induction n with
  | zero => exact ⟨rfl, rfl, fun _ => rfl, fun k hk => absurd hk (by omega), fun _ _ => rfl⟩
  | succ n ih =>
    obtain ⟨h1, h2, h3, h4, h5⟩ := ih (by omega)
    have e : inversePass s.params s.dec s.fout (n + 1) =
        inverseAt s.params (inversePass s.params s.dec s.fout n) n := by
      unfold inversePass
      rw [List.range_succ, List.foldl_append]
      rfl
    generalize inversePass s.params s.dec s.fout n = st at *
    obtain ⟨acc, dec, fout⟩ := st
    dsimp only at h1 h2 h3 h4 h5
    have hspec : dec.spec = s.dec.spec := by rw [h2]
    have hhist : dec.hist = s.dec.hist := by rw [h2]
    have hres : dec.res = s.dec.res := by rw [h2]
    have hacc : acc + dec.res.read n = BitVec.ofInt 32 (sumBelow s.dec.res (n + 1)) := by
      rw [h1, hres, sumBelow_succ, BitVec.ofInt_add, BitVec.ofInt_toInt]
    have hh : (if dec.hist then dec.history.read n else Config.baseline) = reference s.dec.hist s.dec.history n := by
      rw [hhist, h3, if_neg (lt_irrefl n)]
      rfl
    have hsmp : BitVec.ofInt 16 (((if dec.hist then dec.history.read n else Config.baseline).toNat : Int)
        + (acc + dec.res.read n).toInt) = outputSample s.dec s.dec.res n := by
      rw [hh, hacc, ofInt_add_wrapped]
      rfl
    have hcols : 1 ≤ s.dec.spec.cols.toNat := by
      unfold CameraSpec.count at hn
      exact Nat.pos_of_ne_zero fun h => by rw [h] at hn; omega
    rw [e]
    refine ⟨hacc, ?_, fun k => ?_, fun k hk => ?_, fun a ha => ?_⟩
    · rw [h2]
      rfl
    · show (dec.history.write n _).read k = _
      rw [Mem.read_write, hsmp, h3]
      exact ite_next k n (fun k => outputSample s.dec s.dec.res k) (fun k => s.dec.history.read k) _
    · show (fout.write (pathKey s.params.scan dec.spec.cols.toNat n) _).read _ = _
      rw [hspec, Mem.read_write, hsmp]
      by_cases hkn : k = n
      · rw [if_pos (by rw [hkn]), hkn]
      · rw [if_neg fun h => hkn (pathKey_inj _ hcols s.dec.spec.cols.isLt h), h4 k (by omega)]
    · show (fout.write (pathKey s.params.scan dec.spec.cols.toNat n) _).read a = _
      rw [hspec, Mem.read_write_of_ne _ _ (Ne.symm (ha n (by omega))), h5 a fun k hk => ha k (by omega)]

/-- The inverse pass keeps the form and the bounds of the memories and covers the history entries it visits. -/
theorem inversePass_mem (p : Params) (d : Dec) (fout : Mem 16) (n : Nat) (hn : n ≤ d.spec.count) :
    (inversePass p d fout n).dec.spec = d.spec
      ∧ (d.history.wf → (inversePass p d fout n).dec.history.wf)
      ∧ (∀ m, n ≤ m → d.history.below m → (inversePass p d fout n).dec.history.below m)
      ∧ (inversePass p d fout n).dec.history.covers n
      ∧ (frameInv fout → frameInv (inversePass p d fout n).fout) := by
  induction n with
  | zero => exact ⟨rfl, id, fun _ _ => id, fun k hk => absurd hk (by omega), id⟩
  | succ n ih =>
    obtain ⟨h0, h1, h2, h3, h4⟩ := ih (by omega)
    have e' : inversePass p d fout (n + 1) = inverseAt p (inversePass p d fout n) n := by
      unfold inversePass
      rw [List.range_succ, List.foldl_append]
      rfl
    rw [e']
    refine ⟨h0, fun h => Mem.wf_write _ _ (h1 h), fun m hm h => Mem.below_write _ (h2 m (by omega) h) (by omega),
      Mem.covers_write_next _ h3, fun h => ?_⟩
    have hp := path_place p.scan d.spec (k := n) (by omega)
    show frameInv ((inversePass p d fout n).fout.write (pathKey p.scan (inversePass p d fout n).dec.spec.cols.toNat n) _)
    rw [h0]
    exact frameInv_write _ (h4 h) hp

end Sys2Proof.Machine
end

