-- ==== Sys2Proof/Laws/State.lean ====
section
/-! SUPPORT. One lemma per field of State per named update of Machine/Ops.lean. -/

namespace Sys2Proof.Machine

@[simp] theorem State.setErr_params (s : State) (e : Err) : (s.setErr e).params = s.params := rfl
@[simp] theorem State.setErr_host (s : State) (e : Err) : (s.setErr e).host = s.host := rfl
@[simp] theorem State.setErr_cmd (s : State) (e : Err) : (s.setErr e).cmd = s.cmd := rfl
@[simp] theorem State.setErr_err (s : State) (e : Err) : (s.setErr e).err = e := rfl
@[simp] theorem State.setErr_opa (s : State) (e : Err) : (s.setErr e).opa = s.opa := rfl
@[simp] theorem State.setErr_rslt (s : State) (e : Err) : (s.setErr e).rslt = s.rslt := rfl
@[simp] theorem State.setErr_spec (s : State) (e : Err) : (s.setErr e).spec = s.spec := rfl
@[simp] theorem State.setErr_finDims (s : State) (e : Err) : (s.setErr e).finDims = s.finDims := rfl
@[simp] theorem State.setErr_foutDims (s : State) (e : Err) : (s.setErr e).foutDims = s.foutDims := rfl
@[simp] theorem State.setErr_enc (s : State) (e : Err) : (s.setErr e).enc = s.enc := rfl
@[simp] theorem State.setErr_dec (s : State) (e : Err) : (s.setErr e).dec = s.dec := rfl
@[simp] theorem State.setErr_fin (s : State) (e : Err) : (s.setErr e).fin = s.fin := rfl
@[simp] theorem State.setErr_fout (s : State) (e : Err) : (s.setErr e).fout = s.fout := rfl
@[simp] theorem State.setErr_free (s : State) (e : Err) : (s.setErr e).free = s.free := rfl

@[simp] theorem State.setRslt_params (s : State) (v : Word) : (s.setRslt v).params = s.params := rfl
@[simp] theorem State.setRslt_host (s : State) (v : Word) : (s.setRslt v).host = s.host := rfl
@[simp] theorem State.setRslt_cmd (s : State) (v : Word) : (s.setRslt v).cmd = s.cmd := rfl
@[simp] theorem State.setRslt_err (s : State) (v : Word) : (s.setRslt v).err = s.err := rfl
@[simp] theorem State.setRslt_opa (s : State) (v : Word) : (s.setRslt v).opa = s.opa := rfl
@[simp] theorem State.setRslt_rslt (s : State) (v : Word) : (s.setRslt v).rslt = v := rfl
@[simp] theorem State.setRslt_spec (s : State) (v : Word) : (s.setRslt v).spec = s.spec := rfl
@[simp] theorem State.setRslt_finDims (s : State) (v : Word) : (s.setRslt v).finDims = s.finDims := rfl
@[simp] theorem State.setRslt_foutDims (s : State) (v : Word) : (s.setRslt v).foutDims = s.foutDims := rfl
@[simp] theorem State.setRslt_enc (s : State) (v : Word) : (s.setRslt v).enc = s.enc := rfl
@[simp] theorem State.setRslt_dec (s : State) (v : Word) : (s.setRslt v).dec = s.dec := rfl
@[simp] theorem State.setRslt_fin (s : State) (v : Word) : (s.setRslt v).fin = s.fin := rfl
@[simp] theorem State.setRslt_fout (s : State) (v : Word) : (s.setRslt v).fout = s.fout := rfl
@[simp] theorem State.setRslt_free (s : State) (v : Word) : (s.setRslt v).free = s.free := rfl

@[simp] theorem State.setEnc_params (s : State) (e : Enc) : (s.setEnc e).params = s.params := rfl
@[simp] theorem State.setEnc_host (s : State) (e : Enc) : (s.setEnc e).host = s.host := rfl
@[simp] theorem State.setEnc_cmd (s : State) (e : Enc) : (s.setEnc e).cmd = s.cmd := rfl
@[simp] theorem State.setEnc_err (s : State) (e : Enc) : (s.setEnc e).err = s.err := rfl
@[simp] theorem State.setEnc_opa (s : State) (e : Enc) : (s.setEnc e).opa = s.opa := rfl
@[simp] theorem State.setEnc_rslt (s : State) (e : Enc) : (s.setEnc e).rslt = s.rslt := rfl
@[simp] theorem State.setEnc_spec (s : State) (e : Enc) : (s.setEnc e).spec = s.spec := rfl
@[simp] theorem State.setEnc_finDims (s : State) (e : Enc) : (s.setEnc e).finDims = s.finDims := rfl
@[simp] theorem State.setEnc_foutDims (s : State) (e : Enc) : (s.setEnc e).foutDims = s.foutDims := rfl
@[simp] theorem State.setEnc_enc (s : State) (e : Enc) : (s.setEnc e).enc = e := rfl
@[simp] theorem State.setEnc_dec (s : State) (e : Enc) : (s.setEnc e).dec = s.dec := rfl
@[simp] theorem State.setEnc_fin (s : State) (e : Enc) : (s.setEnc e).fin = s.fin := rfl
@[simp] theorem State.setEnc_fout (s : State) (e : Enc) : (s.setEnc e).fout = s.fout := rfl
@[simp] theorem State.setEnc_free (s : State) (e : Enc) : (s.setEnc e).free = s.free := rfl

@[simp] theorem State.setDec_params (s : State) (d : Dec) : (s.setDec d).params = s.params := rfl
@[simp] theorem State.setDec_host (s : State) (d : Dec) : (s.setDec d).host = s.host := rfl
@[simp] theorem State.setDec_cmd (s : State) (d : Dec) : (s.setDec d).cmd = s.cmd := rfl
@[simp] theorem State.setDec_err (s : State) (d : Dec) : (s.setDec d).err = s.err := rfl
@[simp] theorem State.setDec_opa (s : State) (d : Dec) : (s.setDec d).opa = s.opa := rfl
@[simp] theorem State.setDec_rslt (s : State) (d : Dec) : (s.setDec d).rslt = s.rslt := rfl
@[simp] theorem State.setDec_spec (s : State) (d : Dec) : (s.setDec d).spec = s.spec := rfl
@[simp] theorem State.setDec_finDims (s : State) (d : Dec) : (s.setDec d).finDims = s.finDims := rfl
@[simp] theorem State.setDec_foutDims (s : State) (d : Dec) : (s.setDec d).foutDims = s.foutDims := rfl
@[simp] theorem State.setDec_enc (s : State) (d : Dec) : (s.setDec d).enc = s.enc := rfl
@[simp] theorem State.setDec_dec (s : State) (d : Dec) : (s.setDec d).dec = d := rfl
@[simp] theorem State.setDec_fin (s : State) (d : Dec) : (s.setDec d).fin = s.fin := rfl
@[simp] theorem State.setDec_fout (s : State) (d : Dec) : (s.setDec d).fout = s.fout := rfl
@[simp] theorem State.setDec_free (s : State) (d : Dec) : (s.setDec d).free = s.free := rfl

@[simp] theorem State.setFin_params (s : State) (m : Mem 16) : (s.setFin m).params = s.params := rfl
@[simp] theorem State.setFin_host (s : State) (m : Mem 16) : (s.setFin m).host = s.host := rfl
@[simp] theorem State.setFin_cmd (s : State) (m : Mem 16) : (s.setFin m).cmd = s.cmd := rfl
@[simp] theorem State.setFin_err (s : State) (m : Mem 16) : (s.setFin m).err = s.err := rfl
@[simp] theorem State.setFin_opa (s : State) (m : Mem 16) : (s.setFin m).opa = s.opa := rfl
@[simp] theorem State.setFin_rslt (s : State) (m : Mem 16) : (s.setFin m).rslt = s.rslt := rfl
@[simp] theorem State.setFin_spec (s : State) (m : Mem 16) : (s.setFin m).spec = s.spec := rfl
@[simp] theorem State.setFin_finDims (s : State) (m : Mem 16) : (s.setFin m).finDims = s.finDims := rfl
@[simp] theorem State.setFin_foutDims (s : State) (m : Mem 16) : (s.setFin m).foutDims = s.foutDims := rfl
@[simp] theorem State.setFin_enc (s : State) (m : Mem 16) : (s.setFin m).enc = s.enc := rfl
@[simp] theorem State.setFin_dec (s : State) (m : Mem 16) : (s.setFin m).dec = s.dec := rfl
@[simp] theorem State.setFin_fin (s : State) (m : Mem 16) : (s.setFin m).fin = m := rfl
@[simp] theorem State.setFin_fout (s : State) (m : Mem 16) : (s.setFin m).fout = s.fout := rfl
@[simp] theorem State.setFin_free (s : State) (m : Mem 16) : (s.setFin m).free = s.free := rfl

@[simp] theorem State.setFout_params (s : State) (m : Mem 16) : (s.setFout m).params = s.params := rfl
@[simp] theorem State.setFout_host (s : State) (m : Mem 16) : (s.setFout m).host = s.host := rfl
@[simp] theorem State.setFout_cmd (s : State) (m : Mem 16) : (s.setFout m).cmd = s.cmd := rfl
@[simp] theorem State.setFout_err (s : State) (m : Mem 16) : (s.setFout m).err = s.err := rfl
@[simp] theorem State.setFout_opa (s : State) (m : Mem 16) : (s.setFout m).opa = s.opa := rfl
@[simp] theorem State.setFout_rslt (s : State) (m : Mem 16) : (s.setFout m).rslt = s.rslt := rfl
@[simp] theorem State.setFout_spec (s : State) (m : Mem 16) : (s.setFout m).spec = s.spec := rfl
@[simp] theorem State.setFout_finDims (s : State) (m : Mem 16) : (s.setFout m).finDims = s.finDims := rfl
@[simp] theorem State.setFout_foutDims (s : State) (m : Mem 16) : (s.setFout m).foutDims = s.foutDims := rfl
@[simp] theorem State.setFout_enc (s : State) (m : Mem 16) : (s.setFout m).enc = s.enc := rfl
@[simp] theorem State.setFout_dec (s : State) (m : Mem 16) : (s.setFout m).dec = s.dec := rfl
@[simp] theorem State.setFout_fin (s : State) (m : Mem 16) : (s.setFout m).fin = s.fin := rfl
@[simp] theorem State.setFout_fout (s : State) (m : Mem 16) : (s.setFout m).fout = m := rfl
@[simp] theorem State.setFout_free (s : State) (m : Mem 16) : (s.setFout m).free = s.free := rfl

@[simp] theorem State.take_params (s : State) (n : Nat) : (s.take n).params = s.params := rfl
@[simp] theorem State.take_host (s : State) (n : Nat) : (s.take n).host = s.host := rfl
@[simp] theorem State.take_cmd (s : State) (n : Nat) : (s.take n).cmd = s.cmd := rfl
@[simp] theorem State.take_err (s : State) (n : Nat) : (s.take n).err = s.err := rfl
@[simp] theorem State.take_opa (s : State) (n : Nat) : (s.take n).opa = s.opa := rfl
@[simp] theorem State.take_rslt (s : State) (n : Nat) : (s.take n).rslt = s.rslt := rfl
@[simp] theorem State.take_spec (s : State) (n : Nat) : (s.take n).spec = s.spec := rfl
@[simp] theorem State.take_finDims (s : State) (n : Nat) : (s.take n).finDims = s.finDims := rfl
@[simp] theorem State.take_foutDims (s : State) (n : Nat) : (s.take n).foutDims = s.foutDims := rfl
@[simp] theorem State.take_enc (s : State) (n : Nat) : (s.take n).enc = s.enc := rfl
@[simp] theorem State.take_dec (s : State) (n : Nat) : (s.take n).dec = s.dec := rfl
@[simp] theorem State.take_fin (s : State) (n : Nat) : (s.take n).fin = s.fin := rfl
@[simp] theorem State.take_fout (s : State) (n : Nat) : (s.take n).fout = s.fout := rfl
@[simp] theorem State.take_free (s : State) (n : Nat) : (s.take n).free = s.free + n := rfl

@[simp] theorem State.setWriter_params (s : State) (b : Writer) : (s.setWriter b).params = s.params := rfl
@[simp] theorem State.setWriter_host (s : State) (b : Writer) : (s.setWriter b).host = s.host := rfl
@[simp] theorem State.setWriter_cmd (s : State) (b : Writer) : (s.setWriter b).cmd = s.cmd := rfl
@[simp] theorem State.setWriter_err (s : State) (b : Writer) : (s.setWriter b).err = s.err := rfl
@[simp] theorem State.setWriter_opa (s : State) (b : Writer) : (s.setWriter b).opa = s.opa := rfl
@[simp] theorem State.setWriter_rslt (s : State) (b : Writer) : (s.setWriter b).rslt = s.rslt := rfl
@[simp] theorem State.setWriter_spec (s : State) (b : Writer) : (s.setWriter b).spec = s.spec := rfl
@[simp] theorem State.setWriter_finDims (s : State) (b : Writer) : (s.setWriter b).finDims = s.finDims := rfl
@[simp] theorem State.setWriter_foutDims (s : State) (b : Writer) : (s.setWriter b).foutDims = s.foutDims := rfl
@[simp] theorem State.setWriter_enc (s : State) (b : Writer) : (s.setWriter b).enc = { s.enc with bw := b } := rfl
@[simp] theorem State.setWriter_dec (s : State) (b : Writer) : (s.setWriter b).dec = s.dec := rfl
@[simp] theorem State.setWriter_fin (s : State) (b : Writer) : (s.setWriter b).fin = s.fin := rfl
@[simp] theorem State.setWriter_fout (s : State) (b : Writer) : (s.setWriter b).fout = s.fout := rfl
@[simp] theorem State.setWriter_free (s : State) (b : Writer) : (s.setWriter b).free = s.free := rfl

@[simp] theorem State.setWidth_params (s : State) (m : BitVec 8) : (s.setWidth m).params = s.params := rfl
@[simp] theorem State.setWidth_host (s : State) (m : BitVec 8) : (s.setWidth m).host = s.host := rfl
@[simp] theorem State.setWidth_cmd (s : State) (m : BitVec 8) : (s.setWidth m).cmd = s.cmd := rfl
@[simp] theorem State.setWidth_err (s : State) (m : BitVec 8) : (s.setWidth m).err = s.err := rfl
@[simp] theorem State.setWidth_opa (s : State) (m : BitVec 8) : (s.setWidth m).opa = s.opa := rfl
@[simp] theorem State.setWidth_rslt (s : State) (m : BitVec 8) : (s.setWidth m).rslt = s.rslt := rfl
@[simp] theorem State.setWidth_spec (s : State) (m : BitVec 8) : (s.setWidth m).spec = s.spec := rfl
@[simp] theorem State.setWidth_finDims (s : State) (m : BitVec 8) : (s.setWidth m).finDims = s.finDims := rfl
@[simp] theorem State.setWidth_foutDims (s : State) (m : BitVec 8) : (s.setWidth m).foutDims = s.foutDims := rfl
@[simp] theorem State.setWidth_enc (s : State) (m : BitVec 8) : (s.setWidth m).enc = { s.enc with width := m } := rfl
@[simp] theorem State.setWidth_dec (s : State) (m : BitVec 8) : (s.setWidth m).dec = s.dec := rfl
@[simp] theorem State.setWidth_fin (s : State) (m : BitVec 8) : (s.setWidth m).fin = s.fin := rfl
@[simp] theorem State.setWidth_fout (s : State) (m : BitVec 8) : (s.setWidth m).fout = s.fout := rfl
@[simp] theorem State.setWidth_free (s : State) (m : BitVec 8) : (s.setWidth m).free = s.free := rfl

@[simp] theorem State.setReader_params (s : State) (r : Reader) : (s.setReader r).params = s.params := rfl
@[simp] theorem State.setReader_host (s : State) (r : Reader) : (s.setReader r).host = s.host := rfl
@[simp] theorem State.setReader_cmd (s : State) (r : Reader) : (s.setReader r).cmd = s.cmd := rfl
@[simp] theorem State.setReader_err (s : State) (r : Reader) : (s.setReader r).err = s.err := rfl
@[simp] theorem State.setReader_opa (s : State) (r : Reader) : (s.setReader r).opa = s.opa := rfl
@[simp] theorem State.setReader_rslt (s : State) (r : Reader) : (s.setReader r).rslt = s.rslt := rfl
@[simp] theorem State.setReader_spec (s : State) (r : Reader) : (s.setReader r).spec = s.spec := rfl
@[simp] theorem State.setReader_finDims (s : State) (r : Reader) : (s.setReader r).finDims = s.finDims := rfl
@[simp] theorem State.setReader_foutDims (s : State) (r : Reader) : (s.setReader r).foutDims = s.foutDims := rfl
@[simp] theorem State.setReader_enc (s : State) (r : Reader) : (s.setReader r).enc = s.enc := rfl
@[simp] theorem State.setReader_dec (s : State) (r : Reader) : (s.setReader r).dec = { s.dec with br := r } := rfl
@[simp] theorem State.setReader_fin (s : State) (r : Reader) : (s.setReader r).fin = s.fin := rfl
@[simp] theorem State.setReader_fout (s : State) (r : Reader) : (s.setReader r).fout = s.fout := rfl
@[simp] theorem State.setReader_free (s : State) (r : Reader) : (s.setReader r).free = s.free := rfl

end Sys2Proof.Machine
end

