-- ==== Sys2Proof/Laws/Frames.lean ====
section
/-! SUPPORT. What ending a command, compressing and decompressing a frame do, said once over the frame's sequences (44_compressor.md R152,
45_decompressor.md R162). -/

namespace Sys2Proof.Machine

/-! ### The end of a command -/

theorem complete_eq_next {s t : State} : complete s = .next t ↔ t = s.setErr .ok := by
  unfold complete
  constructor
  · intro h; injection h with h; exact h.symm
  · rintro rfl; rfl

theorem raise_eq_next {e : Err} {s t : State} : raise e s = .next t ↔ t = s.setErr e := by
  unfold raise
  constructor
  · intro h; injection h with h; exact h.symm
  · rintro rfl; rfl

/-! ### Ranges (43_predictor.md R134) -/

theorem sample_range (v : Sample) : (0 : Int) ≤ v.toNat ∧ (v.toNat : Int) ≤ 65535 := by
  have := v.isLt
  omega

theorem temporalDelta_range (s : State) (k : Nat) : -65535 ≤ temporalDelta s k ∧ temporalDelta s k ≤ 65535 := by
  have h1 := sample_range (inputSample s k)
  have h2 := sample_range (reference s.enc.hist s.enc.history k)
  unfold temporalDelta
  omega

theorem residual_range (s : State) (k : Nat) : -131070 ≤ residual s k ∧ residual s k ≤ 131070 := by
  have h1 := temporalDelta_range s k
  cases k with
  | zero => simp only [residual]; omega
  | succ k =>
    have h2 := temporalDelta_range s k
    simp only [residual]
    omega

theorem toInt_ofInt_of_range {x : Int} (h : -2147483648 ≤ x ∧ x < 2147483648) : (BitVec.ofInt 32 x).toInt = x := by
  rw [BitVec.toInt_ofInt]
  exact Int.bmod_eq_of_le (by norm_num; omega) (by norm_num; omega)

theorem residual_toInt (s : State) (k : Nat) : (BitVec.ofInt 32 (residual s k)).toInt = residual s k := by
  have := residual_range s k
  exact toInt_ofInt_of_range (by omega)

/-! ### Compressing -/

/-- The ENC context after the predictor pass. -/
def advancedEnc (s : State) : Enc :=
  { (forwardPass s.params s.fin s.enc s.enc.spec.count).2 with hist := true }

theorem predictForward_eq (s : State) : predictForward s = s.setEnc (advancedEnc s) := rfl

/-- What the predictor pass leaves in the ENC context (43_predictor.md R131, R133). -/
theorem advancedEnc_spec (s : State) :
    advancedEnc s = { s.enc with res := (advancedEnc s).res, history := (advancedEnc s).history, hist := true }
      ∧ (∀ k, k < s.enc.spec.count → ((advancedEnc s).res.read k).toInt = residual s k
        ∧ (advancedEnc s).history.read k = inputSample s k)
      ∧ (∀ k, s.enc.spec.count ≤ k → (advancedEnc s).res.read k = s.enc.res.read k
        ∧ (advancedEnc s).history.read k = s.enc.history.read k) := by
  obtain ⟨-, h2, h3, h4⟩ := forwardPass_spec s s.enc.spec.count
  refine ⟨?_, fun k hk => ⟨?_, ?_⟩, fun k hk => ⟨?_, ?_⟩⟩
  · unfold advancedEnc
    rw [h2]
  · show ((forwardPass s.params s.fin s.enc s.enc.spec.count).2.res.read k).toInt = _
    rw [h3, if_pos hk, residual_toInt]
  · show (forwardPass s.params s.fin s.enc s.enc.spec.count).2.history.read k = _
    rw [h4, if_pos hk]
  · show (forwardPass s.params s.fin s.enc s.enc.spec.count).2.res.read k = _
    rw [h3, if_neg (by omega)]
  · show (forwardPass s.params s.fin s.enc s.enc.spec.count).2.history.read k = _
    rw [h4, if_neg (by omega)]

theorem residuals_advancedEnc (s : State) :
    residuals (advancedEnc s).res (advancedEnc s).spec.count = frameResidualList s := by
  have hs : (advancedEnc s).spec = s.enc.spec := by rw [(advancedEnc_spec s).1]
  rw [hs]
  exact List.map_congr_left fun k hk => ((advancedEnc_spec s).2.1 k (List.mem_range.1 hk)).1

/-- The width CNEXT selects for the input frame. -/
def frameWidth (s : State) : Nat := selectWidth (widthResiduals s.params.framing (frameResidualList s))

/-- The codes CNEXT packs for the input frame. -/
def framePack (s : State) : List (Nat × Nat) := frameItems s.params.framing (frameWidth s) (frameResidualList s)

/-- What CNEXT does once its checks have passed (44_compressor.md R152, R154). -/
theorem compressFrame_eq (s : State) :
    compressFrame s =
      if 16 < frameWidth s then
        .next { s with enc := { advancedEnc s with bw := .empty s.free, width := 0 }, free := s.free + 1, err := .bitWidthOverflow }
      else if s.params.obufCap < (itemBits (framePack s) + 7) / 8 then .refused .obufCapacity
      else
        .next { s with
          enc := { advancedEnc s with
            bw := (Writer.putAll (framePack s) (.empty s.free)).finish, width := BitVec.ofNat 8 (frameWidth s) },
          free := s.free + 1, err := .ok } := by
  unfold compressFrame packFrame framePack frameWidth resetWriter
  rw [predictForward_eq]
  have b : ∀ n, (Writer.empty s.free).bytesWith n = (n + 7) / 8 := by
    intro n
    show 0 + (0 + n + 7) / 8 = _
    omega
  simp only [State.setEnc_params, State.setEnc_free, State.setEnc_enc, State.setWriter_params, State.setWriter_enc,
    State.take_params, State.take_enc, residuals_advancedEnc, b, Config.wMax]
  generalize selectWidth (widthResiduals s.params.framing (frameResidualList s)) = m
  generalize frameItems s.params.framing m (frameResidualList s) = items
  generalize advancedEnc s = e
  unfold complete raise State.setErr State.setWidth State.setWriter State.take State.setEnc
  rfl

theorem itemBits_map (rs : List Int) (m : Nat) : itemBits (rs.map (fun r => (tcEncode r m, m))) = rs.length * m := by
  induction rs with
  | nil => simp [itemBits]
  | cons r rs ih =>
    simp only [itemBits, List.map_cons, List.sum_cons, List.length_cons] at *
    rw [ih]
    ring

@[simp] theorem frameResidualList_length (s : State) : (frameResidualList s).length = s.enc.spec.count := by
  simp [frameResidualList]

theorem itemBits_append (a b : List (Nat × Nat)) : itemBits (a ++ b) = itemBits a + itemBits b := by
  simp [itemBits]

/-- The bits of a frame (30_encoding.md R83, R88). -/
theorem itemBits_frameItems (f : Framing) (m : Nat) (rs : List Int) :
    itemBits (frameItems f m rs) =
      match f with
      | .dense => rs.length * m
      | .seeded32 => if rs = [] then 0 else 32 + (rs.length - 1) * m := by
  cases f with
  | dense => exact itemBits_map rs m
  | seeded32 =>
    cases rs with
    | nil => rfl
    | cons r rest =>
      have : itemBits ((seedBytes r).map (fun b => (b, 8))) = 32 := rfl
      simp only [frameItems, itemBits_append, this, itemBits_map]
      simp

/-! ### Decompressing -/

/-- What DNEXT does once its checks have passed, on a stream long enough (45_decompressor.md R162). -/
theorem decompressFrame_long (s : State) (w : Nat)
    (h : (frameWidths s.params.framing w s.dec.spec.count).sum ≤ 8 * s.dec.br.ilen.toNat)
    (hc : s.dec.br.ilen.toNat ≤ s.params.ibufCap) :
    decompressFrame w s =
      complete (predictInverse (loadResiduals
        (frameResiduals s.params.framing w (s.dec.br.codesFrom (frameWidths s.params.framing w s.dec.spec.count) 0))
        { s.dec.br with pos := (frameWidths s.params.framing w s.dec.spec.count).sum } s)) := by
  unfold decompressFrame
  rw [Reader.readAll_some _ _ (by show 0 + _ ≤ 8 * s.dec.br.ilen.toNat; omega)]
  have hp : ¬ 8 * s.params.ibufCap <
      (Reader.advance { s.dec.br with pos := 0 } (frameWidths s.params.framing w s.dec.spec.count).sum).pos := by
    show ¬ 8 * s.params.ibufCap < 0 + _
    omega
  dsimp only
  rw [if_neg hp]
  have e : Reader.codesFrom { s.dec.br with pos := 0 } (frameWidths s.params.framing w s.dec.spec.count) 0
      = s.dec.br.codesFrom (frameWidths s.params.framing w s.dec.spec.count) 0 := Reader.codesFrom_congr _ fun _ _ _ => rfl
  rw [e]
  simp only [Reader.advance, Nat.zero_add]

/-- What DNEXT does once its checks have passed, on a stream too short (45_decompressor.md R164). -/
theorem decompressFrame_short (s : State) (w : Nat)
    (h : 8 * s.dec.br.ilen.toNat < (frameWidths s.params.framing w s.dec.spec.count).sum) :
    decompressFrame w s = raise .streamUnderrun (underrunState s) := by
  unfold decompressFrame
  rw [Reader.readAll_none _ _ (Nat.zero_le _) (by show 8 * s.dec.br.ilen.toNat < 0 + _; omega)]

/-- What the inverse pass leaves in the machine (43_predictor.md R136, R138). -/
theorem predictInverse_spec (s : State) :
    ∃ h f : Mem 16,
      predictInverse s = (s.setDec { s.dec with history := h, hist := true }).setFout f
      ∧ (∀ k, k < s.dec.spec.count → h.read k = outputSample s.dec s.dec.res k
        ∧ f.read (pathKey s.params.scan s.dec.spec.cols.toNat k) = outputSample s.dec s.dec.res k)
      ∧ (∀ k, s.dec.spec.count ≤ k → h.read k = s.dec.history.read k)
      ∧ (∀ a, (∀ k, k < s.dec.spec.count → pathKey s.params.scan s.dec.spec.cols.toNat k ≠ a) → f.read a = s.fout.read a)
      ∧ (s.dec.history.wf → h.wf) ∧ (∀ m, s.dec.spec.count ≤ m → s.dec.history.below m → h.below m)
      ∧ h.covers s.dec.spec.count ∧ (frameInv s.fout → frameInv f) := by
  obtain ⟨-, h2, h3, h4, h5⟩ := inversePass_spec s s.dec.spec.count (le_refl _)
  obtain ⟨-, m2, m3, m4, m5⟩ := inversePass_mem s.params s.dec s.fout s.dec.spec.count (le_refl _)
  refine ⟨(inversePass s.params s.dec s.fout s.dec.spec.count).dec.history,
    (inversePass s.params s.dec s.fout s.dec.spec.count).fout, ?_, fun k hk => ⟨?_, h4 k hk⟩, fun k hk => ?_, h5, m2, m3, m4, m5⟩
  · unfold predictInverse
    simp only
    rw [h2]
  · rw [h3, if_pos hk]
  · rw [h3, if_neg (by omega)]

end Sys2Proof.Machine
end

