-- ==== Sys2Proof/Laws/PerInstr.lean ====
section
/-! SUPPORT. A statement about every command, one lemma per constructor: the fields of its word (30_encoding.md R71). -/

namespace Sys2Proof.Laws.EncodingFields

/-- The word of a well-formed command carries its opcode in bits 15:8 and its operand in bits 7:0. -/
def Statement (i : Instr) : Prop := i.wf → opField (encode i) = opcode i ∧ wField (encode i) = i.operand

theorem fields (i : Instr) (h : opcode i < 256) : Statement i := by
  intro hw
  have e : (encode i).toNat = opcode i * 256 + i.operand := by
    unfold encode
    rw [BitVec.toNat_ofNat]
    exact Nat.mod_eq_of_lt (by omega)
  unfold opField wField
  rw [e]
  omega

theorem cinit : Statement .cinit := fields _ (by decide)
theorem dinit : Statement .dinit := fields _ (by decide)
theorem tcenc (w : Nat) : Statement (.tcenc w) := fields _ (by simp [opcode])
theorem tcdec (w : Nat) : Statement (.tcdec w) := fields _ (by simp [opcode])
theorem bwrst : Statement .bwrst := fields _ (by decide)
theorem bwput (w : Nat) : Statement (.bwput w) := fields _ (by simp [opcode])
theorem bwfin : Statement .bwfin := fields _ (by decide)
theorem brrst : Statement .brrst := fields _ (by decide)
theorem brget (w : Nat) : Statement (.brget w) := fields _ (by simp [opcode])
theorem pfwd : Statement .pfwd := fields _ (by decide)
theorem pinv : Statement .pinv := fields _ (by decide)
theorem selw : Statement .selw := fields _ (by decide)
theorem cnext : Statement .cnext := fields _ (by decide)
theorem dnext (w : Nat) : Statement (.dnext w) := fields _ (by simp [opcode])

end Sys2Proof.Laws.EncodingFields
end

