-- ==== Sys2Proof/Tests/Slice0.lean ====
section
/-! SUPPORT. Tests: well-formedness, decoding, single steps on vectors of 95_test_vectors.md, and a witness for the hypotheses of
each statement that has any. A test uses parameters of its own, so that it can be evaluated. -/

namespace Sys2Proof.Tests

open Sys2Proof Sys2Proof.Machine

-- Many kernel evaluations at once would each hold a thread.
set_option Elab.async false

/-! ### Helpers -/

def params (scan : Scan) (framing : Framing) : Params :=
  { scan := scan, framing := framing, maxN := 20000, ibufCap := 300, obufCap := 50000 }

def base : State := State.afterReset (params .raster .dense) 0

/-- An outcome is a next state with a property. -/
def answers (r : Result) (p : State → Bool) : Bool :=
  match r with
  | .next t => p t
  | .fault _ => false
  | .refused _ => false

theorem answers_next {r : Result} {p : State → Bool} (h : answers r p = true) : ∃ t, r = .next t ∧ p t = true := by
  cases r with
  | next t => exact ⟨t, rfl, h⟩
  | fault _ => cases h
  | refused _ => cases h

def elems {w : Nat} (m : Mem w) (n : Nat) : List (BitVec w) := (List.range n).map m.read

def mem (w : Nat) (vs : List (BitVec w)) : Mem w := (Mem.unspecified w 0).writeFrom 0 vs

def frame (rows : List (List Sample)) : Mem 16 :=
  (rows.zipIdx.flatMap (fun r => r.1.zipIdx.map (fun c => (frameKey (r.2, c.2), c.1)))).foldl
    (fun m kv => m.write kv.1 kv.2) (.unspecified 16 0)

def cam (cols rows : BitVec 16) : CameraSpec := { cols := cols, rows := rows, fps := 9 }

/-- Both contexts constructed for `cols` by `rows`, both frames declared so, the input frame filled. -/
def both (p : Params) (cols rows : BitVec 16) (fin : List (List Sample)) : State :=
  let s := State.afterReset p 0
  { s with
    spec := cam cols rows
    finDims := { cols := cols, rows := rows }
    foutDims := { cols := cols, rows := rows }
    enc := { s.enc with spec := cam cols rows, valid := true }
    dec := { s.dec with spec := cam cols rows, valid := true }
    fin := frame fin }

def f0 : List (List Sample) := [[10, 12, 11], [20, 18, 19]]

def f1 : List (List Sample) := [[11, 13, 12], [21, 19, 20]]

/-- Room for two bytes of output. -/
def tiny : State := State.afterReset { params .raster .dense with maxN := 1, obufCap := 2 } 0

def dense : State := both (params .raster .dense) 3 2 f0

def seeded : State := both (params .raster .seeded32) 3 2 f0

/-- The input stream set. -/
def withStream (s : State) (bytes : List Byte) (pos : Nat) : State :=
  s.setReader { pos := pos, ilen := BitVec.ofNat 32 bytes.length, ibuf := mem 8 bytes }

/-- The writer set. -/
def withWriter (s : State) (bytes : List Byte) (acc : Byte) (nb : Fin 8) : State :=
  s.setWriter { acc := acc, nb := nb, olen := BitVec.ofNat 32 bytes.length, obuf := mem 8 bytes }

def withOpa (s : State) (v : Word) : State := { s with opa := v }

def withRese (s : State) (vs : List Word) : State := s.setEnc { s.enc with res := mem 32 vs }

def withHistory (s : State) (vs : List Sample) : State := s.setEnc { s.enc with hist := true, history := mem 16 vs }

def withResd (s : State) (vs : List Word) : State := s.setDec { s.dec with res := mem 32 vs }

def stream : List Byte := [0x50, 0xBE, 0x9F, 0x04]

/-! ### Well-formedness: each check refuses an ill-formed term -/

theorem test_wf_refuses_operands_above_255 :
    ¬ (Instr.tcenc 256).wf ∧ ¬ (Instr.tcdec 256).wf ∧ ¬ (Instr.bwput 256).wf ∧ ¬ (Instr.brget 256).wf
      ∧ ¬ (Instr.dnext 256).wf ∧ (Instr.dnext 255).wf ∧ Instr.cinit.wf := by decide

theorem test_legal_refuses_bad_parameters :
    ¬ ({ params .raster .dense with maxN := 0 } : Params).legal
      ∧ ¬ ({ params .raster .dense with obufCap := 39999 } : Params).legal
      ∧ ¬ ({ params .raster .seeded32 with obufCap := 40003 } : Params).legal
      ∧ ¬ ({ params .raster .dense with obufCap := 2 ^ 32 } : Params).legal
      ∧ (params .serpentine .seeded32).legal := by decide

theorem test_bad_camera_specs :
    (cam 0 1).bad base.params ∧ (cam 1 0).bad base.params ∧ (cam 20001 1).bad base.params
      ∧ ¬ (cam 20000 1).bad base.params := by decide

/-! ### Decoding: words written out from the opcode table (30_encoding.md R72, 95_test_vectors.md 2.8) -/

theorem test_decode_construct :
    decode 0b0000000100000000#16 = .ok .cinit ∧ decode 0b0000001000000000#16 = .ok .dinit := by decide

theorem test_decode_twos_complement :
    decode 0b0001000000000100#16 = .ok (.tcenc 4) ∧ decode 0b0001000100001110#16 = .ok (.tcdec 14) := by decide

theorem test_decode_bitstream :
    decode 0b0010000000000000#16 = .ok .bwrst ∧ decode 0b0010000100000101#16 = .ok (.bwput 5)
      ∧ decode 0b0010001000000000#16 = .ok .bwfin ∧ decode 0b0010100000000000#16 = .ok .brrst
      ∧ decode 0b0010100100010000#16 = .ok (.brget 16) := by decide

theorem test_decode_predictor_and_selector :
    decode 0b0011000000000000#16 = .ok .pfwd ∧ decode 0b0011000100000000#16 = .ok .pinv
      ∧ decode 0b0011100000000000#16 = .ok .selw := by decide

theorem test_decode_next :
    decode 0b0100000000000000#16 = .ok .cnext ∧ decode 0b0100000100001110#16 = .ok (.dnext 14)
      ∧ decode 0x4100#16 = .ok (.dnext 0) ∧ decode 0x41FF#16 = .ok (.dnext 255) := by decide

theorem test_decode_illegal :
    decode 0x0000#16 = .error .opcode ∧ decode 0x0300#16 = .error .opcode ∧ decode 0x1200#16 = .error .opcode
      ∧ decode 0x4200#16 = .error .opcode ∧ decode 0xFFFF#16 = .error .opcode
      ∧ decode 0x0101#16 = .error .operand ∧ decode 0x2001#16 = .error .operand
      ∧ decode 0x22FF#16 = .error .operand ∧ decode 0x4001#16 = .error .operand := by decide

theorem test_table_words :
    decodeTableWord 16 0x2105 = some (.bwput 5) ∧ decodeTableWord 16 0x4000 = some .cnext
      ∧ decodeTableWord 16 0x0000 = none := by decide

theorem test_assembly : assembly (.bwput 5) = "BWPUT 5" ∧ assembly .cnext = "CNEXT" ∧ assembly (.dnext 14) = "DNEXT 14" := by
  decide +kernel

theorem test_puts_expands : puts 7 5 = [.writeReg 2 7, .writeReg 0 0x1005, .copyReg 3 2, .writeReg 0 0x2105] := by decide

/-! ### Single steps (vectors of 95_test_vectors.md section 2, rules where none is listed) -/

/-- R151: `STATUS = 0x10`. -/
theorem test_cinit :
    answers (exec .cinit { base with spec := cam 160 120 })
      (fun t => hostRead t 0x01 = 0x10 && hostRead t 0x10 = 160 && hostRead t 0x11 = 120 && hostRead t 0x12 = 9) = true := by
  decide +kernel

theorem test_cinit_bad_spec :
    answers (exec .cinit { dense with spec := cam 3 0 }) (fun t => t.err = .badOperand && t.enc = dense.enc) = true := by
  decide +kernel

/-- R161: `STATUS = 0x70`. -/
theorem test_dinit :
    answers (exec .dinit { base with spec := cam 3 2, enc := { base.enc with valid := true, hist := true } })
      (fun t => hostRead t 0x01 = 0x70 && hostRead t 0x14 = 3 && hostRead t 0x15 = 2) = true := by decide +kernel

theorem test_tcenc : answers (exec (.tcenc 4) (withOpa base 0xFFFFFFFF)) (fun t => t.rslt = 15) = true := by decide +kernel

theorem test_tcenc_truncates : answers (exec (.tcenc 4) (withOpa base (-9))) (fun t => t.rslt = 7) = true := by decide +kernel

theorem test_tcdec : answers (exec (.tcdec 5) (withOpa base 0x10)) (fun t => t.rslt = 0xFFFFFFF0) = true := by decide +kernel

theorem test_tcdec_ignores_upper_bits :
    answers (exec (.tcdec 4) (withOpa base 0xFFFFFFF5)) (fun t => t.rslt = 5) = true := by decide +kernel

theorem test_bwrst_discards_pending_bits :
    answers (exec .bwrst (withWriter base [0xF8] 0x20 3)) (fun t => hostRead t 0x05 = 0 && t.enc.bw.nb = 0 && t.enc.bw.acc = 0)
      = true := by decide +kernel

theorem test_bwput :
    answers (exec (.bwput 5) (withOpa (withWriter base [] 0xF0 4) 16))
      (fun t => hostObuf t 0 = 0xF8 && t.enc.bw.acc = 0 && t.enc.bw.nb = 1 && t.enc.bw.olen = 1) = true := by decide +kernel

theorem test_bwput_ignores_upper_bits :
    answers (exec (.bwput 9) (withOpa (withWriter base [] 0x20 3) 0xFFFFFFFF))
      (fun t => hostObuf t 0 = 0x3F && t.enc.bw.acc = 0xF0 && t.enc.bw.nb = 4) = true := by decide +kernel

theorem test_bwfin :
    answers (exec .bwfin (withWriter base [0xAB] 0x80 1))
      (fun t => elems t.enc.bw.obuf 2 = [0xAB, 0x80] && t.enc.bw.olen = 2 && t.enc.bw.nb = 0) = true := by decide +kernel

theorem test_bwfin_appends_nothing_when_aligned :
    answers (exec .bwfin (withWriter base [0xAB] 0 0)) (fun t => t.enc.bw.olen = 1) = true := by decide +kernel

theorem test_brrst : answers (exec .brrst (withStream base stream 17)) (fun t => t.dec.br.pos = 0) = true := by decide +kernel

theorem test_brget_spans_three_bytes :
    answers (exec (.brget 16) (withStream base [0x12, 0x34, 0x56] 4)) (fun t => t.rslt = 0x2345 && t.dec.br.pos = 20) = true := by
  decide +kernel

theorem test_brget_underrun :
    answers (exec (.brget 8) (withStream base [0xF8, 0x40, 0x00] 17)) (fun t => t.err = .streamUnderrun && t.dec.br.pos = 17)
      = true := by decide +kernel

theorem test_selw_asymmetric :
    answers (exec .selw (withRese (both base.params 3 1 []) [-16, 16, 0])) (fun t => hostRead t 0x04 = 6) = true := by
  decide +kernel

theorem test_selw_overflow :
    answers (exec .selw (withRese (both base.params 1 1 []) [0x8000])) (fun t => t.err = .bitWidthOverflow && t.enc.width = 0)
      = true := by decide +kernel

theorem test_pfwd :
    answers (exec .pfwd dense)
      (fun t => elems t.enc.res 6 = [10, 2, -1, 9, -2, 1] && elems t.enc.history 6 = [10, 12, 11, 20, 18, 19]) = true := by
  decide +kernel

/-- F2 after F1 under SERPENTINE. -/
theorem test_pfwd_serpentine_history :
    answers (exec .pfwd (withHistory (both (params .serpentine .dense) 3 2 [[11, 14, 14], [24, 19, 20]]) [11, 13, 12, 20, 19, 21]))
      (fun t => elems t.enc.res 6 = [0, 1, 1, -2, 0, 3]) = true := by decide +kernel

theorem test_pinv_wraps :
    answers (exec .pinv (withResd (both base.params 3 1 []) [-1, 0, 2])) (fun t => elems t.fout 3 = [65535, 65535, 1]) = true := by
  decide +kernel

theorem test_pinv_accumulator_wraps :
    answers (exec .pinv (withResd (both base.params 2 1 []) [2147483647, 1])) (fun t => elems t.fout 2 = [65535, 0]) = true := by
  decide +kernel

theorem test_cnext :
    answers (exec .cnext dense) (fun t => elems t.enc.bw.obuf 4 = stream && t.enc.bw.olen = 4 && t.enc.width = 5) = true := by
  decide +kernel

theorem test_cnext_overflow :
    answers (exec .cnext (both base.params 2 1 [[0, 65535]]))
      (fun t => t.err = .bitWidthOverflow && t.enc.width = 0 && t.enc.bw.olen = 0 && elems t.enc.history 2 = [0, 65535]) = true := by
  decide +kernel

theorem test_dnext :
    answers (exec (.dnext 5) (withStream dense stream 7))
      (fun t => (List.range 3).map (hostFout t 0) = [10, 12, 11] && (List.range 3).map (hostFout t 1) = [20, 18, 19]
        && t.dec.br.pos = 30 && t.dec.hist) = true := by decide +kernel

theorem test_dnext_wrong_width :
    answers (exec (.dnext 4) (withStream dense stream 0))
      (fun t => t.err = .ok && (List.range 3).map (hostFout t 1) = [65534, 65527, 65526]) = true := by decide +kernel

theorem test_illegal_word : answers (runCommand { base with cmd := 0x0000 }) (fun t => t.err = .illegalCommand) = true := by
  decide +kernel

theorem test_first_step_after_reset :
    answers (step (State.reset.withFetchWord 16 0x2110)) (fun t => t.cmd = 0x2110 && t.enc.bw.olen = 2) = true := by
  decide +kernel

/-! ### Witnesses: concrete inputs that meet the hypotheses of each statement -/

theorem witness_DecodeFollowsTheOpcodeTable :
    decode 0x1000#16 = .ok (.tcenc 0) ∧ decode 0x1111#16 = .ok (.tcdec 17) ∧ decode 0x21FF#16 = .ok (.bwput 255)
      ∧ decode 0x2900#16 = .ok (.brget 0) ∧ decode 0x4111#16 = .ok (.dnext 17)
      ∧ dense.dec.valid = true ∧ dense.foutDims = dense.dec.spec.dims := by decide +kernel

theorem witness_IllegalWordsAndUnconstructedContextsRaise :
    opField 0x0000#16 ∉ [0x01, 0x02, 0x10, 0x11, 0x20, 0x21, 0x22, 0x28, 0x29, 0x30, 0x31, 0x38, 0x40, 0x41]
      ∧ opField 0xFF00#16 ∉ [0x01, 0x02, 0x10, 0x11, 0x20, 0x21, 0x22, 0x28, 0x29, 0x30, 0x31, 0x38, 0x40, 0x41]
      ∧ (opField 0x4001#16 ∈ [0x01, 0x02, 0x20, 0x22, 0x28, 0x30, 0x31, 0x38, 0x40] ∧ wField 0x4001#16 ≠ 0)
      ∧ (opField 0x01FF#16 ∈ [0x01, 0x02, 0x20, 0x22, 0x28, 0x30, 0x31, 0x38, 0x40] ∧ wField 0x01FF#16 ≠ 0) := by decide

theorem witness_IllegalWordsAndUnconstructedContextsRaise_unconstructed :
    (Instr.cnext.wf ∧ encode .cnext = ({ base with cmd := 0x4000 } : State).cmd ∧ base.enc.valid = false)
      ∧ ((Instr.dnext 255).wf ∧ encode (.dnext 255) = ({ base with cmd := 0x41FF } : State).cmd ∧ base.dec.valid = false) := by
  decide +kernel

theorem witness_StepRunsTheDeliveredCommand :
    ({ base with host := [.copyOut, .reset] } : State).host = .copyOut :: [.reset]
      ∧ ({ base with host := [.writeReg 0x00 0xABCD2105] } : State).host = .writeReg 0x00 0xABCD2105 :: []
      ∧ decode (commandWord 0xABCD2105) = .ok (.bwput 5)
      ∧ ({ base with host := [.writeReg 0x00 0xABCD4001] } : State).host = .writeReg 0x00 0xABCD4001 :: []
      ∧ decode (commandWord 0xABCD4001) = .error .operand ∧ decode (commandWord 0xFFFF) = .error .opcode
      ∧ 0x41FF < 2 ^ 16 ∧ decode (BitVec.ofNat 16 0x41FF) = .ok (.dnext 255) ∧ base.host = [] := by decide +kernel

/-- The clauses at the ends of their ranges; `0x16` is a register, `0x17` is not. -/
theorem witness_HostRegisterAccess :
    (0x07 ∈ [0x07, 0x0B, 0x13] ∨ 0x16 < 0x07) ∧ (0x17 ∈ [0x07, 0x0B, 0x13] ∨ 0x16 < 0x17)
      ∧ 0x16 ∈ [0x01, 0x03, 0x04, 0x05, 0x07, 0x0B, 0x10, 0x11, 0x12, 0x13, 0x14, 0x15, 0x16]
      ∧ (0x06 ∈ [0x02, 0x06, 0x08, 0x09, 0x0A, 0x0C, 0x0D, 0x0E, 0x0F] ∧ (300#32).toNat ≤ base.params.ibufCap)
      ∧ hostRead (writeReg base .specCols 0xFFFFFFFF) 0x08 = 0xFFFF := by decide +kernel

theorem witness_CopyoutCopiesTheOutputStream :
    dense.enc.bw.olen.toNat ≤ dense.params.ibufCap
      ∧ (withWriter dense (List.replicate 300 1) 0 0).enc.bw.olen.toNat ≤ dense.params.ibufCap
      ∧ dense.params.ibufCap < (withWriter dense (List.replicate 301 1) 0 0).enc.bw.olen.toNat := by decide +kernel

theorem witness_HostElementWrites :
    framePlace 65534 65534 ∧ framePlace 0 0 ∧ ((0 : Nat), (0 : Nat)) ≠ (65534, 65534) ∧ (65535 ≤ 65535 ∨ 65535 ≤ 0)
      ∧ (65535 ≤ 0 ∨ 65535 ≤ 65535) ∧ 299 < base.params.ibufCap ∧ base.params.ibufCap ≤ 300 ∧ 19999 < base.params.maxN
      ∧ base.params.maxN ≤ 20000 := by decide +kernel

theorem witness_Inv_fresh : Inv base := by decide +kernel

theorem witness_Inv_constructed : Inv (withStream (withWriter dense [0xF8] 0x80 1) stream 3) := by decide +kernel

/-- A step from a state that meets the invariant answers a next state. -/
theorem witness_StepKeepsTheInvariant :
    let s := (withStream (withWriter dense [0xF8] 0x80 1) stream 3).withFetchWord 16 0x4000
    Inv s ∧ ∃ t, step s = .next t :=
  ⟨by decide +kernel, by
    obtain ⟨t, h, -⟩ := answers_next (r := step ((withStream (withWriter dense [0xF8] 0x80 1) stream 3).withFetchWord 16 0x4000))
      (p := fun _ => true) (by decide +kernel)
    exact ⟨t, h⟩⟩

theorem witness_NoStepChangesTheParameters : ∃ t, step (base.withFetchWord 16 0x2000) = .next t := by
  obtain ⟨t, h, -⟩ := answers_next (r := step (base.withFetchWord 16 0x2000)) (p := fun _ => true) (by decide +kernel)
  exact ⟨t, h⟩

/-- The premise on BWPUT at its bound: the last free bits of `OBUF`. -/
theorem witness_FirstErrorInCheckingOrderIsReported :
    Inv (withWriter tiny [1] 0 0) ∧ (withWriter tiny [1] 0 0).enc.bw.bytesWith 8 ≤ tiny.params.obufCap
      ∧ decode ({ tiny with cmd := 0x4001 } : State).cmd = .error .operand := by
  exact ⟨by decide +kernel, by decide +kernel, by decide⟩

theorem witness_UnconstructedContextIsIllegal :
    base.enc.valid = false ∧ base.dec.valid = false ∧ ∃ t, exec (.brget 17) base = .next t :=
  ⟨rfl, rfl, by
    obtain ⟨t, h, -⟩ := answers_next (r := exec (.brget 17) base) (p := fun _ => true) (by decide +kernel)
    exact ⟨t, h⟩⟩

/-- Each dimension wrong alone, and a 2 by 3 frame for a 3 by 2 context. -/
theorem witness_DimensionMismatchChangesNothingElse :
    dense.enc.valid = true ∧ dense.dec.valid = true
      ∧ (({ cols := 2, rows := 2 } : Dims).cols ≠ dense.enc.spec.cols)
      ∧ (({ cols := 3, rows := 3 } : Dims).rows ≠ dense.dec.spec.rows)
      ∧ (({ cols := 2, rows := 3 } : Dims).cols ≠ dense.dec.spec.cols) := by decide +kernel

theorem witness_BadOperandChangesNothingElse :
    dense.dec.valid = true ∧ dense.foutDims = dense.dec.spec.dims ∧ (17 = 0 ∨ 16 < 17) ∧ (cam 0 1).cols = 0 ∧ (cam 1 0).rows = 0
      ∧ base.params.maxN < (cam 20001 1).cols.toNat * (cam 20001 1).rows.toNat := by decide +kernel

theorem witness_CommandsWriteOnlyTheirRegisters :
    (∃ t, exec .cnext dense = .next t) ∧ (∃ t, exec (.dnext 5) (withStream dense stream 0) = .next t) := by
  constructor
  · obtain ⟨t, h, -⟩ := answers_next (r := exec .cnext dense) (p := fun _ => true) (by decide +kernel)
    exact ⟨t, h⟩
  · obtain ⟨t, h, -⟩ := answers_next (r := exec (.dnext 5) (withStream dense stream 0)) (p := fun _ => true) (by decide +kernel)
    exact ⟨t, h⟩

/-- Leaving and entering HasHistory. -/
theorem witness_PredictorStateTransitions :
    (∃ t, exec .cinit { dense with enc := { dense.enc with hist := true } } = .next t ∧ t.enc.hist = false)
      ∧ (∃ t, exec .pfwd dense = .next t ∧ t.enc.hist = true) := by
  constructor
  · obtain ⟨t, h, p⟩ := answers_next (r := exec .cinit { dense with enc := { dense.enc with hist := true } })
      (p := fun t => !t.enc.hist) (by decide +kernel)
    exact ⟨t, h, by simpa using p⟩
  · obtain ⟨t, h, p⟩ := answers_next (r := exec .pfwd dense) (p := fun t => t.enc.hist) (by decide +kernel)
    exact ⟨t, h, p⟩

/-- One command of each group, which a next state answers. -/
theorem witness_ContextsDoNotInterfere :
    answers (exec .cnext { dense with fout := frame f1 }) (fun _ => true) = true
      ∧ answers (exec .pinv { dense with fin := frame f1 }) (fun _ => true) = true
      ∧ answers (exec (.tcenc 4) dense) (fun _ => true) = true := by decide +kernel

/-- For PathIsABijectionOntoTheGrid: the smallest grid, and an odd row of SERPENTINE. -/
theorem witness_PathIsABijectionOntoTheGrid :
    1 ≤ 1 ∧ 0 < 1 * 1 ∧ path .serpentine 1 0 = (0, 0) ∧ 5 < 3 * 2 ∧ path .serpentine 3 5 = (1, 0) ∧ path .raster 3 5 = (1, 2) := by
  decide

/-- For PathFollowsTheScanOrder: the step from an even row to an odd one and back. -/
theorem witness_PathFollowsTheScanOrder :
    (2 / 3) % 2 = 0 ∧ (3 / 3) % 2 = 1 ∧ 1 ≤ 3 ∧ path .serpentine 3 2 = (0, 2) ∧ path .serpentine 3 3 = (1, 2)
      ∧ path .serpentine 3 6 = (2, 0) := by decide

/-- For TCENC, TCDEC and the bijection: widths at both ends of the legal range, and the nearest that are not. -/
theorem witness_goodWidth : goodWidth 1 ∧ goodWidth 16 ∧ ¬ goodWidth 0 ∧ ¬ goodWidth 17 ∧ inWidth 1 (-1) ∧ inWidth 16 32767 := by
  decide

theorem witness_BwputAppendsTheCodeBits :
    let s := withWriter tiny [1] 0xFE 7
    goodWidth 1 ∧ s.params.legal ∧ s.enc.bw.bytesWith 1 ≤ s.params.obufCap ∧ ¬ s.enc.bw.bytesWith 2 ≤ s.params.obufCap := by
  decide +kernel

theorem witness_BwfinFlushesThePartialByte :
    let s := withWriter tiny [1] 0x80 1
    s.params.legal ∧ s.enc.bw.inv s.params := by decide +kernel

/-- Both sides of the bound: 15 bits written, one more runs, two more do not. -/
theorem witness_BitsBeyondTheOutputBufferAreRefused :
    let s := withWriter tiny [1] 0xFE 7
    goodWidth 2 ∧ 8 * s.params.obufCap < 8 * s.enc.bw.olen.toNat + s.enc.bw.nb.val + 2
      ∧ goodWidth 1 ∧ ¬ 8 * s.params.obufCap < 8 * s.enc.bw.olen.toNat + s.enc.bw.nb.val + 1
      ∧ answers (exec (.bwput 2) s) (fun _ => true) = false ∧ answers (exec (.bwput 1) s) (fun _ => true) = true := by
  decide +kernel

/-- After a BWFIN on 9 bits its padding counts as written (log 12): 7 more bits are past the bound. -/
theorem witness_BitsBeyondTheOutputBufferAreRefused_after_bwfin :
    goodWidth 7 ∧ answers (exec .bwfin (withWriter tiny [1] 0x80 1)) (fun t =>
      decide (8 * t.params.obufCap < 8 * t.enc.bw.olen.toNat + t.enc.bw.nb.val + 7)
        && !answers (exec (.bwput 7) t) (fun _ => true)) = true := by decide +kernel

theorem witness_WriterClosedForm :
    (∀ cw ∈ [(15, 4), (16, 5), (128, 8)], goodWidth cw.2) ∧ (itemBits [(15, 4), (16, 5), (128, 8)] + 7) / 8 < 2 ^ 32 := by decide

/-- A read that ends exactly at the end of the stream. -/
theorem witness_BrgetGivesTheNextBits :
    let s := withStream base [0xF8, 0x40, 0x00] 8
    goodWidth 16 ∧ s.dec.br.pos + 16 ≤ 8 * s.dec.br.ilen.toNat ∧ s.dec.br.ilen.toNat ≤ s.params.ibufCap := by decide +kernel

theorem witness_BrgetUnderrunKeepsTheCursor :
    let s := withStream base [0xF8, 0x40, 0x00] 17
    goodWidth 8 ∧ 8 * s.dec.br.ilen.toNat < s.dec.br.pos + 8
      ∧ (goodWidth 7 ∧ s.dec.br.pos + 7 ≤ 8 * s.dec.br.ilen.toNat ∧ s.dec.br.ilen.toNat ≤ s.params.ibufCap) := by decide +kernel

theorem witness_PackedValuesReadBack :
    let items := [(0xFFFFFFF5, 4), (1, 1)]
    let f := (Writer.putAll items (.empty 0)).finish
    (∀ cw ∈ items, goodWidth cw.2) ∧ (itemBits items + 7) / 8 < 2 ^ 32
      ∧ ∀ j, j < f.olen.toNat → (mem 8 [0x58]).read j = f.obuf.read j := by decide +kernel

theorem witness_SelwSelectsTheLeastWidth :
    let s := withRese (both base.params 2 1 []) [32767, -32768]
    s.enc.valid = true ∧ s.enc.spec.count ≤ s.params.maxN ∧ ∀ r ∈ residuals s.enc.res s.enc.spec.count, inWidth 16 r := by
  decide +kernel

theorem witness_SelwReportsBitWidthOverflow :
    let s := withRese (both base.params 1 1 []) [-32769]
    s.enc.valid = true ∧ s.enc.spec.count ≤ s.params.maxN ∧ ∃ r ∈ residuals s.enc.res s.enc.spec.count, ¬ inWidth 16 r := by
  decide +kernel

/-- For PfwdWritesResidualsAndHistory and PinvWritesTheReconstructedFrame. -/
theorem witness_encReady_decReady : encReady dense ∧ decReady dense ∧ paired dense := by decide +kernel

theorem witness_PredictorRoundTrip :
    paired dense ∧ encReady dense ∧ decReady dense
      ∧ ∃ (s1 : State) (m : Mem 32), exec .pfwd dense = .next s1
        ∧ ∀ k, k < dense.enc.spec.count → m.read k = s1.enc.res.read k := by
  obtain ⟨t, h, -⟩ := answers_next (r := exec .pfwd dense) (p := fun _ => true) (by decide +kernel)
  exact ⟨witness_encReady_decReady.2.2, witness_encReady_decReady.1, witness_encReady_decReady.2.1, t, t.enc.res, h, fun _ _ => rfl⟩

theorem witness_ConstructionValues :
    let s := { base with spec := cam 1 20000 }
    s.spec.cols ≠ 0 ∧ s.spec.rows ≠ 0 ∧ s.spec.cols.toNat * s.spec.rows.toNat ≤ s.params.maxN := by decide +kernel

theorem witness_CnextPacksTheFrame :
    encReady dense ∧ dense.params.legal ∧ dense.params.framing = .dense ∧ ∀ r ∈ frameResidualList dense, inWidth 16 r := by
  decide +kernel

/-- A seed that needs 18 bits does not matter under SEEDED32. -/
theorem witness_CnextPacksTheSeededFrame :
    let s := both (params .raster .seeded32) 2 1 [[65535, 65535]]
    encReady s ∧ s.params.legal ∧ s.params.framing = .seeded32 ∧ 1 ≤ s.enc.spec.count
      ∧ ∀ r ∈ (frameResidualList s).drop 1, inWidth 16 r := by decide +kernel

theorem witness_CnextOverflowAdvancesThePredictor :
    let s := both base.params 2 1 [[0, 65535]]
    encReady s ∧ ∃ r ∈ widthResiduals s.params.framing (frameResidualList s), ¬ inWidth 16 r := by decide +kernel

theorem witness_SmallSamplesNeverOverflow :
    let s := withHistory (both base.params 2 1 [[16383, 0]]) [0, 16383]
    encReady s ∧ s.params.legal ∧ ∀ k, k < s.enc.spec.count → (inputSample s k).toNat < 2 ^ 14
      ∧ (s.enc.hist = true → (s.enc.history.read k).toNat < 2 ^ 14) := by decide +kernel

theorem witness_DnextWritesTheDecodedFrame :
    let s := withStream dense stream 0
    decReady s ∧ goodWidth 5 ∧ s.params.framing = .dense ∧ 5 * s.dec.spec.count ≤ 8 * s.dec.br.ilen.toNat
      ∧ s.dec.br.ilen.toNat ≤ s.params.ibufCap := by decide +kernel

theorem witness_DnextReadsTheSeededFrame :
    let s := withStream seeded [10, 0, 0, 0, 0x17, 0xD3, 0xC1, 0x00] 0
    decReady s ∧ goodWidth 5 ∧ s.params.framing = .seeded32 ∧ 1 ≤ s.dec.spec.count
      ∧ 32 + 5 * (s.dec.spec.count - 1) ≤ 8 * s.dec.br.ilen.toNat ∧ s.dec.br.ilen.toNat ≤ s.params.ibufCap := by decide +kernel

theorem witness_DnextUnderrunKeepsTheHistory :
    let s := withStream dense stream 0
    decReady s ∧ goodWidth 6 ∧ 8 * s.dec.br.ilen.toNat < (frameWidths s.params.framing 6 s.dec.spec.count).sum := by decide +kernel

/-- Surplus bytes and padding bits that are not 0. -/
theorem witness_DnextIgnoresPaddingAndSurplus :
    let s := withStream dense stream 0
    let m := mem 8 [0x50, 0xBE, 0x9F, 0x07, 0xFF, 0xFF]
    decReady s ∧ goodWidth 5 ∧ (frameWidths s.params.framing 5 s.dec.spec.count).sum ≤ 8 * s.dec.br.ilen.toNat
      ∧ (frameWidths s.params.framing 5 s.dec.spec.count).sum ≤ 8 * (6#32).toNat ∧ s.dec.br.ilen.toNat ≤ s.params.ibufCap
      ∧ (6#32).toNat ≤ s.params.ibufCap
      ∧ (∀ p, p < (frameWidths s.params.framing 5 s.dec.spec.count).sum →
        ({ s.dec.br with ibuf := m } : Reader).bit p = s.dec.br.bit p)
      ∧ answers (exec (.dnext 5) s) (fun _ => true) = true := by decide +kernel

theorem witness_CompressedFrameRoundTrip :
    dense.params.legal ∧ paired dense ∧ ¬ dense.enc.spec.bad dense.params ∧ dense.finDims = dense.enc.spec.dims
      ∧ dense.foutDims = dense.enc.spec.dims
      ∧ ∃ s1 s2, exec .cnext dense = .next s1 ∧ s1.err = .ok ∧ copyOut s1 = .next s2 := by
  obtain ⟨t, h, p⟩ := answers_next (r := exec .cnext dense)
    (p := fun t => t.err = .ok && answers (copyOut t) (fun _ => true)) (by decide +kernel)
  obtain ⟨p1, p2⟩ := Bool.and_eq_true_iff.1 p
  obtain ⟨u, hu, -⟩ := answers_next p2
  exact ⟨by decide +kernel, by decide +kernel, by decide +kernel, by decide +kernel, by decide +kernel, t, u, h, of_decide_eq_true p1, hu⟩

/-- One frame relayed, a second one compressed and copied out. -/
theorem witness_FrameSequenceRoundTrip :
    dense.params.legal ∧ dense.finDims = dense.spec.dims ∧ dense.foutDims = dense.spec.dims
      ∧ ∃ s1 s2 s c d, exec .cinit dense = .next s1 ∧ s1.err = .ok ∧ exec .dinit s1 = .next s2 ∧ s2.err = .ok
        ∧ relayedAll [frame f0] s2 s ∧ exec .cnext (s.setFin (frame f1)) = .next c ∧ c.err = .ok ∧ copyOut c = .next d := by
  refine ⟨by decide +kernel, by decide +kernel, by decide +kernel, ?_⟩
  obtain ⟨s1, h1, p⟩ := answers_next (r := exec .cinit dense)
    (p := fun s1 => s1.err = .ok && answers (exec .dinit s1) (fun s2 => s2.err = .ok
      && answers (exec .cnext (s2.setFin (frame f0))) (fun a => a.err = .ok && answers (copyOut a) (fun b =>
        answers (exec (.dnext a.enc.width.toNat) b) (fun s =>
          answers (exec .cnext (s.setFin (frame f1))) (fun c => c.err = .ok && answers (copyOut c) (fun _ => true)))))))
    (by decide +kernel)
  obtain ⟨e1, p⟩ := Bool.and_eq_true_iff.1 p
  obtain ⟨s2, h2, p⟩ := answers_next p
  obtain ⟨e2, p⟩ := Bool.and_eq_true_iff.1 p
  obtain ⟨a, ha, p⟩ := answers_next p
  obtain ⟨ea, p⟩ := Bool.and_eq_true_iff.1 p
  obtain ⟨b, hb, p⟩ := answers_next p
  obtain ⟨s, hs, p⟩ := answers_next p
  obtain ⟨c, hc, p⟩ := answers_next p
  obtain ⟨ec, p⟩ := Bool.and_eq_true_iff.1 p
  obtain ⟨d, hd, -⟩ := answers_next p
  exact ⟨s1, s2, s, c, d, h1, of_decide_eq_true e1, h2, of_decide_eq_true e2,
    ⟨s, ⟨a, b, ha, of_decide_eq_true ea, hb, hs⟩, rfl⟩, hc, of_decide_eq_true ec, hd⟩

end Sys2Proof.Tests
end

section
/-! What one step does: the host's next move, and the command that a write to `CMD` delivers (00_scope.md R12, 10_state.md R20). -/

namespace Sys2Proof.Machine

/-! ### The next move -/

theorem step_of_host_nil {s : State} (h : s.host = []) : step s = .next s := by
  simp only [step, nextMove, h]

theorem step_of_host_cons {s : State} {m : HostMove} {rest : List HostMove} (h : s.host = m :: rest) :
    step s = hostMove m { s with host := rest } := by
  simp only [step, nextMove, h]

/-! ### The moves that are one operation each -/

@[simp] theorem hostMove_writeReg (n : Nat) (v : Word) (s : State) : hostMove (.writeReg n v) s = hostWrite n v s := rfl

@[simp] theorem hostMove_copyReg (src dst : Nat) (s : State) :
    hostMove (.copyReg src dst) s = hostWrite dst (hostRead s src) s := rfl

@[simp] theorem hostMove_copyOut (s : State) : hostMove .copyOut s = copyOut s := rfl

@[simp] theorem hostMove_reset (s : State) : hostMove .reset s = .next (hardReset s) := rfl

/-! ### The command word -/

theorem runCommand_of_decode_ok {s : State} {i : Instr} (h : decode s.cmd = .ok i) : runCommand s = exec i s := by
  simp only [runCommand, h]

theorem runCommand_of_decode_error {s : State} {r : Reject} (h : decode s.cmd = .error r) :
    runCommand s = .next { s with err := .illegalCommand } := by
  simp only [runCommand, h]
  rfl

/-- A host write to register number 0 delivers the low 16 bits to `CMD` and runs them (30_encoding.md R70). -/
theorem hostWrite_cmd (v : Word) (s : State) : hostWrite 0x00 v s = runCommand { s with cmd := commandWord v } := rfl

/-- Delivering a 16-bit word through the 32-bit register write loses no bit of it. -/
theorem commandWord_ofNat_mod (w : Nat) : commandWord (BitVec.ofNat 32 (w % 2 ^ 16)) = BitVec.ofNat 16 w := by
  apply BitVec.eq_of_toNat_eq
  simp only [commandWord, BitVec.toNat_setWidth, BitVec.toNat_ofNat]
  omega

/-! ### A step that delivers a command word -/

theorem step_of_host_cmd {s : State} {v : Word} {rest : List HostMove} (h : s.host = .writeReg 0x00 v :: rest) :
    step s = runCommand { s with host := rest, cmd := commandWord v } := by
  rw [step_of_host_cons h, hostMove_writeReg, hostWrite_cmd]

/-- The word placed by `withFetchWord` is the next one run, and the host's other moves stay pending behind it. -/
theorem step_withFetchWord (s : State) (w : Nat) :
    step (s.withFetchWord 16 w) = runCommand { s with cmd := BitVec.ofNat 16 w } := by
  have hhost : (s.withFetchWord 16 w).host = .writeReg 0x00 (BitVec.ofNat 32 (w % 2 ^ 16)) :: s.host := rfl
  rw [step_of_host_cmd hhost, commandWord_ofNat_mod]
  rfl

/-- Settles O5: each clause is one of the rules above, a delivered word split on whether it decodes. -/
theorem stepRunsTheDeliveredCommand : Obligations.StepRunsTheDeliveredCommand := by
  unfold Obligations.StepRunsTheDeliveredCommand
  refine ⟨?next, ?write, ?copy, ?outAndReset, ?legal, ?illegal, ?fetch, ?idle⟩
  case next => exact fun s m rest hhost => step_of_host_cons hhost
  case write => exact fun s n v => hostMove_writeReg n v s
  case copy => exact fun s src dst => hostMove_copyReg src dst s
  case outAndReset => exact fun s => ⟨hostMove_copyOut s, hostMove_reset s⟩
  case legal =>
    intro s v rest i hhost hdecode
    rw [step_of_host_cmd hhost, runCommand_of_decode_ok hdecode]
  case illegal =>
    intro s v rest r hhost hdecode
    rw [step_of_host_cmd hhost, runCommand_of_decode_error hdecode]
  case fetch =>
    intro s w i _ hdecode
    rw [step_withFetchWord, runCommand_of_decode_ok hdecode]
  case idle => exact fun s hhost => step_of_host_nil hhost

end Sys2Proof.Machine
end

section
/-! What a command can do, said once for all fourteen: the next states that `exec` answers (30_encoding.md R72). -/

namespace Sys2Proof.Machine

/-! ### What a read of all codes and an inverse pass leave alone -/

/-- The codes that come back are as many as the widths asked for, and only the cursor of the reader moves. -/
theorem Reader.readAll_eq_some {ws : List Nat} {r r' : Reader} {cs : List Nat} (h : Reader.readAll ws r = some (cs, r')) :
    cs.length = ws.length ∧ r' = { r with pos := r'.pos } := by
  induction ws generalizing r cs with
  | nil =>
    simp only [Reader.readAll, Option.some.injEq, Prod.mk.injEq] at h
    obtain ⟨rfl, rfl⟩ := h
    exact ⟨rfl, rfl⟩
  | cons w ws ih =>
    rw [Reader.readAll] at h
    split at h
    · cases h
    · split at h
      · cases h
      · next cs' r'' hrest =>
        simp only [Option.some.injEq, Prod.mk.injEq] at h
        obtain ⟨rfl, rfl⟩ := h
        obtain ⟨hlen, hr⟩ := ih hrest
        exact ⟨by simp only [List.length_cons, hlen], hr⟩

/-- A frame of `n` codes holds at most `n` residuals, or the one seed where `n` is 0 (30_encoding.md R81, R88). -/
theorem frameResiduals_length_le {f : Framing} {w n : Nat} {codes : List Nat}
    (h : codes.length = (frameWidths f w n).length) : (frameResiduals f w codes).length ≤ max 1 n := by
  cases f with
  | dense =>
    simp only [frameWidths, List.length_replicate] at h
    simp only [frameResiduals, List.length_map]
    omega
  | seeded32 =>
    simp only [frameWidths, List.length_append, List.length_replicate] at h
    match codes with
    | [] | [_] | [_, _] | [_, _, _] => exact Nat.zero_le _
    | b0 :: b1 :: b2 :: b3 :: rest =>
      simp only [List.length_cons] at h
      simp only [frameResiduals, List.length_cons, List.length_map]
      omega

/-- An inverse pass changes `HISTD`, `D_HIST` and `FOUT` only (43_predictor.md R136, R138). -/
theorem predictInverse_frame (s : State) :
    predictInverse s = { s with
      dec := { s.dec with history := (predictInverse s).dec.history, hist := true }, fout := (predictInverse s).fout } := by
  obtain ⟨h, f, heq, -⟩ := predictInverse_spec s
  rw [heq]
  rfl

theorem decompressFrame_of_none {w : Nat} {s : State}
    (h : Reader.readAll (frameWidths s.params.framing w s.dec.spec.count) { s.dec.br with pos := 0 } = none) :
    decompressFrame w s = raise .streamUnderrun (underrunState s) := by
  simp only [decompressFrame, h]

theorem decompressFrame_of_some {w : Nat} {s : State} {codes : List Nat} {br : Reader}
    (h : Reader.readAll (frameWidths s.params.framing w s.dec.spec.count) { s.dec.br with pos := 0 } = some (codes, br)) :
    decompressFrame w s =
      if 8 * s.params.ibufCap < br.pos then .fault .noSuchAddress
      else complete (predictInverse (loadResiduals (frameResiduals s.params.framing w codes) br s)) := by
  simp only [decompressFrame, h]

/-! ### The effects -/

/-- ENC freshly constructed (10_state.md R39). -/
def freshEnc (c : CameraSpec) (g : Nat) : Enc :=
  { spec := c, valid := true, hist := false, history := .unspecified 16 g, res := .unspecified 32 (g + 1),
    bw := .empty (g + 2), width := 0 }

/-- DEC freshly constructed over the reader `br` (10_state.md R39). -/
def freshDec (c : CameraSpec) (g : Nat) (br : Reader) : Dec :=
  { spec := c, valid := true, hist := false, history := .unspecified 16 g, res := .unspecified 32 (g + 1),
    br := { br with pos := 0 } }

/-- ENC after CNEXT with the writer `b` and `WIDTH` `m` (44_compressor.md R152, R154). -/
def compressedEnc (s : State) (b : Writer) (m : BitVec 8) : Enc := { advancedEnc s with bw := b, width := m }

/-- The next states a command can answer from `s`: an error that leaves everything else, or the command's own effect with the
conditions it ran under. -/
inductive Effect (s : State) : Instr → State → Prop
  | raised (i : Instr) (e : Err) : Effect s i (s.setErr e)
  | cinit (hspec : ¬ s.spec.bad s.params) :
    Effect s .cinit (((s.setEnc (freshEnc s.spec s.free)).take 3).setErr .ok)
  | dinit (hspec : ¬ s.spec.bad s.params) :
    Effect s .dinit (((s.setDec (freshDec s.spec s.free s.dec.br)).take 2).setErr .ok)
  | tcenc (w : Nat) (v : Word) : Effect s (.tcenc w) ((s.setRslt v).setErr .ok)
  | tcdec (w : Nat) (v : Word) : Effect s (.tcdec w) ((s.setRslt v).setErr .ok)
  | bwrst : Effect s .bwrst ((resetWriter s).setErr .ok)
  | bwput (w : Nat) (hfit : s.enc.bw.bytesWith w ≤ s.params.obufCap) :
    Effect s (.bwput w) ((s.setWriter (Writer.put s.opa.toNat w s.enc.bw)).setErr .ok)
  | bwfin : Effect s .bwfin ((s.setWriter s.enc.bw.finish).setErr .ok)
  | brrst : Effect s .brrst ((s.setReader { s.dec.br with pos := 0 }).setErr .ok)
  | brgetShort (w : Nat) (v : Word) : Effect s (.brget w) (((s.setRslt v).take 1).setErr .streamUnderrun)
  | brget (w : Nat) (v : Word) :
    Effect s (.brget w) (((s.setRslt v).setReader (s.dec.br.advance w)).setErr .ok)
  | pfwd (hready : encReady s) : Effect s .pfwd ((predictForward s).setErr .ok)
  | pinv (hready : decReady s) : Effect s .pinv ((predictInverse s).setErr .ok)
  | selw (m : Nat) (e : Err) (hm : m ≤ 16) : Effect s .selw ((s.setWidth (BitVec.ofNat 8 m)).setErr e)
  | cnextWide (hready : encReady s) :
    Effect s .cnext
      (((s.setEnc (compressedEnc s (.empty s.free) 0)).take 1).setErr .bitWidthOverflow)
  | cnext (hready : encReady s) (hm : frameWidth s ≤ 16) (hfit : (itemBits (framePack s) + 7) / 8 ≤ s.params.obufCap) :
    Effect s .cnext
      (((s.setEnc (compressedEnc s (Writer.putAll (framePack s) (.empty s.free)).finish (BitVec.ofNat 8 (frameWidth s)))).take
        1).setErr .ok)
  | dnextShort (w : Nat) (hready : decReady s) : Effect s (.dnext w) ((underrunState s).setErr .streamUnderrun)
  | dnext (w : Nat) (rs : List Int) (pos : Nat) (hready : decReady s) (hlen : rs.length ≤ max 1 s.dec.spec.count) :
    Effect s (.dnext w) ((predictInverse (loadResiduals rs { s.dec.br with pos := pos } s)).setErr .ok)

/-! ### Each command has one of its effects -/

theorem Effect.of_raise {s t : State} {e : Err} (i : Instr) (h : raise e s = .next t) : Effect s i t := by
  obtain rfl := raise_eq_next.1 h
  exact .raised i e

/-- What PFWD and CNEXT, PINV and DNEXT have checked when they run. -/
theorem ready_of_checks {p : Params} {c : CameraSpec} {valid : Bool} {dims : Dims} (hvalid : ¬ valid = false)
    (hdims : ¬ dims ≠ c.dims) (hcount : ¬ p.maxN < c.count) : ready p c valid dims :=
  ⟨by simpa using hvalid, not_ne_iff.1 hdims, Nat.le_of_not_lt hcount⟩

theorem execCinit_effect {s t : State} (h : execCinit s = .next t) : Effect s .cinit t := by
  unfold execCinit at h
  split_ifs at h with hspec
  · exact .of_raise _ h
  · obtain rfl := complete_eq_next.1 h
    exact .cinit hspec

theorem execDinit_effect {s t : State} (h : execDinit s = .next t) : Effect s .dinit t := by
  unfold execDinit at h
  split_ifs at h with hspec
  · exact .of_raise _ h
  · obtain rfl := complete_eq_next.1 h
    exact .dinit hspec

theorem execTcenc_effect {w : Nat} {s t : State} (h : execTcenc w s = .next t) : Effect s (.tcenc w) t := by
  unfold execTcenc at h
  split_ifs at h
  · exact .of_raise _ h
  · obtain rfl := complete_eq_next.1 h
    exact .tcenc w _

theorem execTcdec_effect {w : Nat} {s t : State} (h : execTcdec w s = .next t) : Effect s (.tcdec w) t := by
  unfold execTcdec at h
  split_ifs at h
  · exact .of_raise _ h
  · obtain rfl := complete_eq_next.1 h
    exact .tcdec w _

theorem execBwrst_effect {s t : State} (h : execBwrst s = .next t) : Effect s .bwrst t := by
  obtain rfl := complete_eq_next.1 h
  exact .bwrst

theorem execBwput_effect {w : Nat} {s t : State} (h : execBwput w s = .next t) : Effect s (.bwput w) t := by
  unfold execBwput at h
  split_ifs at h with _ hfull
  · exact .of_raise _ h
  · obtain rfl := complete_eq_next.1 h
    exact .bwput w (Nat.le_of_not_lt hfull)

theorem execBwfin_effect {s t : State} (h : execBwfin s = .next t) : Effect s .bwfin t := by
  unfold execBwfin at h
  split_ifs at h
  obtain rfl := complete_eq_next.1 h
  exact .bwfin

theorem execBrrst_effect {s t : State} (h : execBrrst s = .next t) : Effect s .brrst t := by
  obtain rfl := complete_eq_next.1 h
  exact .brrst

theorem execBrget_effect {w : Nat} {s t : State} (h : execBrget w s = .next t) : Effect s (.brget w) t := by
  unfold execBrget at h
  split_ifs at h
  · exact .of_raise _ h
  · obtain rfl := raise_eq_next.1 h
    exact .brgetShort w _
  · obtain rfl := complete_eq_next.1 h
    exact .brget w _

theorem execPfwd_effect {s t : State} (h : execPfwd s = .next t) : Effect s .pfwd t := by
  unfold execPfwd at h
  split_ifs at h with hvalid hdims hcount
  · exact .of_raise _ h
  · exact .of_raise _ h
  · obtain rfl := complete_eq_next.1 h
    exact .pfwd (ready_of_checks hvalid hdims hcount)

theorem execPinv_effect {s t : State} (h : execPinv s = .next t) : Effect s .pinv t := by
  unfold execPinv at h
  split_ifs at h with hvalid hdims hcount
  · exact .of_raise _ h
  · exact .of_raise _ h
  · obtain rfl := complete_eq_next.1 h
    exact .pinv (ready_of_checks hvalid hdims hcount)

theorem execSelw_effect {s t : State} (h : execSelw s = .next t) : Effect s .selw t := by
  simp only [execSelw] at h
  split_ifs at h with _ _ hwide
  · exact .of_raise _ h
  · obtain rfl := raise_eq_next.1 h
    exact .selw 0 _ (by omega)
  · obtain rfl := complete_eq_next.1 h
    exact .selw _ _ (Nat.le_of_not_lt hwide)

theorem compressFrame_effect {s t : State} (hready : encReady s) (h : compressFrame s = .next t) : Effect s .cnext t := by
  rw [compressFrame_eq] at h
  split_ifs at h with hwide hfull <;> obtain rfl := Host.Outcome.next.inj h
  · exact .cnextWide hready
  · exact .cnext hready (Nat.le_of_not_lt hwide) (Nat.le_of_not_lt hfull)

theorem execCnext_effect {s t : State} (h : execCnext s = .next t) : Effect s .cnext t := by
  unfold execCnext at h
  split_ifs at h with hvalid hdims hcount
  · exact .of_raise _ h
  · exact .of_raise _ h
  · exact compressFrame_effect (ready_of_checks hvalid hdims hcount) h

theorem decompressFrame_effect {w : Nat} {s t : State} (hready : decReady s) (h : decompressFrame w s = .next t) :
    Effect s (.dnext w) t := by
  cases hread : Reader.readAll (frameWidths s.params.framing w s.dec.spec.count) { s.dec.br with pos := 0 } with
  | none =>
    rw [decompressFrame_of_none hread] at h
    obtain rfl := raise_eq_next.1 h
    exact .dnextShort w hready
  | some codesReader =>
    obtain ⟨codes, br⟩ := codesReader
    obtain ⟨hlen, hbr⟩ := Reader.readAll_eq_some hread
    rw [decompressFrame_of_some hread] at h
    split_ifs at h
    obtain rfl := complete_eq_next.1 h
    rw [hbr]
    exact .dnext w _ br.pos hready (frameResiduals_length_le hlen)

theorem execDnext_effect {w : Nat} {s t : State} (h : execDnext w s = .next t) : Effect s (.dnext w) t := by
  unfold execDnext at h
  split_ifs at h with hvalid hdims _ hcount
  · exact .of_raise _ h
  · exact .of_raise _ h
  · exact .of_raise _ h
  · exact decompressFrame_effect (ready_of_checks hvalid hdims hcount) h

/-- A command that answers a next state has one of its effects. -/
theorem exec_effect {i : Instr} {s t : State} (h : exec i s = .next t) : Effect s i t := by
  cases i with
  | cinit => exact execCinit_effect h
  | dinit => exact execDinit_effect h
  | tcenc w => exact execTcenc_effect h
  | tcdec w => exact execTcdec_effect h
  | bwrst => exact execBwrst_effect h
  | bwput w => exact execBwput_effect h
  | bwfin => exact execBwfin_effect h
  | brrst => exact execBrrst_effect h
  | brget w => exact execBrget_effect h
  | pfwd => exact execPfwd_effect h
  | pinv => exact execPinv_effect h
  | selw => exact execSelw_effect h
  | cnext => exact execCnext_effect h
  | dnext w => exact execDnext_effect h

end Sys2Proof.Machine
end

section
/-! What a command leaves unchanged, read off its effects: which commands write which registers, and who moves the predictor
state (10_state.md R24, R31). -/

namespace Sys2Proof.Machine

/-! ### The ENC and DEC contexts after the predictor passes -/

theorem advancedEnc_frame (s : State) :
    advancedEnc s = { s.enc with res := (advancedEnc s).res, history := (advancedEnc s).history, hist := true } :=
  (advancedEnc_spec s).1

@[simp] theorem advancedEnc_spec_eq (s : State) : (advancedEnc s).spec = s.enc.spec := by rw [advancedEnc_frame]

@[simp] theorem advancedEnc_valid (s : State) : (advancedEnc s).valid = s.enc.valid := by rw [advancedEnc_frame]

@[simp] theorem advancedEnc_bw (s : State) : (advancedEnc s).bw = s.enc.bw := by rw [advancedEnc_frame]

@[simp] theorem advancedEnc_width (s : State) : (advancedEnc s).width = s.enc.width := by rw [advancedEnc_frame]

@[simp] theorem predictInverse_params (s : State) : (predictInverse s).params = s.params := by rw [predictInverse_frame]
@[simp] theorem predictInverse_host (s : State) : (predictInverse s).host = s.host := by rw [predictInverse_frame]
@[simp] theorem predictInverse_cmd (s : State) : (predictInverse s).cmd = s.cmd := by rw [predictInverse_frame]
@[simp] theorem predictInverse_opa (s : State) : (predictInverse s).opa = s.opa := by rw [predictInverse_frame]
@[simp] theorem predictInverse_rslt (s : State) : (predictInverse s).rslt = s.rslt := by rw [predictInverse_frame]
@[simp] theorem predictInverse_specRegs (s : State) : (predictInverse s).spec = s.spec := by rw [predictInverse_frame]
@[simp] theorem predictInverse_finDims (s : State) : (predictInverse s).finDims = s.finDims := by rw [predictInverse_frame]
@[simp] theorem predictInverse_foutDims (s : State) : (predictInverse s).foutDims = s.foutDims := by rw [predictInverse_frame]
@[simp] theorem predictInverse_enc (s : State) : (predictInverse s).enc = s.enc := by rw [predictInverse_frame]
@[simp] theorem predictInverse_fin (s : State) : (predictInverse s).fin = s.fin := by rw [predictInverse_frame]

@[simp] theorem predictInverse_decSpec (s : State) : (predictInverse s).dec.spec = s.dec.spec := by
  rw [predictInverse_frame]

@[simp] theorem predictInverse_decRes (s : State) : (predictInverse s).dec.res = s.dec.res := by rw [predictInverse_frame]

@[simp] theorem predictInverse_decBr (s : State) : (predictInverse s).dec.br = s.dec.br := by rw [predictInverse_frame]

/-! ### What no command writes -/

/-- The parameters, the host's moves and the registers that only the host writes stay. -/
theorem Effect.hostOwned_eq {s t : State} {i : Instr} (h : Effect s i t) :
    t.params = s.params ∧ t.host = s.host ∧ t.cmd = s.cmd ∧ t.opa = s.opa ∧ t.spec = s.spec ∧ t.finDims = s.finDims
      ∧ t.foutDims = s.foutDims ∧ t.fin = s.fin := by
  cases h with
  | pfwd | pinv | cnextWide | cnext | dnextShort | dnext => simp [predictForward, underrunState, loadResiduals]
  | _ => exact ⟨rfl, rfl, rfl, rfl, rfl, rfl, rfl, rfl⟩

/-- Of the reader a command moves the cursor only. -/
theorem Effect.inputStream_eq {s t : State} {i : Instr} (h : Effect s i t) :
    t.dec.br.ilen = s.dec.br.ilen ∧ t.dec.br.ibuf = s.dec.br.ibuf := by
  cases h with
  | pinv => simp
  | dnext => simp [loadResiduals]
  | _ => exact ⟨rfl, rfl⟩

/-! ### Which commands write a register -/

theorem Effect.rslt_writer {s t : State} {i : Instr} (h : Effect s i t) (hne : t.rslt ≠ s.rslt) :
    ∃ w, i = .tcenc w ∨ i = .tcdec w ∨ i = .brget w := by
  cases h with
  | tcenc w => exact ⟨w, .inl rfl⟩
  | tcdec w => exact ⟨w, .inr (.inl rfl)⟩
  | brgetShort w => exact ⟨w, .inr (.inr rfl)⟩
  | brget w => exact ⟨w, .inr (.inr rfl)⟩
  | dnext => exact absurd (predictInverse_rslt _) hne
  | _ => exact absurd rfl hne

theorem Effect.width_writer {s t : State} {i : Instr} (h : Effect s i t) (hne : t.enc.width ≠ s.enc.width) :
    i = .selw ∨ i = .cnext ∨ i = .cinit := by
  cases h with
  | selw => exact .inl rfl
  | cnextWide => exact .inr (.inl rfl)
  | cnext => exact .inr (.inl rfl)
  | cinit => exact .inr (.inr rfl)
  | pfwd => exact absurd (advancedEnc_width s) hne
  | dnext => exact absurd (congrArg Enc.width (predictInverse_enc _)) hne
  | _ => exact absurd rfl hne

theorem Effect.olen_writer {s t : State} {i : Instr} (h : Effect s i t) (hne : t.enc.bw.olen ≠ s.enc.bw.olen) :
    ∃ w, i = .bwrst ∨ i = .bwput w ∨ i = .bwfin ∨ i = .cnext ∨ i = .cinit := by
  cases h with
  | bwrst => exact ⟨0, .inl rfl⟩
  | bwput w => exact ⟨w, .inr (.inl rfl)⟩
  | bwfin => exact ⟨0, .inr (.inr (.inl rfl))⟩
  | cnextWide => exact ⟨0, .inr (.inr (.inr (.inl rfl)))⟩
  | cnext => exact ⟨0, .inr (.inr (.inr (.inl rfl)))⟩
  | cinit => exact ⟨0, .inr (.inr (.inr (.inr rfl)))⟩
  | pfwd => exact absurd (congrArg Writer.olen (advancedEnc_bw s)) hne
  | dnext => exact absurd (congrArg (fun e : Enc => e.bw.olen) (predictInverse_enc _)) hne
  | _ => exact absurd rfl hne

theorem Effect.encSpec_writer {s t : State} {i : Instr} (h : Effect s i t) (hne : t.enc.spec ≠ s.enc.spec) : i = .cinit := by
  cases h with
  | cinit => rfl
  | pfwd => exact absurd (advancedEnc_spec_eq s) hne
  | cnextWide => exact absurd (advancedEnc_spec_eq s) hne
  | cnext => exact absurd (advancedEnc_spec_eq s) hne
  | _ => exact absurd rfl hne

theorem Effect.decSpec_writer {s t : State} {i : Instr} (h : Effect s i t) (hne : t.dec.spec ≠ s.dec.spec) : i = .dinit := by
  cases h with
  | dinit => rfl
  | pinv => exact absurd (predictInverse_decSpec s) hne
  | dnext => exact absurd (predictInverse_decSpec _) hne
  | _ => exact absurd rfl hne

theorem Effect.rese_writer {s t : State} {i : Instr} (h : Effect s i t) (hne : t.enc.res ≠ s.enc.res) :
    i = .pfwd ∨ i = .cnext ∨ i = .cinit := by
  cases h with
  | pfwd => exact .inl rfl
  | cnextWide => exact .inr (.inl rfl)
  | cnext => exact .inr (.inl rfl)
  | cinit => exact .inr (.inr rfl)
  | _ => exact absurd rfl hne

theorem Effect.resd_writer {s t : State} {i : Instr} (h : Effect s i t) (hne : t.dec.res ≠ s.dec.res) :
    ∃ w, i = .dnext w ∨ i = .dinit := by
  cases h with
  | dnextShort w => exact ⟨w, .inl rfl⟩
  | dnext w => exact ⟨w, .inl rfl⟩
  | dinit => exact ⟨0, .inr rfl⟩
  | pinv => exact absurd (predictInverse_decRes s) hne
  | _ => exact absurd rfl hne

theorem Effect.fout_writer {s t : State} {i : Instr} (h : Effect s i t) (hne : t.fout ≠ s.fout) :
    ∃ w, i = .pinv ∨ i = .dnext w := by
  cases h with
  | pinv => exact ⟨0, .inl rfl⟩
  | dnextShort w => exact ⟨w, .inr rfl⟩
  | dnext w => exact ⟨w, .inr rfl⟩
  | _ => exact absurd rfl hne

/-- Settles O19: one lemma per register above, for the command's effect. -/
theorem commandsWriteOnlyTheirRegisters : Obligations.CommandsWriteOnlyTheirRegisters := by
  unfold Obligations.CommandsWriteOnlyTheirRegisters
  intro s t i hexec
  have h := exec_effect hexec
  obtain ⟨hparams, hhost, hcmd, hopa, hspec, hfinDims, hfoutDims, hfin⟩ := h.hostOwned_eq
  obtain ⟨hilen, hibuf⟩ := h.inputStream_eq
  exact ⟨hparams, hhost, hcmd, hopa, hspec, hfinDims, hfoutDims, hfin, hilen, hibuf, h.rslt_writer, h.width_writer,
    h.olen_writer, h.encSpec_writer, h.decSpec_writer, h.rese_writer, h.resd_writer, h.fout_writer⟩

/-! ### The predictor state (10_state.md R31) -/

/-- `E_HIST` after a command: kept, 0 after CINIT, 1 after PFWD and CNEXT. -/
theorem Effect.encHist_cases {s t : State} {i : Instr} (h : Effect s i t) :
    t.enc.hist = s.enc.hist ∨ (i = .cinit ∧ t.enc.hist = false) ∨ ((i = .pfwd ∨ i = .cnext) ∧ t.enc.hist = true) := by
  cases h with
  | cinit => exact .inr (.inl ⟨rfl, rfl⟩)
  | pfwd => exact .inr (.inr ⟨.inl rfl, rfl⟩)
  | cnextWide => exact .inr (.inr ⟨.inr rfl, rfl⟩)
  | cnext => exact .inr (.inr ⟨.inr rfl, rfl⟩)
  | _ => exact .inl rfl

/-- `D_HIST` after a command: kept, 0 after DINIT, 1 after PINV and a DNEXT that read its frame. -/
theorem Effect.decHist_cases {s t : State} {i : Instr} (h : Effect s i t) :
    t.dec.hist = s.dec.hist ∨ (i = .dinit ∧ t.dec.hist = false)
      ∨ ((∃ w, i = .pinv ∨ i = .dnext w) ∧ t.dec.hist = true) := by
  cases h with
  | dinit => exact .inr (.inl ⟨rfl, rfl⟩)
  | pinv => exact .inr (.inr ⟨⟨0, .inl rfl⟩, rfl⟩)
  | dnext w => exact .inr (.inr ⟨⟨w, .inr rfl⟩, rfl⟩)
  | _ => exact .inl rfl

/-- Settles O20: a change of a predictor state bit names the command in `encHist_cases` and `decHist_cases`. -/
theorem predictorStateTransitions : Obligations.PredictorStateTransitions := by
  unfold Obligations.PredictorStateTransitions
  intro s t i hexec
  have h := exec_effect hexec
  refine ⟨fun hs ht => ?encLeave, fun hs ht => ?decLeave, fun hs ht => ?encEnter, fun hs ht => ?decEnter⟩
  case encLeave =>
    obtain hkept | ⟨hi, -⟩ | ⟨-, hset⟩ := h.encHist_cases
    · simp [hs, ht] at hkept
    · exact hi
    · simp [ht] at hset
  case decLeave =>
    obtain hkept | ⟨hi, -⟩ | ⟨-, hset⟩ := h.decHist_cases
    · simp [hs, ht] at hkept
    · exact hi
    · simp [ht] at hset
  case encEnter =>
    obtain hkept | ⟨-, hclear⟩ | ⟨hi, -⟩ := h.encHist_cases
    · simp [hs, ht] at hkept
    · simp [ht] at hclear
    · exact hi
  case decEnter =>
    obtain hkept | ⟨-, hclear⟩ | ⟨hi, -⟩ := h.decHist_cases
    · simp [hs, ht] at hkept
    · simp [ht] at hclear
    · exact hi

/-! ### Construction (10_state.md R39) -/

theorem execCinit_of_not_bad {s : State} (h : ¬ s.spec.bad s.params) :
    execCinit s = complete ((s.setEnc (freshEnc s.spec s.free)).take 3) := if_neg h

theorem execDinit_of_not_bad {s : State} (h : ¬ s.spec.bad s.params) :
    execDinit s = complete ((s.setDec (freshDec s.spec s.free s.dec.br)).take 2) := if_neg h

theorem CameraSpec.not_bad {p : Params} {c : CameraSpec} (hcols : c.cols ≠ 0) (hrows : c.rows ≠ 0)
    (hcount : c.cols.toNat * c.rows.toNat ≤ p.maxN) : ¬ c.bad p := by
  rintro (h | h | h)
  · exact hcols h
  · exact hrows h
  · exact absurd hcount (Nat.not_le.2 h)

/-- Settles O41: the unspecified memories are those of `freshEnc` and `freshDec`. -/
theorem constructionValues : Obligations.ConstructionValues := by
  unfold Obligations.ConstructionValues
  intro s hcols hrows hcount
  have hspec := CameraSpec.not_bad hcols hrows hcount
  exact ⟨⟨_, _, _, _, execCinit_of_not_bad hspec⟩, ⟨_, _, _, execDinit_of_not_bad hspec⟩⟩

end Sys2Proof.Machine
end

section
/-! The invariant: it holds after reset, every state operation keeps it, every command and every move of the host keeps it
(10_state.md R26 to R35, 41_bitstream.md R104). -/

namespace Sys2Proof.Machine

/-! ### The writer -/

/-- Exactly the bytes below `OLEN` are valid, in canonical form (10_state.md R30). -/
abbrev Writer.bytesValid (b : Writer) : Prop :=
  b.obuf.wf ∧ b.obuf.below b.olen.toNat ∧ b.obuf.covers b.olen.toNat

theorem Writer.bytesWith_eq (b : Writer) (n : Nat) : b.bytesWith n = (b.size + n + 7) / 8 := by
  unfold Writer.bytesWith Writer.size
  omega

theorem Writer.bytesValid_empty (g : Nat) : (Writer.empty g).bytesValid :=
  ⟨Mem.wf_unspecified 8 g, Mem.below_unspecified 8 g _, fun j hj => absurd hj (Nat.not_lt_zero j)⟩

theorem Writer.bytesValid_emit {b : Writer} (h : b.bytesValid) (hroom : b.olen.toNat + 1 < 2 ^ 32) : b.emit.bytesValid := by
  obtain ⟨hwf, hbelow, hcovers⟩ := h
  have holen : b.emit.olen.toNat = b.olen.toNat + 1 := (b.emit_spec hroom).1
  refine ⟨Mem.wf_write _ _ hwf, ?_, ?_⟩ <;> rw [holen]
  · exact Mem.below_write _ (Mem.below_mono hbelow (Nat.le_succ _)) (Nat.lt_succ_self _)
  · exact Mem.covers_write_next _ hcovers

theorem Writer.bytesValid_pushBit {b : Writer} (bit : Bool) (h : b.bytesValid) (hroom : b.size + 1 < 8 * 2 ^ 32) :
    (b.pushBit bit).bytesValid := by
  unfold Writer.pushBit
  by_cases hfull : b.nb.val = 7
  · rw [if_pos hfull]
    have hlen : b.olen.toNat + 1 < 2 ^ 32 := by
      unfold Writer.size at hroom
      omega
    exact Writer.bytesValid_emit (b := { b with acc := _ }) h hlen
  · rw [if_neg hfull]
    exact h

theorem Writer.bytesValid_put (c w : Nat) {b : Writer} (h : b.bytesValid) (hroom : b.size + w < 8 * 2 ^ 32) :
    (Writer.put c w b).bytesValid := by
  induction w generalizing b with
  | zero => exact h
  | succ w ih =>
    have hsize := (b.pushBit_spec (c.testBit w) (by omega)).1
    exact ih (Writer.bytesValid_pushBit _ h (by omega)) (by omega)

theorem Writer.bytesValid_putAll (items : List (Nat × Nat)) {b : Writer} (h : b.bytesValid)
    (hroom : b.size + itemBits items < 8 * 2 ^ 32) : (Writer.putAll items b).bytesValid := by
  induction items generalizing b with
  | nil => exact h
  | cons cw items ih =>
    have hbits : itemBits (cw :: items) = cw.2 + itemBits items := by simp [itemBits]
    have hsize := (Writer.put_spec cw.1 cw.2 b (by omega)).1
    exact ih (Writer.bytesValid_put cw.1 cw.2 h (by omega)) (show (Writer.put cw.1 cw.2 b).size + _ < _ by omega)

theorem Writer.bytesValid_finish {b : Writer} (h : b.bytesValid) (hroom : b.olen.toNat + 1 < 2 ^ 32 ∨ b.nb.val = 0) :
    b.finish.bytesValid := by
  unfold Writer.finish
  by_cases hnone : b.nb.val = 0
  · rw [if_pos hnone]
    exact h
  · rw [if_neg hnone]
    exact Writer.bytesValid_emit h (hroom.resolve_right hnone)

variable {p : Params}

theorem Writer.inv_iff {b : Writer} :
    b.inv p ↔ (b.size + 7) / 8 ≤ p.obufCap ∧ b.bytesValid ∧ b.acc.toNat % 2 ^ (8 - b.nb.val) = 0 := by
  have hbytes : b.bytesWith 0 = (b.size + 7) / 8 := b.bytesWith_eq 0
  rw [← hbytes]
  constructor
  · rintro ⟨hcap, hwf, hbelow, hcovers, hacc⟩
    exact ⟨hcap, ⟨hwf, hbelow, hcovers⟩, hacc⟩
  · rintro ⟨hcap, ⟨hwf, hbelow, hcovers⟩, hacc⟩
    exact ⟨hcap, hwf, hbelow, hcovers, hacc⟩

theorem Writer.inv_empty (p : Params) (g : Nat) : (Writer.empty g).inv p :=
  Writer.inv_iff.2 ⟨by simp, Writer.bytesValid_empty g, rfl⟩

theorem Writer.inv_put (c w : Nat) {b : Writer} (h : b.inv p) (hp : p.obufCap < 2 ^ 32) (hfit : b.bytesWith w ≤ p.obufCap) :
    (Writer.put c w b).inv p := by
  obtain ⟨-, hvalid, hacc⟩ := Writer.inv_iff.1 h
  rw [Writer.bytesWith_eq] at hfit
  have hroom : b.size + w < 8 * 2 ^ 32 := by omega
  obtain ⟨hsize, -, -, hlow⟩ := Writer.put_spec c w b hroom
  exact Writer.inv_iff.2 ⟨by rwa [hsize], Writer.bytesValid_put c w hvalid hroom, hlow hacc⟩

theorem Writer.inv_putAll (items : List (Nat × Nat)) {b : Writer} (h : b.inv p) (hp : p.obufCap < 2 ^ 32)
    (hfit : b.bytesWith (itemBits items) ≤ p.obufCap) : (Writer.putAll items b).inv p := by
  obtain ⟨-, hvalid, hacc⟩ := Writer.inv_iff.1 h
  rw [Writer.bytesWith_eq] at hfit
  have hroom : b.size + itemBits items < 8 * 2 ^ 32 := by omega
  obtain ⟨hsize, -, -, hlow⟩ := Writer.putAll_spec items b hroom
  exact Writer.inv_iff.2 ⟨by rwa [hsize], Writer.bytesValid_putAll items hvalid hroom, hlow hacc⟩

theorem Writer.inv_finish {b : Writer} (h : b.inv p) (hp : p.obufCap < 2 ^ 32) : b.finish.inv p := by
  obtain ⟨hcap, hvalid, hacc⟩ := Writer.inv_iff.1 h
  have hroom : b.olen.toNat + 1 < 2 ^ 32 ∨ b.nb.val = 0 := by
    unfold Writer.size at hcap
    omega
  obtain ⟨hnb, hzero, holen, -⟩ := b.finish_spec hroom hacc
  have hsize : b.finish.size = 8 * ((b.size + 7) / 8) := by
    unfold Writer.size at *
    rw [hnb, holen]
    rfl
  refine Writer.inv_iff.2 ⟨by omega, Writer.bytesValid_finish hvalid hroom, ?_⟩
  rw [hzero]
  exact Nat.zero_mod _

/-! ### The contexts -/

/-- The memories of a context freshly constructed from a legal CameraSpec (10_state.md R39). -/
theorem ctxInv_fresh {c : CameraSpec} (hc : ¬ c.bad p) (g g' : Nat) :
    ctxInv p c true false (.unspecified 16 g) (.unspecified 32 g') :=
  ⟨fun _ => hc, fun h => Bool.noConfusion h, Mem.wf_unspecified _ _, Mem.below_unspecified _ _ _, Mem.wf_unspecified _ _,
    Mem.below_unspecified _ _ _⟩

/-- A context whose residual memory was replaced by one in form. -/
theorem ctxInv_res {c : CameraSpec} {valid hist : Bool} {history : Mem 16} {res res' : Mem 32}
    (h : ctxInv p c valid hist history res) (hwf : res'.wf) (hbelow : res'.below p.maxN) :
    ctxInv p c valid hist history res' := by
  obtain ⟨hspec, hhist, hhwf, hhbelow, -, -⟩ := h
  exact ⟨hspec, hhist, hhwf, hhbelow, hwf, hbelow⟩

theorem freshEnc_inv {c : CameraSpec} (hc : ¬ c.bad p) (g : Nat) : (freshEnc c g).inv p :=
  ⟨ctxInv_fresh hc _ _, Writer.inv_empty p _, Nat.zero_le _⟩

theorem freshDec_inv {c : CameraSpec} (hc : ¬ c.bad p) (g : Nat) {br : Reader} (hbr : br.inv p) : (freshDec c g br).inv p :=
  ⟨ctxInv_fresh hc _ _, hbr⟩

/-- The forward pass writes every history entry of the frame, and stays within both memories. -/
theorem advancedEnc_ctxInv {s : State} (h : s.enc.inv s.params) (hready : encReady s) :
    ctxInv s.params (advancedEnc s).spec (advancedEnc s).valid true (advancedEnc s).history (advancedEnc s).res := by
  obtain ⟨⟨hspec, -, hhwf, hhbelow, hrwf, hrbelow⟩, -⟩ := h
  obtain ⟨hvalid, -, hcount⟩ := hready
  obtain ⟨hres, hhist, hresBelow, hhistBelow, hcovers⟩ := forwardPass_mem s.params s.fin s.enc s.enc.spec.count
  rw [advancedEnc_spec_eq, advancedEnc_valid]
  exact ⟨hspec, fun _ => ⟨hvalid, hcovers⟩, hhist hhwf, hhistBelow _ hcount hhbelow,
    hres hrwf, hresBelow _ hcount hrbelow⟩

theorem compressedEnc_inv {s : State} (h : s.enc.inv s.params) (hready : encReady s) {b : Writer} (hb : b.inv s.params)
    {m : BitVec 8} (hm : m.toNat ≤ 16) : (compressedEnc s b m).inv s.params :=
  ⟨advancedEnc_ctxInv h hready, hb, hm⟩

theorem advancedEnc_inv {s : State} (h : s.enc.inv s.params) (hready : encReady s) : (advancedEnc s).inv s.params := by
  obtain ⟨-, hbw, hwidth⟩ := id h
  exact ⟨advancedEnc_ctxInv h hready, by rwa [advancedEnc_bw], by rwa [advancedEnc_width]⟩

/-! ### One rule per state operation -/

variable {s : State}

theorem Inv.legal (h : Inv s) : s.params.legal := by
  obtain ⟨hp, -⟩ := h
  exact hp

theorem Inv.obufCap_lt (h : Inv s) : s.params.obufCap < 2 ^ 32 := by
  obtain ⟨-, -, hcap⟩ := h.legal
  exact hcap

theorem Inv.enc (h : Inv s) : s.enc.inv s.params := by
  obtain ⟨-, he, -⟩ := h
  exact he

theorem Inv.dec (h : Inv s) : s.dec.inv s.params := by
  obtain ⟨-, -, hd, -⟩ := h
  exact hd

theorem Inv.frames (h : Inv s) : frameInv s.fin ∧ frameInv s.fout := by
  obtain ⟨-, -, -, hframes⟩ := h
  exact hframes

theorem Inv.writer (h : Inv s) : s.enc.bw.inv s.params := by
  obtain ⟨-, hbw, -⟩ := h.enc
  exact hbw

theorem Inv.reader (h : Inv s) : s.dec.br.inv s.params := by
  obtain ⟨-, hbr⟩ := h.dec
  exact hbr

theorem Inv.setErr (h : Inv s) (e : Err) : Inv (s.setErr e) := h

theorem Inv.setRslt (h : Inv s) (v : Word) : Inv (s.setRslt v) := h

theorem Inv.take (h : Inv s) (n : Nat) : Inv (s.take n) := h

theorem Inv.setEnc (h : Inv s) {e : Enc} (he : e.inv s.params) : Inv (s.setEnc e) := by
  obtain ⟨hp, -, hd, hfin, hfout⟩ := h
  exact ⟨hp, he, hd, hfin, hfout⟩

theorem Inv.setDec (h : Inv s) {d : Dec} (hd : d.inv s.params) : Inv (s.setDec d) := by
  obtain ⟨hp, he, -, hfin, hfout⟩ := h
  exact ⟨hp, he, hd, hfin, hfout⟩

theorem Inv.setFin (h : Inv s) {m : Mem 16} (hm : frameInv m) : Inv (s.setFin m) := by
  obtain ⟨hp, he, hd, -, hfout⟩ := h
  exact ⟨hp, he, hd, hm, hfout⟩

theorem Inv.setFout (h : Inv s) {m : Mem 16} (hm : frameInv m) : Inv (s.setFout m) := by
  obtain ⟨hp, he, hd, hfin, -⟩ := h
  exact ⟨hp, he, hd, hfin, hm⟩

theorem Inv.setWriter (h : Inv s) {b : Writer} (hb : b.inv s.params) : Inv (s.setWriter b) := by
  obtain ⟨hctx, -, hwidth⟩ := h.enc
  exact h.setEnc ⟨hctx, hb, hwidth⟩

theorem Inv.setWidth (h : Inv s) {m : BitVec 8} (hm : m.toNat ≤ 16) : Inv (s.setWidth m) := by
  obtain ⟨hctx, hbw, -⟩ := h.enc
  exact h.setEnc ⟨hctx, hbw, hm⟩

theorem Inv.setReader (h : Inv s) {r : Reader} (hr : r.inv s.params) : Inv (s.setReader r) := by
  obtain ⟨hctx, -⟩ := h.dec
  exact h.setDec ⟨hctx, hr⟩

/-- The cursor is under no condition: after a DNEXT underrun it is any number (log 8). -/
theorem Inv.setReader_pos (h : Inv s) (pos : Nat) : Inv (s.setReader { s.dec.br with pos := pos }) := h.setReader h.reader

theorem Inv.setEnc_res (h : Inv s) {m : Mem 32} (hwf : m.wf) (hbelow : m.below s.params.maxN) :
    Inv (s.setEnc { s.enc with res := m }) := by
  obtain ⟨hctx, hbw, hwidth⟩ := h.enc
  exact h.setEnc ⟨ctxInv_res hctx hwf hbelow, hbw, hwidth⟩

theorem Inv.setDec_res (h : Inv s) {m : Mem 32} (hwf : m.wf) (hbelow : m.below s.params.maxN) (pos : Nat) :
    Inv (s.setDec { s.dec with res := m, br := { s.dec.br with pos := pos } }) := by
  obtain ⟨hctx, hbr⟩ := h.dec
  exact h.setDec ⟨ctxInv_res hctx hwf hbelow, hbr⟩

/-! ### The shared procedures -/

theorem Inv.resetWriter (h : Inv s) : Inv (resetWriter s) := (h.setWriter (Writer.inv_empty _ _)).take 1

theorem Inv.predictForward (h : Inv s) (hready : encReady s) : Inv (predictForward s) := by
  rw [predictForward_eq]
  exact h.setEnc (advancedEnc_inv h.enc hready)

theorem Inv.predictInverse (h : Inv s) (hready : decReady s) : Inv (predictInverse s) := by
  obtain ⟨hist, fout, heq, -, -, -, hwf, hbelow, hcovers, hfout⟩ := predictInverse_spec s
  obtain ⟨⟨hspec, -, hhwf, hhbelow, hrwf, hrbelow⟩, hbr⟩ := h.dec
  obtain ⟨-, hframe⟩ := h.frames
  obtain ⟨hvalid, -, hcount⟩ := hready
  rw [heq]
  have hdec : Dec.inv s.params { s.dec with history := hist, hist := true } :=
    ⟨⟨hspec, fun _ => ⟨hvalid, hcovers⟩, hwf hhwf, hbelow _ hcount hhbelow, hrwf, hrbelow⟩, hbr⟩
  exact (h.setDec hdec).setFout (hfout hframe)

theorem Inv.loadResiduals (h : Inv s) {rs : List Int} (hlen : rs.length ≤ s.params.maxN) (pos : Nat) :
    Inv (loadResiduals rs { s.dec.br with pos := pos } s) := by
  obtain ⟨⟨-, -, -, -, hrwf, hrbelow⟩, -⟩ := h.dec
  exact h.setDec_res (Mem.wf_writeFrom _ _ hrwf) (Mem.below_writeFrom _ hrbelow (by simpa using hlen)) pos

theorem frameInv_unspecified (g : Nat) : frameInv (.unspecified 16 g) :=
  ⟨Mem.wf_unspecified _ _, fun _ hc => absurd hc List.not_mem_nil⟩

theorem Inv.underrunState (h : Inv s) : Inv (underrunState s) :=
  ((h.setDec_res (Mem.wf_unspecified _ _) (Mem.below_unspecified _ _ _) _).setFout (frameInv_unspecified _)).take 3

/-! ### Commands -/

theorem toNat_ofNat_width_le {m : Nat} (h : m ≤ 16) : (BitVec.ofNat 8 m).toNat ≤ 16 := by
  rw [BitVec.toNat_ofNat]
  exact le_trans (Nat.mod_le _ _) h

/-- The writer of a packed frame: the codes fit, and the last byte is flushed (41_bitstream.md R104). -/
theorem packedWriter_inv {items : List (Nat × Nat)} (g : Nat) (hp : p.obufCap < 2 ^ 32)
    (hfit : (itemBits items + 7) / 8 ≤ p.obufCap) : (Writer.putAll items (.empty g)).finish.inv p := by
  have hbytes : (Writer.empty g).bytesWith (itemBits items) ≤ p.obufCap := by
    rwa [Writer.bytesWith_eq, Writer.size_empty, Nat.zero_add]
  exact Writer.inv_finish (Writer.inv_putAll items (Writer.inv_empty p g) hp hbytes) hp

/-- Every command keeps the invariant. -/
theorem Effect.keeps_inv {i : Instr} {t : State} (h : Effect s i t) (hinv : Inv s) : Inv t := by
  cases h with
  | raised i e => exact hinv.setErr e
  | cinit hspec => exact ((hinv.setEnc (freshEnc_inv hspec _)).take 3).setErr .ok
  | dinit hspec => exact ((hinv.setDec (freshDec_inv hspec _ hinv.reader)).take 2).setErr .ok
  | tcenc w v => exact (hinv.setRslt v).setErr .ok
  | tcdec w v => exact (hinv.setRslt v).setErr .ok
  | bwrst => exact hinv.resetWriter.setErr .ok
  | bwput w hfit => exact (hinv.setWriter (Writer.inv_put _ w hinv.writer hinv.obufCap_lt hfit)).setErr .ok
  | bwfin => exact (hinv.setWriter (Writer.inv_finish hinv.writer hinv.obufCap_lt)).setErr .ok
  | brrst => exact (hinv.setReader_pos 0).setErr .ok
  | brgetShort w v => exact ((hinv.setRslt v).take 1).setErr .streamUnderrun
  | brget w v => exact ((hinv.setRslt v).setReader_pos (s.dec.br.pos + w)).setErr .ok
  | pfwd hready => exact (hinv.predictForward hready).setErr .ok
  | pinv hready => exact (hinv.predictInverse hready).setErr .ok
  | selw m e hm => exact (hinv.setWidth (toNat_ofNat_width_le hm)).setErr e
  | cnextWide hready =>
    exact ((hinv.setEnc (compressedEnc_inv hinv.enc hready (Writer.inv_empty _ _) (Nat.zero_le _))).take 1).setErr _
  | cnext hready hm hfit =>
    exact ((hinv.setEnc (compressedEnc_inv hinv.enc hready (packedWriter_inv _ hinv.obufCap_lt hfit)
      (toNat_ofNat_width_le hm))).take 1).setErr .ok
  | dnextShort w hready => exact hinv.underrunState.setErr _
  | dnext w rs pos hready hlen =>
    obtain ⟨hmaxN, -⟩ := hinv.legal
    obtain ⟨-, -, hcount⟩ := id hready
    exact ((hinv.loadResiduals (hlen.trans (max_le hmaxN hcount)) pos).predictInverse hready).setErr .ok

end Sys2Proof.Machine
end

section
/-! The host's registers by number: what reads and writes of them give, `STATUS`, and the values after reset
(10_state.md R24, R25, R38). -/

namespace Sys2Proof.Machine

/-! ### Register numbers -/

/-- The number of a register (10_state.md R24). -/
def Reg.number : Reg → Nat
  | .cmd => 0x00
  | .status => 0x01
  | .opa => 0x02
  | .rslt => 0x03
  | .width => 0x04
  | .olen => 0x05
  | .ilen => 0x06
  | .specCols => 0x08
  | .specRows => 0x09
  | .specFps => 0x0A
  | .finCols => 0x0C
  | .finRows => 0x0D
  | .foutCols => 0x0E
  | .foutRows => 0x0F
  | .eCols => 0x10
  | .eRows => 0x11
  | .eFps => 0x12
  | .dCols => 0x14
  | .dRows => 0x15
  | .dFps => 0x16

/-- A number stands for at most one register. -/
theorem Reg.number_eq {n : Nat} {r : Reg} (h : Reg.ofNumber n = some r) : r.number = n := by
  unfold Reg.ofNumber at h
  split at h <;> cases h <;> rfl

theorem Reg.ofNumber_of_gt {n : Nat} (h : 0x16 < n) : Reg.ofNumber n = none := by
  cases hr : Reg.ofNumber n with
  | none => rfl
  | some r =>
    have hle : r.number ≤ 0x16 := by cases r <;> decide
    have hn := Reg.number_eq hr
    omega

/-- The reserved numbers (10_state.md R24). -/
theorem Reg.ofNumber_reserved {n : Nat} (h : n ∈ [0x07, 0x0B, 0x13] ∨ 0x16 < n) : Reg.ofNumber n = none := by
  obtain h | h := h
  · fin_cases h <;> rfl
  · exact Reg.ofNumber_of_gt h

theorem hostRead_of_none {n : Nat} (h : Reg.ofNumber n = none) (s : State) : hostRead s n = 0 := by
  simp only [hostRead, h]

theorem hostRead_of_some {n : Nat} {r : Reg} (h : Reg.ofNumber n = some r) (s : State) : hostRead s n = readReg s r := by
  simp only [hostRead, h]

theorem hostWrite_of_none {n : Nat} (h : Reg.ofNumber n = none) (v : Word) (s : State) : hostWrite n v s = .next s := by
  simp only [hostWrite, h]

/-! ### Writing a register -/

/-- The registers that hold what the host wrote (10_state.md R24). -/
def Reg.writable : Reg → Bool
  | .opa | .ilen | .specCols | .specRows | .specFps | .finCols | .finRows | .foutCols | .foutRows => true
  | .cmd | .status | .rslt | .width | .olen | .eCols | .eRows | .eFps | .dCols | .dRows | .dFps => false

theorem writeReg_of_not_writable {r : Reg} (h : r.writable = false) (s : State) (v : Word) : writeReg s r v = s := by
  cases r with
  | cmd | status | rslt | width | olen | eCols | eRows | eFps | dCols | dRows | dFps => rfl
  | _ => cases h

/-- A register write other than of `CMD` answers the state with the register written, if `ILEN` stays within `IBUF_CAP`. -/
theorem hostWrite_of_some {n : Nat} {r : Reg} {s : State} {v : Word} (hn : Reg.ofNumber n = some r) (hr : r ≠ .cmd)
    (hcap : r = .ilen → v.toNat ≤ s.params.ibufCap) : hostWrite n v s = .next (writeReg s r v) := by
  unfold hostWrite
  rw [hn]
  cases r with
  | cmd => exact absurd rfl hr
  | ilen => exact if_neg (Nat.not_lt.2 (hcap rfl))
  | _ => rfl

/-- `ILEN` beyond `IBUF_CAP` is refused (U9). -/
theorem hostWrite_ilen_of_over {n : Nat} {s : State} {v : Word} (hn : Reg.ofNumber n = some .ilen)
    (hover : s.params.ibufCap < v.toNat) : hostWrite n v s = .refused .ilenCapacity := by
  unfold hostWrite
  rw [hn]
  exact if_pos hover

/-- What is read back from a writable register: all bits of a 32-bit register, the low 16 of the others. -/
theorem readReg_writeReg_same {r : Reg} (h : r.writable = true) (s : State) (v : Word) :
    readReg (writeReg s r v) r = if r = .opa ∨ r = .ilen then v else (v.setWidth 16).setWidth 32 := by
  cases r with
  | opa | ilen | specCols | specRows | specFps | finCols | finRows | foutCols | foutRows => rfl
  | _ => cases h

/-- A register write is not seen in any other register: each pair of different registers is a pair of different fields. -/
theorem readReg_writeReg_of_ne {r r' : Reg} (hne : r' ≠ r) (s : State) (v : Word) :
    readReg (writeReg s r v) r' = readReg s r' := by
  cases r <;> cases r' <;> first | rfl | exact absurd rfl hne

/-- A register write leaves the contexts but `ILEN`, the frame stores, the parameters and the host's moves. -/
theorem writeReg_frame (s : State) (r : Reg) (v : Word) :
    (writeReg s r v).params = s.params ∧ (writeReg s r v).host = s.host ∧ (writeReg s r v).enc = s.enc
      ∧ (writeReg s r v).dec = { s.dec with br := { s.dec.br with ilen := (writeReg s r v).dec.br.ilen } }
      ∧ (writeReg s r v).fin = s.fin ∧ (writeReg s r v).fout = s.fout := by
  cases r <;> exact ⟨rfl, rfl, rfl, rfl, rfl, rfl⟩

/-! ### Access by number -/

/-- Writing the number `n` of a writable register is not seen under any other number. -/
theorem hostRead_writeReg_of_ne {n j : Nat} {r : Reg} (hn : Reg.ofNumber n = some r) (hj : j ≠ n) (s : State) (v : Word) :
    hostRead (writeReg s r v) j = hostRead s j := by
  cases hr : Reg.ofNumber j with
  | none => rw [hostRead_of_none hr, hostRead_of_none hr]
  | some r' =>
    have hne : r' ≠ r := by
      rintro rfl
      exact hj ((Reg.number_eq hr).symm.trans (Reg.number_eq hn))
    rw [hostRead_of_some hr, hostRead_of_some hr, readReg_writeReg_of_ne hne]

/-- The numbers whose writes are ignored: reserved, or of a register that is not writable. -/
theorem ignored_numbers {n : Nat}
    (h : n ∈ [0x01, 0x03, 0x04, 0x05, 0x07, 0x0B, 0x10, 0x11, 0x12, 0x13, 0x14, 0x15, 0x16] ∨ 0x16 < n) :
    Reg.ofNumber n = none ∨ ∃ r, Reg.ofNumber n = some r ∧ r.writable = false ∧ r ≠ .cmd ∧ r ≠ .ilen := by
  obtain h | h := h
  · fin_cases h <;> simp [Reg.ofNumber, Reg.writable]
  · exact .inl (Reg.ofNumber_of_gt h)

theorem hostWrite_ignored {n : Nat}
    (h : n ∈ [0x01, 0x03, 0x04, 0x05, 0x07, 0x0B, 0x10, 0x11, 0x12, 0x13, 0x14, 0x15, 0x16] ∨ 0x16 < n)
    (s : State) (v : Word) : hostWrite n v s = .next s := by
  obtain hn | ⟨r, hn, hw, hcmd, hilen⟩ := ignored_numbers h
  · exact hostWrite_of_none hn v s
  · rw [hostWrite_of_some hn hcmd (fun h => absurd h hilen), writeReg_of_not_writable hw]

/-- The numbers of the writable registers; the two of 32 bits are `OPA` and `ILEN`. -/
theorem writable_numbers {n : Nat} (h : n ∈ [0x02, 0x06, 0x08, 0x09, 0x0A, 0x0C, 0x0D, 0x0E, 0x0F]) :
    ∃ r, Reg.ofNumber n = some r ∧ r.writable = true ∧ (r = .ilen → n = 0x06)
      ∧ ((r = .opa ∨ r = .ilen) ↔ (n = 0x02 ∨ n = 0x06)) := by
  fin_cases h <;> simp [Reg.ofNumber, Reg.writable]

/-- Settles O6: numbers to registers, then one rule for a read and one for a write of a register. -/
theorem hostRegisterAccess : Obligations.HostRegisterAccess := by
  unfold Obligations.HostRegisterAccess
  refine ⟨fun _ => rfl, fun s n h => hostRead_of_none (Reg.ofNumber_reserved h) s,
    fun s n v h => hostWrite_ignored h s v, fun s n v h hcap => ?_⟩
  obtain ⟨r, hn, hw, hilen, hwide⟩ := writable_numbers h
  have hcmd : r ≠ .cmd := by
    rintro rfl
    cases hw
  obtain ⟨-, -, henc, hdec, hfin, hfout⟩ := writeReg_frame s r v
  refine ⟨writeReg s r v, hostWrite_of_some hn hcmd (fun h => hcap (hilen h)), ?_,
    fun j hj => hostRead_writeReg_of_ne hn hj s v, henc, ?_, ?_, ?_, ?_, hfin, hfout⟩
  · simp only [hostRead_of_some hn, readReg_writeReg_same hw, hwide]
  all_goals rw [hdec]

/-! ### `STATUS` (10_state.md R25) -/

theorem Err.code_le (e : Err) : e.code.toNat ≤ 5 := by cases e <;> decide

/-- The five fields of `STATUS` from bit 0 up. -/
theorem statusReg_fields (s : State) :
    (statusReg s).extractLsb' 0 4 = s.err.code ∧ (statusReg s).getLsbD 4 = s.enc.valid
      ∧ (statusReg s).getLsbD 5 = s.enc.hist ∧ (statusReg s).getLsbD 6 = s.dec.valid
      ∧ (statusReg s).getLsbD 7 = s.dec.hist := by
  unfold statusReg
  generalize s.err.code = code
  refine ⟨BitVec.eq_of_getLsbD_eq fun i hi => ?_, ?_, ?_, ?_, ?_⟩
  · simp only [BitVec.getLsbD_extractLsb', BitVec.getLsbD_append, Nat.zero_add, hi, decide_true, Bool.true_and, if_true]
  all_goals simp only [BitVec.getLsbD_append]; simp

theorem hostRead_status (s : State) : hostRead s 0x01 = (statusReg s).setWidth 32 := rfl

/-- Settles O9: the host reads the fields of `statusReg`, zero-extended. -/
theorem statusShowsItsFields : Obligations.StatusShowsItsFields := by
  unfold Obligations.StatusShowsItsFields
  refine ⟨⟨rfl, rfl, rfl, rfl, rfl, rfl⟩, fun s => ?_⟩
  obtain ⟨hcode, hevalid, hehist, hdvalid, hdhist⟩ := statusReg_fields s
  have hbit (i : Nat) (hi : i < 8) : (hostRead s 0x01).getLsbD i = (statusReg s).getLsbD i := by
    rw [hostRead_status, BitVec.getLsbD_setWidth, decide_eq_true (by omega : i < 32), Bool.true_and]
  refine ⟨?_, (hbit 4 (by omega)).trans hevalid, (hbit 5 (by omega)).trans hehist, (hbit 6 (by omega)).trans hdvalid,
    (hbit 7 (by omega)).trans hdhist, fun i hi => ?_, s.err.code_le⟩
  · rw [← hcode]
    refine BitVec.eq_of_getLsbD_eq fun i hi => ?_
    simp only [BitVec.getLsbD_extractLsb', hi, decide_true, Bool.true_and, Nat.zero_add]
    exact hbit i (by omega)
  · rw [hostRead_status, BitVec.getLsbD_setWidth, BitVec.getLsbD_of_ge _ _ hi, Bool.and_false]

/-! ### Reset (10_state.md R38) -/

/-- `STATUS` with code 0 and every flag clear. -/
theorem statusReg_of_clear {s : State} (herr : s.err = .ok) (hev : s.enc.valid = false) (heh : s.enc.hist = false)
    (hdv : s.dec.valid = false) (hdh : s.dec.hist = false) : statusReg s = 0 := by
  unfold statusReg
  rw [herr, hev, heh, hdv, hdh]
  decide

/-- After reset every register reads 0, whatever the parameters, the host's moves and the frame stores are. -/
theorem readReg_afterReset (p : Params) (g : Nat) (host : List HostMove) (fin fout : Mem 16) (r : Reg) :
    readReg { State.afterReset p g with host := host, fin := fin, fout := fout } r = 0 := by
  cases r with
  | status => exact congrArg (BitVec.setWidth 32) (statusReg_of_clear rfl rfl rfl rfl rfl)
  | _ => rfl

theorem hostRead_afterReset (p : Params) (g : Nat) (host : List HostMove) (fin fout : Mem 16) (n : Nat) :
    hostRead { State.afterReset p g with host := host, fin := fin, fout := fout } n = 0 := by
  cases hn : Reg.ofNumber n with
  | none => exact hostRead_of_none hn _
  | some r => rw [hostRead_of_some hn, readReg_afterReset]

/-- Settles O10: both resets are `afterReset`, up to what the host keeps. -/
theorem resetGivesTheResetValues : Obligations.ResetGivesTheResetValues := by
  unfold Obligations.ResetGivesTheResetValues
  exact ⟨fun n => hostRead_afterReset _ _ _ _ _ n, rfl, rfl, rfl, rfl, fun s n => hostRead_afterReset _ _ _ _ _ n,
    fun _ => ⟨rfl, rfl, rfl, rfl, rfl, rfl, rfl, rfl, rfl, rfl, rfl, rfl⟩⟩

end Sys2Proof.Machine
end

section
/-! What a move of the host can do, and what a step keeps: the parameters and the invariant (10_state.md R37, R40). -/

namespace Sys2Proof.Machine

/-! ### The next states of a move -/

/-- The next states a move of the host can answer from `s`. -/
inductive MoveEffect (s : State) : State → Prop
  | stays : MoveEffect s s
  | command (word : BitVec 16) {i : Instr} {t : State} (h : Effect { s with cmd := word } i t) : MoveEffect s t
  | illegalWord (word : BitVec 16) : MoveEffect s (({ s with cmd := word } : State).setErr .illegalCommand)
  | register (r : Reg) (v : Word) (hcap : r = .ilen → v.toNat ≤ s.params.ibufCap) : MoveEffect s (writeReg s r v)
  | fin (row col : Nat) (v : Sample) (hplace : framePlace row col) :
    MoveEffect s (s.setFin (s.fin.write (frameKey (row, col)) v))
  | fout (row col : Nat) (v : Sample) (hplace : framePlace row col) :
    MoveEffect s (s.setFout (s.fout.write (frameKey (row, col)) v))
  | ibuf (j : Nat) (v : Byte) (hj : j < s.params.ibufCap) :
    MoveEffect s (s.setReader { s.dec.br with ibuf := s.dec.br.ibuf.write j v })
  | rese (k : Nat) (v : Word) (hk : k < s.params.maxN) : MoveEffect s (s.setEnc { s.enc with res := s.enc.res.write k v })
  | resd (k : Nat) (v : Word) (hk : k < s.params.maxN) : MoveEffect s (s.setDec { s.dec with res := s.dec.res.write k v })
  | copyOut (hfit : s.enc.bw.olen.toNat ≤ s.params.ibufCap) :
    MoveEffect s (s.setReader { s.dec.br with
      ilen := s.enc.bw.olen
      ibuf := s.dec.br.ibuf.writeFrom 0 ((List.range s.enc.bw.olen.toNat).map s.enc.bw.obuf.read) })
  | reset : MoveEffect s (hardReset s)

variable {s t : State}

theorem issue_effect {v : Word} (h : issue v s = .next t) : MoveEffect s t := by
  have hrun : runCommand { s with cmd := commandWord v } = .next t := h
  cases hdecode : decode (commandWord v) with
  | ok i =>
    rw [runCommand_of_decode_ok hdecode] at hrun
    exact .command (commandWord v) (exec_effect hrun)
  | error r =>
    rw [runCommand_of_decode_error hdecode] at hrun
    obtain rfl := Host.Outcome.next.inj hrun
    exact .illegalWord (commandWord v)

theorem hostWrite_effect {n : Nat} {v : Word} (h : hostWrite n v s = .next t) : MoveEffect s t := by
  cases hn : Reg.ofNumber n with
  | none =>
    rw [hostWrite_of_none hn] at h
    obtain rfl := Host.Outcome.next.inj h
    exact .stays
  | some r =>
    by_cases hcmd : r = .cmd
    · subst hcmd
      obtain rfl := Reg.number_eq hn
      exact issue_effect h
    · by_cases hcap : r = .ilen → v.toNat ≤ s.params.ibufCap
      · rw [hostWrite_of_some hn hcmd hcap] at h
        obtain rfl := Host.Outcome.next.inj h
        exact .register r v hcap
      · obtain ⟨rfl, hover⟩ := Classical.not_imp.1 hcap
        rw [hostWrite_ilen_of_over hn (Nat.lt_of_not_le hover)] at h
        cases h

theorem copyOut_effect (h : copyOut s = .next t) : MoveEffect s t := by
  unfold copyOut at h
  split_ifs at h with hover
  obtain rfl := Host.Outcome.next.inj h
  exact .copyOut (Nat.le_of_not_lt hover)

/-- A guarded move that answers passed its guard. -/
theorem next_of_guard {c : Prop} [Decidable c] {a : State} {r : Fault}
    (h : (if c then .next a else .fault r : Result) = .next t) : c ∧ t = a := by
  split_ifs at h with hc
  exact ⟨hc, (Host.Outcome.next.inj h).symm⟩

/-- A move that answers a next state has one of its effects. -/
theorem hostMove_effect {m : HostMove} (h : hostMove m s = .next t) : MoveEffect s t := by
  cases m with
  | writeReg n v => exact hostWrite_effect h
  | copyReg src dst => exact hostWrite_effect h
  | copyOut => exact copyOut_effect h
  | reset =>
    obtain rfl := Host.Outcome.next.inj h
    exact .reset
  | writeFin row col v =>
    obtain ⟨hplace, rfl⟩ := next_of_guard h
    exact .fin row col v hplace
  | writeFout row col v =>
    obtain ⟨hplace, rfl⟩ := next_of_guard h
    exact .fout row col v hplace
  | writeIbuf j v =>
    obtain ⟨hj, rfl⟩ := next_of_guard h
    exact .ibuf j v hj
  | writeRese k v =>
    obtain ⟨hk, rfl⟩ := next_of_guard h
    exact .rese k v hk
  | writeResd k v =>
    obtain ⟨hk, rfl⟩ := next_of_guard h
    exact .resd k v hk

/-- A step leaves an idle machine alone, or takes the host's first move off and makes it. -/
theorem step_effect (h : step s = .next t) : t = s ∨ ∃ rest, MoveEffect { s with host := rest } t := by
  cases hhost : s.host with
  | nil =>
    rw [step_of_host_nil hhost] at h
    exact .inl (Host.Outcome.next.inj h).symm
  | cons m rest =>
    rw [step_of_host_cons hhost] at h
    exact .inr ⟨rest, hostMove_effect h⟩

/-! ### The parameters -/

theorem MoveEffect.params_eq (h : MoveEffect s t) : t.params = s.params := by
  cases h with
  | command _ h => exact h.hostOwned_eq.1
  | register r v => exact (writeReg_frame s r v).1
  | _ => rfl

/-- Settles O13: no command, no register write and no other move has an effect on the parameters. -/
theorem noStepChangesTheParameters : Obligations.NoStepChangesTheParameters := by
  unfold Obligations.NoStepChangesTheParameters
  intro s t h
  obtain rfl | ⟨rest, hmove⟩ := step_effect h
  · rfl
  · exact hmove.params_eq

/-! ### The invariant -/

theorem Config.params_legal : Config.params.legal := by
  have hmaxN : Config.maxN ≤ 2 ^ 31 - 1 := by
    have := Nat.mod_lt Config.maxNSource (show 0 < 2 ^ 31 - 1 by omega)
    unfold Config.maxN
    omega
  have hobuf := Nat.mod_lt Config.obufSource (show 0 < 2 ^ 32 - 2 * Config.maxN by omega)
  refine ⟨Nat.le_add_left 1 _, ?_, ?_⟩
  · exact Nat.le_add_left (2 * Config.maxN) _
  · show Config.obufSource % (2 ^ 32 - 2 * Config.maxN) + 2 * Config.maxN < 2 ^ 32
    omega

/-- A machine that leaves reset with legal parameters meets the invariant, whatever moves and frames the host keeps. -/
theorem inv_afterReset {p : Params} (hp : p.legal) (g : Nat) (host : List HostMove) {fin fout : Mem 16}
    (hfin : frameInv fin) (hfout : frameInv fout) :
    Inv { State.afterReset p g with host := host, fin := fin, fout := fout } := by
  have hctx (g g' : Nat) : ctxInv p { cols := 0, rows := 0, fps := 0 } false false (.unspecified 16 g) (.unspecified 32 g') :=
    ⟨fun h => Bool.noConfusion h, fun h => Bool.noConfusion h, Mem.wf_unspecified _ _, Mem.below_unspecified _ _ _,
      Mem.wf_unspecified _ _, Mem.below_unspecified _ _ _⟩
  have hreader : Reader.inv p { pos := 0, ilen := 0, ibuf := .unspecified 8 (g + 5) } :=
    ⟨Nat.zero_le _, Mem.wf_unspecified _ _, Mem.below_unspecified _ _ _⟩
  exact ⟨hp, ⟨hctx _ _, Writer.inv_empty p (g + 2), Nat.zero_le _⟩, ⟨hctx _ _, hreader⟩, hfin, hfout⟩

/-- Settles O11: the implementation's parameters are legal, whatever the constants without a body are. -/
theorem resetMeetsTheInvariant : Obligations.ResetMeetsTheInvariant :=
  inv_afterReset Config.params_legal 0 [] (frameInv_unspecified 6) (frameInv_unspecified 7)

theorem Inv.hardReset (h : Inv s) : Inv (hardReset s) := by
  obtain ⟨hfin, hfout⟩ := h.frames
  exact inv_afterReset h.legal s.free s.host hfin hfout

theorem Inv.writeReg (h : Inv s) (r : Reg) {v : Word} (hcap : r = .ilen → v.toNat ≤ s.params.ibufCap) :
    Inv (writeReg s r v) := by
  cases r with
  | ilen =>
    obtain ⟨-, hwf, hbelow⟩ := h.reader
    exact h.setReader ⟨hcap rfl, hwf, hbelow⟩
  | _ => exact h

theorem Inv.copyOut (h : Inv s) (hfit : s.enc.bw.olen.toNat ≤ s.params.ibufCap) :
    Inv (s.setReader { s.dec.br with
      ilen := s.enc.bw.olen
      ibuf := s.dec.br.ibuf.writeFrom 0 ((List.range s.enc.bw.olen.toNat).map s.enc.bw.obuf.read) }) := by
  obtain ⟨-, hwf, hbelow⟩ := h.reader
  exact h.setReader ⟨hfit, Mem.wf_writeFrom _ _ hwf, Mem.below_writeFrom _ hbelow (by simpa using hfit)⟩

/-- Every move of the host keeps the invariant. -/
theorem MoveEffect.keeps_inv (h : MoveEffect s t) (hinv : Inv s) : Inv t := by
  cases h with
  | stays => exact hinv
  | command word h => exact h.keeps_inv hinv
  | illegalWord word => exact hinv
  | register r v hcap => exact hinv.writeReg r hcap
  | fin row col v hplace => exact hinv.setFin (frameInv_write v hinv.frames.1 hplace)
  | fout row col v hplace => exact hinv.setFout (frameInv_write v hinv.frames.2 hplace)
  | ibuf j v hj =>
    obtain ⟨hilen, hwf, hbelow⟩ := hinv.reader
    exact hinv.setReader ⟨hilen, Mem.wf_write _ _ hwf, Mem.below_write _ hbelow hj⟩
  | rese k v hk =>
    obtain ⟨⟨-, -, -, -, hwf, hbelow⟩, -⟩ := hinv.enc
    exact hinv.setEnc_res (Mem.wf_write _ _ hwf) (Mem.below_write _ hbelow hk)
  | resd k v hk =>
    obtain ⟨⟨-, -, -, -, hwf, hbelow⟩, -⟩ := hinv.dec
    exact hinv.setDec_res (Mem.wf_write _ _ hwf) (Mem.below_write _ hbelow hk) s.dec.br.pos
  | copyOut hfit => exact hinv.copyOut hfit
  | reset => exact hinv.hardReset

/-- Settles O12: a step is idle or a move, a move is an effect on one part of the state, and each operation has its rule. -/
theorem stepKeepsTheInvariant : Obligations.StepKeepsTheInvariant := by
  unfold Obligations.StepKeepsTheInvariant
  intro s t hinv h
  obtain rfl | ⟨rest, hmove⟩ := step_effect h
  · exact hinv
  · exact hmove.keeps_inv hinv

end Sys2Proof.Machine
end

section
/-! Noninterference: what an ENC command answers does not depend on DEC and `FOUT`, nor a DEC command on ENC and `FIN`
(10_state.md R21, 60_exceptions.md R185). -/

namespace Sys2Proof.Machine

/-! ### Outcomes changed by a function -/

theorem mapNext_ite (f : State → State) (c : Prop) [Decidable c] (a b : Result) :
    mapNext f (if c then a else b) = if c then mapNext f a else mapNext f b := apply_ite (mapNext f) c a b

/-! ### Another DEC context and output frame -/

/-- The state with the DEC context and the output frame replaced. -/
def State.withDecSide (d : Dec) (f : Mem 16) (s : State) : State := { s with dec := d, fout := f }

/-- A command that neither reads nor writes DEC and `FOUT`: replacing them before it is replacing them after it. -/
def DecBlind (run : State → Result) : Prop :=
  ∀ (d : Dec) (f : Mem 16) (s : State), run (s.withDecSide d f) = mapNext (State.withDecSide d f) (run s)

theorem execCinit_decBlind : DecBlind execCinit := by
  intro d f s
  unfold execCinit
  rw [mapNext_ite]
  rfl

theorem execTcenc_decBlind (w : Nat) : DecBlind (execTcenc w) := by
  intro d f s
  unfold execTcenc
  rw [mapNext_ite]
  rfl

theorem execTcdec_decBlind (w : Nat) : DecBlind (execTcdec w) := by
  intro d f s
  unfold execTcdec
  rw [mapNext_ite]
  rfl

theorem execBwrst_decBlind : DecBlind execBwrst := fun _ _ _ => rfl

theorem execBwput_decBlind (w : Nat) : DecBlind (execBwput w) := by
  intro d f s
  unfold execBwput
  rw [mapNext_ite, mapNext_ite]
  rfl

theorem execBwfin_decBlind : DecBlind execBwfin := by
  intro d f s
  unfold execBwfin
  rw [mapNext_ite]
  rfl

theorem execPfwd_decBlind : DecBlind execPfwd := by
  intro d f s
  unfold execPfwd
  rw [mapNext_ite, mapNext_ite, mapNext_ite]
  rfl

theorem execSelw_decBlind : DecBlind execSelw := by
  intro d f s
  unfold execSelw
  rw [mapNext_ite, mapNext_ite]
  dsimp only
  rw [mapNext_ite]
  rfl

theorem compressFrame_decBlind : DecBlind compressFrame := by
  intro d f s
  rw [compressFrame_eq, compressFrame_eq, mapNext_ite, mapNext_ite]
  rfl

theorem execCnext_decBlind : DecBlind execCnext := by
  intro d f s
  unfold execCnext
  rw [mapNext_ite, mapNext_ite, mapNext_ite, ← compressFrame_decBlind]
  rfl

/-! ### Another ENC context and input frame -/

/-- The state with the ENC context and the input frame replaced. -/
def State.withEncSide (e : Enc) (f : Mem 16) (s : State) : State := { s with enc := e, fin := f }

/-- A command that neither reads nor writes ENC and `FIN`. -/
def EncBlind (run : State → Result) : Prop :=
  ∀ (e : Enc) (f : Mem 16) (s : State), run (s.withEncSide e f) = mapNext (State.withEncSide e f) (run s)

theorem execDinit_encBlind : EncBlind execDinit := by
  intro e f s
  unfold execDinit
  rw [mapNext_ite]
  rfl

theorem execTcenc_encBlind (w : Nat) : EncBlind (execTcenc w) := by
  intro e f s
  unfold execTcenc
  rw [mapNext_ite]
  rfl

theorem execTcdec_encBlind (w : Nat) : EncBlind (execTcdec w) := by
  intro e f s
  unfold execTcdec
  rw [mapNext_ite]
  rfl

theorem execBrrst_encBlind : EncBlind execBrrst := fun _ _ _ => rfl

theorem execBrget_encBlind (w : Nat) : EncBlind (execBrget w) := by
  intro e f s
  unfold execBrget
  rw [mapNext_ite, mapNext_ite, mapNext_ite]
  rfl

theorem execPinv_encBlind : EncBlind execPinv := by
  intro e f s
  unfold execPinv
  rw [mapNext_ite, mapNext_ite, mapNext_ite]
  rfl

theorem decompressFrame_encBlind (w : Nat) : EncBlind (decompressFrame w) := by
  intro e f s
  cases hread : Reader.readAll (frameWidths s.params.framing w s.dec.spec.count) { s.dec.br with pos := 0 } with
  | none =>
    rw [decompressFrame_of_none hread, decompressFrame_of_none (s := s.withEncSide e f) hread]
    rfl
  | some codesReader =>
    obtain ⟨codes, br⟩ := codesReader
    rw [decompressFrame_of_some hread, decompressFrame_of_some (s := s.withEncSide e f) hread, mapNext_ite]
    rfl

theorem execDnext_encBlind (w : Nat) : EncBlind (execDnext w) := by
  intro e f s
  unfold execDnext
  rw [mapNext_ite, mapNext_ite, mapNext_ite, mapNext_ite, ← decompressFrame_encBlind]
  rfl

/-- Settles O18: each command of the two lists is blind to the other side. -/
theorem contextsDoNotInterfere : Obligations.ContextsDoNotInterfere := by
  unfold Obligations.ContextsDoNotInterfere
  refine ⟨fun s d f i w hi => ?dec, fun s e f i w hi => ?enc⟩
  case dec =>
    obtain rfl | rfl | rfl | rfl | rfl | rfl | rfl | rfl | rfl := hi
    · exact execCinit_decBlind d f s
    · exact execBwrst_decBlind d f s
    · exact execBwput_decBlind w d f s
    · exact execBwfin_decBlind d f s
    · exact execPfwd_decBlind d f s
    · exact execSelw_decBlind d f s
    · exact execCnext_decBlind d f s
    · exact execTcenc_decBlind w d f s
    · exact execTcdec_decBlind w d f s
  case enc =>
    obtain rfl | rfl | rfl | rfl | rfl | rfl | rfl := hi
    · exact execDinit_encBlind e f s
    · exact execBrrst_encBlind e f s
    · exact execBrget_encBlind w e f s
    · exact execPinv_encBlind e f s
    · exact execDnext_encBlind w e f s
    · exact execTcenc_encBlind w e f s
    · exact execTcdec_encBlind w e f s

end Sys2Proof.Machine
end

section
/-! The path of a frame: it visits each place of the grid once, and SERPENTINE steps to a neighbour (20_memory.md R54, R55). -/

namespace Sys2Proof.Machine

/-! ### The order within a row -/

/-- The column visited `j`-th in row `row`: SERPENTINE turns the odd rows round. -/
def scanColumn (scan : Scan) (cols row j : Nat) : Nat :=
  match scan with
  | .raster => j
  | .serpentine => if row % 2 = 0 then j else cols - 1 - j

variable {cols row j : Nat}

theorem scanColumn_serpentine_even (h : row % 2 = 0) : scanColumn .serpentine cols row j = j := if_pos h

theorem scanColumn_serpentine_odd (h : row % 2 = 1) : scanColumn .serpentine cols row j = cols - 1 - j :=
  if_neg (by omega)

theorem scanColumn_lt (scan : Scan) (hj : j < cols) : scanColumn scan cols row j < cols := by
  cases scan with
  | raster => exact hj
  | serpentine =>
    rcases Nat.mod_two_eq_zero_or_one row with hrow | hrow
    · rwa [scanColumn_serpentine_even hrow]
    · rw [scanColumn_serpentine_odd hrow]
      omega

/-- The order within a row is its own inverse. -/
theorem scanColumn_scanColumn (scan : Scan) (hj : j < cols) :
    scanColumn scan cols row (scanColumn scan cols row j) = j := by
  cases scan with
  | raster => rfl
  | serpentine =>
    rcases Nat.mod_two_eq_zero_or_one row with hrow | hrow
    · rw [scanColumn_serpentine_even hrow, scanColumn_serpentine_even hrow]
    · rw [scanColumn_serpentine_odd hrow, scanColumn_serpentine_odd hrow]
      omega

/-- Within a row of SERPENTINE the next column is adjacent. -/
theorem scanColumn_serpentine_succ (hj : j + 1 < cols) :
    scanColumn .serpentine cols row (j + 1) = scanColumn .serpentine cols row j + 1
      ∨ scanColumn .serpentine cols row j = scanColumn .serpentine cols row (j + 1) + 1 := by
  rcases Nat.mod_two_eq_zero_or_one row with hrow | hrow
  · left
    rw [scanColumn_serpentine_even hrow, scanColumn_serpentine_even hrow]
  · right
    rw [scanColumn_serpentine_odd hrow, scanColumn_serpentine_odd hrow]
    omega

/-- A row of SERPENTINE begins in the column in which the row before it ended. -/
theorem scanColumn_serpentine_turn (hj : j + 1 = cols) :
    scanColumn .serpentine cols (row + 1) 0 = scanColumn .serpentine cols row j := by
  rcases Nat.mod_two_eq_zero_or_one row with hrow | hrow
  · rw [scanColumn_serpentine_even hrow, scanColumn_serpentine_odd (by omega)]
    omega
  · rw [scanColumn_serpentine_odd hrow, scanColumn_serpentine_even (by omega)]
    omega

/-! ### The path by row and column -/

theorem path_eq (scan : Scan) (cols k : Nat) : path scan cols k = (k / cols, scanColumn scan cols (k / cols) (k % cols)) := by
  cases scan with
  | raster => rfl
  | serpentine =>
    simp only [path, scanColumn]
    split <;> rfl

@[simp] theorem path_zero (scan : Scan) (cols : Nat) : path scan cols 0 = (0, 0) := by
  cases scan <;> simp [path]

/-- The index of the `j`-th visited sample of a row. -/
theorem path_mul_add (scan : Scan) (row : Nat) (hj : j < cols) :
    path scan cols (cols * row + j) = (row, scanColumn scan cols row j) := by
  have hrow : (cols * row + j) / cols = row := by
    rw [Nat.mul_add_div (by omega), Nat.div_eq_of_lt hj, Nat.add_zero]
  have hcol : (cols * row + j) % cols = j := by rw [Nat.mul_add_mod, Nat.mod_eq_of_lt hj]
  rw [path_eq, hrow, hcol]

/-- The index of a place: in its row, the position that its column turns back to. -/
theorem path_surj (scan : Scan) {rows r c : Nat} (hr : r < rows) (hc : c < cols) :
    ∃ k, k < cols * rows ∧ path scan cols k = (r, c) := by
  have hj : scanColumn scan cols r c < cols := scanColumn_lt scan hc
  refine ⟨cols * r + scanColumn scan cols r c, ?_, ?_⟩
  · calc cols * r + scanColumn scan cols r c < cols * r + cols := Nat.add_lt_add_left hj _
      _ = cols * (r + 1) := (Nat.mul_succ cols r).symm
      _ ≤ cols * rows := Nat.mul_le_mul_left cols hr
  · rw [path_mul_add scan r hj, scanColumn_scanColumn scan hc]

/-- Settles O36: the path keeps to the grid, visits no place twice, and reaches every place. -/
theorem pathIsABijectionOntoTheGrid : Obligations.PathIsABijectionOntoTheGrid := by
  unfold Obligations.PathIsABijectionOntoTheGrid
  intro scan cols rows hcols _
  exact ⟨path_zero scan cols, fun k hk => ⟨path_row_lt scan hk, path_col_lt scan k hcols⟩,
    fun _ _ _ _ heq => path_inj scan hcols heq, fun _ _ hr hc => path_surj scan hr hc⟩

/-! ### Consecutive samples -/

theorem path_succ_at_row_end (scan : Scan) (hj : j + 1 = cols) :
    path scan cols (cols * row + j + 1) = (row + 1, scanColumn scan cols (row + 1) 0) := by
  have hk : cols * row + j + 1 = cols * (row + 1) + 0 := by rw [Nat.mul_succ, Nat.add_assoc, hj, Nat.add_zero]
  rw [hk, path_mul_add scan (row + 1) (by omega)]

/-- The same row and adjacent columns, or the next row and the same column. -/
def neighbours (a b : Nat × Nat) : Prop :=
  (b.1 = a.1 ∧ (b.2 = a.2 + 1 ∨ a.2 = b.2 + 1)) ∨ (b.1 = a.1 + 1 ∧ b.2 = a.2)

theorem path_serpentine_neighbours (k : Nat) (hcols : 1 ≤ cols) :
    neighbours (path .serpentine cols k) (path .serpentine cols (k + 1)) := by
  obtain ⟨row, j, hj, rfl⟩ : ∃ row j, j < cols ∧ k = cols * row + j :=
    ⟨k / cols, k % cols, Nat.mod_lt k hcols, (Nat.div_add_mod k cols).symm⟩
  rw [path_mul_add _ row hj]
  rcases Nat.lt_or_eq_of_le (show j + 1 ≤ cols from hj) with hnext | hend
  · rw [Nat.add_assoc, path_mul_add _ row hnext]
    exact .inl ⟨rfl, scanColumn_serpentine_succ hnext⟩
  · rw [path_succ_at_row_end _ hend, scanColumn_serpentine_turn hend]
    exact .inr ⟨rfl, rfl⟩

/-- Settles O52: the order of the rows and of the columns in them, and the step from each sample to the next. -/
theorem pathFollowsTheScanOrder : Obligations.PathFollowsTheScanOrder := by
  unfold Obligations.PathFollowsTheScanOrder
  refine ⟨?raster, ?even, ?odd, ?neighbour⟩
  case raster => exact fun cols k => path_eq .raster cols k
  case even =>
    intro cols k hrow
    rw [path_eq, scanColumn_serpentine_even hrow]
  case odd =>
    intro cols k hrow
    rw [path_eq, scanColumn_serpentine_odd hrow]
  case neighbour => exact fun cols k hcols => path_serpentine_neighbours k hcols

end Sys2Proof.Machine
end

section
/-! The host's writes of one element: where each is made, and what it leaves alone (20_memory.md R50 to R60). -/

namespace Sys2Proof.Machine

/-! ### Each write of an element, inside its memory and outside -/

variable {s : State} {r c j k : Nat}

theorem hostMove_writeFin_of_place (v : Sample) (h : framePlace r c) :
    hostMove (.writeFin r c v) s = .next (s.setFin (s.fin.write (frameKey (r, c)) v)) := if_pos h

theorem hostMove_writeFin_of_not_place (v : Sample) (h : ¬ framePlace r c) :
    hostMove (.writeFin r c v) s = .fault .noSuchAddress := if_neg h

theorem hostMove_writeFout_of_place (v : Sample) (h : framePlace r c) :
    hostMove (.writeFout r c v) s = .next (s.setFout (s.fout.write (frameKey (r, c)) v)) := if_pos h

theorem hostMove_writeFout_of_not_place (v : Sample) (h : ¬ framePlace r c) :
    hostMove (.writeFout r c v) s = .fault .noSuchAddress := if_neg h

theorem hostMove_writeIbuf_of_lt (v : Byte) (h : j < s.params.ibufCap) :
    hostMove (.writeIbuf j v) s = .next (s.setReader { s.dec.br with ibuf := s.dec.br.ibuf.write j v }) := if_pos h

theorem hostMove_writeIbuf_of_le (v : Byte) (h : s.params.ibufCap ≤ j) :
    hostMove (.writeIbuf j v) s = .fault .noSuchAddress := if_neg (Nat.not_lt.2 h)

theorem hostMove_writeRese_of_lt (v : Word) (h : k < s.params.maxN) :
    hostMove (.writeRese k v) s = .next (s.setEnc { s.enc with res := s.enc.res.write k v }) := if_pos h

theorem hostMove_writeRese_of_le (v : Word) (h : s.params.maxN ≤ k) :
    hostMove (.writeRese k v) s = .fault .noSuchAddress := if_neg (Nat.not_lt.2 h)

theorem hostMove_writeResd_of_lt (v : Word) (h : k < s.params.maxN) :
    hostMove (.writeResd k v) s = .next (s.setDec { s.dec with res := s.dec.res.write k v }) := if_pos h

theorem hostMove_writeResd_of_le (v : Word) (h : s.params.maxN ≤ k) :
    hostMove (.writeResd k v) s = .fault .noSuchAddress := if_neg (Nat.not_lt.2 h)

/-! ### The places of a frame -/

theorem not_framePlace_iff : ¬ framePlace r c ↔ 65535 ≤ r ∨ 65535 ≤ c := by
  unfold framePlace
  omega

/-- Two places of a frame have different keys, so a write of one keeps the other. -/
theorem read_write_frameKey_of_ne {m : Mem 16} {r' c' : Nat} (v : Sample) (h : framePlace r c) (h' : framePlace r' c')
    (hne : (r', c') ≠ (r, c)) : (m.write (frameKey (r, c)) v).read (frameKey (r', c')) = m.read (frameKey (r', c')) := by
  obtain ⟨-, hc⟩ := h
  obtain ⟨-, hc'⟩ := h'
  have hkey : frameKey (r', c') ≠ frameKey (r, c) := fun heq => hne (frameKey_inj (by omega) (by omega) heq)
  exact Mem.read_write_of_ne m v hkey

/-- Settles O8: inside its memory each write is one `Mem.write`, outside it is a fault. -/
theorem hostElementWrites : Obligations.HostElementWrites := by
  unfold Obligations.HostElementWrites
  refine ⟨?frame, ?ibuf, ?residual, ?frameFault, ?ibufFault, ?residualFault⟩
  case frame =>
    intro s r c v hplace
    exact ⟨⟨_, hostMove_writeFin_of_place v hplace, Mem.read_write_same _ _ _,
        fun _ _ hplace' hne => read_write_frameKey_of_ne v hplace hplace' hne⟩,
      ⟨_, hostMove_writeFout_of_place v hplace, Mem.read_write_same _ _ _,
        fun _ _ hplace' hne => read_write_frameKey_of_ne v hplace hplace' hne⟩⟩
  case ibuf =>
    intro s j v hj
    exact ⟨_, hostMove_writeIbuf_of_lt v hj, Mem.read_write_same _ _ _, fun _ hne => Mem.read_write_of_ne _ v hne⟩
  case residual =>
    intro s k v hk
    exact ⟨⟨_, hostMove_writeRese_of_lt v hk, Mem.read_write_same _ _ _, fun _ hne => Mem.read_write_of_ne _ v hne⟩,
      ⟨_, hostMove_writeResd_of_lt v hk, Mem.read_write_same _ _ _, fun _ hne => Mem.read_write_of_ne _ v hne⟩⟩
  case frameFault =>
    intro s r c v hout
    have hplace : ¬ framePlace r c := not_framePlace_iff.2 hout
    exact ⟨hostMove_writeFin_of_not_place v hplace, hostMove_writeFout_of_not_place v hplace⟩
  case ibufFault => exact fun s j v hj => hostMove_writeIbuf_of_le v hj
  case residualFault => exact fun s k v hk => ⟨hostMove_writeRese_of_le v hk, hostMove_writeResd_of_le v hk⟩

end Sys2Proof.Machine
end

section
/-! The decoder and the encoder: a word decodes to a command exactly when its fields are the command's opcode and operand
(30_encoding.md R70 to R74). -/

namespace Sys2Proof.Machine

/-! ### The fields of a word -/

theorem word_eq_iff_fields {a b : BitVec 16} : a = b ↔ opField a = opField b ∧ wField a = wField b := by
  constructor
  · rintro rfl
    exact ⟨rfl, rfl⟩
  · rintro ⟨hop, hw⟩
    apply BitVec.eq_of_toNat_eq
    unfold opField at hop
    unfold wField at hw
    omega

theorem wField_lt (word : BitVec 16) : wField word < 256 := Nat.mod_lt _ (by omega)

theorem wField_eq_mask (word : BitVec 16) : wField word = (word &&& 0x00FF).toNat := by
  rw [BitVec.toNat_and]
  exact (Nat.and_two_pow_sub_one_eq_mod word.toNat 8).symm

/-- The mask `0xFF00` keeps the bits 15:8 where they are. -/
theorem toNat_opMask (word : BitVec 16) : (word &&& 0xFF00).toNat = opField word * 256 := by
  have hshift : word &&& (0xFF00 : BitVec 16) = (word >>> 8) <<< 8 := by
    ext i hi
    interval_cases i <;> simp
  have hlt := word.isLt
  rw [hshift, BitVec.toNat_shiftLeft, BitVec.toNat_ushiftRight, Nat.shiftLeft_eq, Nat.shiftRight_eq_div_pow]
  unfold opField
  omega

theorem opField_eq_iff_mask {word : BitVec 16} {op : Nat} (hop : op < 256) :
    opField word = op ↔ word &&& 0xFF00 = BitVec.ofNat 16 (op * 256) := by
  rw [← BitVec.toNat_inj, toNat_opMask, BitVec.toNat_ofNat]
  omega

/-! ### The decoder -/

theorem opcode_lt (i : Instr) : opcode i < 256 := by cases i <;> simp [opcode]

theorem formatN_eq_ok {i j : Instr} {w : Nat} : formatN i w = .ok j ↔ w = 0 ∧ i = j := by
  unfold formatN
  split
  · next hw => simp [hw]
  · next hw => simp [hw]

theorem formatN_of_ne_zero (i : Instr) {w : Nat} (h : w ≠ 0) : formatN i w = .error .operand := if_neg h

/-- The opcode table of 30_encoding.md R72, read by the fields of the word. -/
theorem decode_eq_ok_iff_fields {word : BitVec 16} {i : Instr} :
    decode word = .ok i ↔ opField word = opcode i ∧ wField word = i.operand := by
  constructor
  · intro h
    unfold decode at h
    split at h
    case h_15 => cases h
    case h_3 hop | h_4 hop | h_6 hop | h_9 hop | h_14 hop =>
      obtain rfl := Except.ok.inj h
      exact ⟨hop, rfl⟩
    all_goals
      next hop =>
      obtain ⟨hw, rfl⟩ := formatN_eq_ok.1 h
      exact ⟨hop, hw⟩
  · rintro ⟨hop, hw⟩
    unfold decode
    rw [hop, hw]
    cases i <;> rfl

theorem encode_eq_iff_fields {word : BitVec 16} {i : Instr} (h : i.wf) :
    encode i = word ↔ opField word = opcode i ∧ wField word = i.operand := by
  obtain ⟨hop, hw⟩ := Laws.EncodingFields.fields i (opcode_lt i) h
  rw [word_eq_iff_fields, hop, hw]
  exact and_congr eq_comm eq_comm

/-- Settles O1: decoding and encoding say the same about the two fields of the word. -/
theorem decodeAnswersExactlyTheEncodedCommand : Obligations.DecodeAnswersExactlyTheEncodedCommand := by
  unfold Obligations.DecodeAnswersExactlyTheEncodedCommand
  intro word i
  rw [decode_eq_ok_iff_fields]
  constructor
  · intro h
    have hwf : i.operand < 256 := h.2 ▸ wField_lt word
    exact ⟨hwf, (encode_eq_iff_fields hwf).2 h⟩
  · rintro ⟨hwf, henc⟩
    exact (encode_eq_iff_fields hwf).1 henc

theorem decode_eq_ok_iff {word : BitVec 16} {i : Instr} (h : i.wf) : decode word = .ok i ↔ word = encode i := by
  rw [decodeAnswersExactlyTheEncodedCommand]
  exact ⟨fun h => h.2.symm, fun heq => ⟨h, heq.symm⟩⟩

theorem decode_encode {i : Instr} (h : i.wf) : decode (encode i) = .ok i := (decode_eq_ok_iff h).2 rfl

/-- The match of a row under the mask `0xFF00`, and the operand the low byte (30_encoding.md R73). -/
theorem decode_eq_ok_iff_mask {word : BitVec 16} {i : Instr} (op : Nat) (hop : opcode i = op) :
    decode word = .ok i ↔ word &&& 0xFF00 = BitVec.ofNat 16 (op * 256) ∧ i.operand = (word &&& 0x00FF).toNat := by
  rw [decode_eq_ok_iff_fields, opField_eq_iff_mask (opcode_lt i), wField_eq_mask, hop]
  exact and_congr_right fun _ => eq_comm

/-! ### Illegal words (30_encoding.md R74) -/

theorem decode_of_opcode_unknown {word : BitVec 16}
    (h : opField word ∉ [0x01, 0x02, 0x10, 0x11, 0x20, 0x21, 0x22, 0x28, 0x29, 0x30, 0x31, 0x38, 0x40, 0x41]) :
    decode word = .error .opcode := by
  unfold decode
  split
  case h_15 => rfl
  all_goals
    next hop => exact absurd (by rw [hop]; decide) h

theorem decode_of_operand_ne_zero {word : BitVec 16}
    (hop : opField word ∈ [0x01, 0x02, 0x20, 0x22, 0x28, 0x30, 0x31, 0x38, 0x40]) (hw : wField word ≠ 0) :
    decode word = .error .operand := by
  simp only [List.mem_cons, List.not_mem_nil, or_false] at hop
  unfold decode
  rcases hop with hop | hop | hop | hop | hop | hop | hop | hop | hop <;> rw [hop] <;> exact formatN_of_ne_zero _ hw

/-- Settles O3: each legal word is an encoding, each illegal word is one of the two kinds above. -/
theorem sampleWordsDecodeToTheirCommands : Obligations.SampleWordsDecodeToTheirCommands := by
  unfold Obligations.SampleWordsDecodeToTheirCommands
  exact ⟨decode_encode (i := .cinit) (by decide), decode_encode (i := .tcenc 4) (by decide),
    decode_encode (i := .bwput 5) (by decide), decode_encode (i := .selw) (by decide),
    decode_encode (i := .dnext 14) (by decide), decode_of_opcode_unknown (by decide),
    decode_of_operand_ne_zero (by decide) (by decide)⟩

/-! ### Commands that end with their error at once -/

theorem badWidth_iff {w : Nat} : badWidth w ↔ w = 0 ∨ 16 < w := by
  unfold badWidth Config.wMin Config.wMax
  omega

theorem not_badWidth_of_goodWidth {w : Nat} (h : goodWidth w) : ¬ badWidth w := by
  rw [badWidth_iff]
  omega

section

variable {s : State} {w : Nat}

theorem exec_tcenc_of_badWidth (h : badWidth w) : exec (.tcenc w) s = raise .badOperand s := if_pos h

theorem exec_tcdec_of_badWidth (h : badWidth w) : exec (.tcdec w) s = raise .badOperand s := if_pos h

theorem exec_bwput_of_badWidth (h : badWidth w) : exec (.bwput w) s = raise .badOperand s := if_pos h

theorem exec_brget_of_badWidth (h : badWidth w) : exec (.brget w) s = raise .badOperand s := if_pos h

theorem exec_dnext_of_badWidth (h : badWidth w) (hvalid : s.dec.valid = true) (hdims : s.foutDims = s.dec.spec.dims) :
    exec (.dnext w) s = raise .badOperand s := by
  show execDnext w s = _
  unfold execDnext
  rw [if_neg (by simp [hvalid]), if_neg (not_not.2 hdims), if_pos h]

theorem exec_pfwd_of_not_valid (h : s.enc.valid = false) : exec .pfwd s = raise .illegalCommand s := if_pos h

theorem exec_selw_of_not_valid (h : s.enc.valid = false) : exec .selw s = raise .illegalCommand s := if_pos h

theorem exec_cnext_of_not_valid (h : s.enc.valid = false) : exec .cnext s = raise .illegalCommand s := if_pos h

theorem exec_pinv_of_not_valid (h : s.dec.valid = false) : exec .pinv s = raise .illegalCommand s := if_pos h

theorem exec_dnext_of_not_valid (h : s.dec.valid = false) : exec (.dnext w) s = raise .illegalCommand s := if_pos h

end

/-- Settles O2: a format N row by its one encoding, a format W row by the two masks, a bad width by the checks of the five
format W commands. -/
theorem decodeFollowsTheOpcodeTable : Obligations.DecodeFollowsTheOpcodeTable := by
  unfold Obligations.DecodeFollowsTheOpcodeTable
  refine ⟨fun word => ?formatN, fun word w => ?formatW, fun s w i hdecode hw hi => ?badWidth⟩
  case formatN =>
    have row (i : Instr) (hwf : i.wf) : decode word = .ok i ↔ word = encode i := decode_eq_ok_iff hwf
    exact ⟨row .cinit (by decide), row .dinit (by decide), row .bwrst (by decide), row .bwfin (by decide),
      row .brrst (by decide), row .pfwd (by decide), row .pinv (by decide), row .selw (by decide), row .cnext (by decide)⟩
  case formatW =>
    exact ⟨decode_eq_ok_iff_mask 0x10 rfl, decode_eq_ok_iff_mask 0x11 rfl, decode_eq_ok_iff_mask 0x21 rfl,
      decode_eq_ok_iff_mask 0x29 rfl, decode_eq_ok_iff_mask 0x41 rfl⟩
  case badWidth =>
    have hbad := badWidth_iff.2 hw
    rw [runCommand_of_decode_ok hdecode]
    obtain rfl | rfl | rfl | rfl | ⟨rfl, hvalid, hdims⟩ := hi
    · exact exec_tcenc_of_badWidth hbad
    · exact exec_tcdec_of_badWidth hbad
    · exact exec_bwput_of_badWidth hbad
    · exact exec_brget_of_badWidth hbad
    · exact exec_dnext_of_badWidth hbad hvalid hdims

/-- A delivered encoding runs its command. -/
theorem runCommand_of_encode {s : State} {i : Instr} (hwf : i.wf) (h : encode i = s.cmd) : runCommand s = exec i s :=
  runCommand_of_decode_ok (h ▸ decode_encode hwf)

/-- Settles O4: an illegal word does not decode, and the five context commands check their context first. -/
theorem illegalWordsAndUnconstructedContextsRaise : Obligations.IllegalWordsAndUnconstructedContextsRaise := by
  unfold Obligations.IllegalWordsAndUnconstructedContextsRaise
  refine ⟨fun s hillegal => ?illegal, fun s i hi hwf henc hvalid => ?enc, fun s i w hi hwf hdec hvalid => ?dec⟩
  case illegal =>
    obtain hop | ⟨hop, hw⟩ := hillegal
    · exact runCommand_of_decode_error (decode_of_opcode_unknown hop)
    · exact runCommand_of_decode_error (decode_of_operand_ne_zero hop hw)
  case enc =>
    rw [runCommand_of_encode hwf henc]
    obtain rfl | rfl | rfl := hi
    · exact exec_pfwd_of_not_valid hvalid
    · exact exec_selw_of_not_valid hvalid
    · exact exec_cnext_of_not_valid hvalid
  case dec =>
    rw [runCommand_of_encode hwf hdec]
    obtain rfl | rfl := hi
    · exact exec_pinv_of_not_valid hvalid
    · exact exec_dnext_of_not_valid hvalid

end Sys2Proof.Machine
end

section
/-! COPYOUT: the valid bytes of `OBUF` become the input stream (30_encoding.md R77). -/

namespace Sys2Proof.Machine

/-- Writing the first `n` elements of `f` from element 0 on replaces those elements and no other. -/
theorem Mem.read_writeFrom_zero_range {w : Nat} (m : Mem w) (f : Nat → BitVec w) (n j : Nat) :
    (m.writeFrom 0 ((List.range n).map f)).read j = if j < n then f j else m.read j := by
  rw [Mem.read_writeFrom, if_pos (Nat.zero_le j), Nat.sub_zero]
  by_cases hj : j < n <;> simp [hj]

theorem copyOut_of_over {s : State} (h : s.params.ibufCap < s.enc.bw.olen.toNat) : copyOut s = .refused .ilenCapacity :=
  if_pos h

theorem copyOut_of_fits {s : State} (h : s.enc.bw.olen.toNat ≤ s.params.ibufCap) :
    copyOut s = .next (s.setReader
      { s.dec.br with
        ilen := s.enc.bw.olen
        ibuf := s.dec.br.ibuf.writeFrom 0 ((List.range s.enc.bw.olen.toNat).map s.enc.bw.obuf.read) }) :=
  if_neg (Nat.not_lt.2 h)

/-- Settles O7: the bytes of the new `IBUF` by `Mem.read_writeFrom_zero_range`. -/
theorem copyoutCopiesTheOutputStream : Obligations.CopyoutCopiesTheOutputStream := by
  unfold Obligations.CopyoutCopiesTheOutputStream
  refine fun s => ⟨fun hfits => ⟨_, copyOut_of_fits hfits, fun j hj => ?copied, fun j hj => ?kept⟩, copyOut_of_over⟩
  case copied => rw [Mem.read_writeFrom_zero_range, if_pos hj]
  case kept => rw [Mem.read_writeFrom_zero_range, if_neg (Nat.not_lt.2 hj)]

end Sys2Proof.Machine
end

section
/-! CNEXT: the width it selects, the writer it leaves, and its frame under SEEDED32 (44_compressor.md R152,
30_encoding.md R88). -/

namespace Sys2Proof.Machine

/-! ### The selected width (42_width_selector.md R120) -/

theorem leastWidth_selectWidth (rs : List Int) : leastWidth (selectWidth rs) rs := by
  refine ⟨one_le_selectWidth rs, (selectWidth_le_iff (one_le_selectWidth rs) rs).1 (le_refl _), fun hlt => ?_⟩
  by_contra hall
  push Not at hall
  have hle := (selectWidth_le_iff (by omega) rs).2 hall
  omega

theorem goodWidth_selectWidth {rs : List Int} (h : ∀ r ∈ rs, inWidth 16 r) : goodWidth (selectWidth rs) :=
  ⟨one_le_selectWidth rs, (selectWidth_le_iff (by omega) rs).2 h⟩

/-! ### The writer of a packed frame -/

/-- The bits of a packed frame are its codes, filled up to a byte with zeros (30_encoding.md R81 to R84). -/
theorem packedWriter_spec {items : List (Nat × Nat)} (g : Nat) (hfit : (itemBits items + 7) / 8 < 2 ^ 32) :
    (Writer.putAll items (.empty g)).finish.nb = 0 ∧ (Writer.putAll items (.empty g)).finish.acc = 0
      ∧ (Writer.putAll items (.empty g)).finish.olen.toNat = (itemBits items + 7) / 8
      ∧ (Writer.putAll items (.empty g)).finish.stream =
        itemsBits items ++ List.replicate ((8 - itemBits items % 8) % 8) false := by
  obtain ⟨hsize, hstream, -, hlow⟩ := Writer.putAll_spec items (.empty g) (by rw [Writer.size_empty]; omega)
  rw [Writer.size_empty, Nat.zero_add] at hsize
  rw [Writer.stream_empty, List.nil_append] at hstream
  have hnb := (Writer.putAll items (.empty g)).nb_eq
  have holen := (Writer.putAll items (.empty g)).olen_eq
  rw [hsize] at hnb holen
  obtain ⟨hnb', hacc', holen', hstream', -⟩ := Writer.finish_spec (Writer.putAll items (.empty g)) (by omega) (hlow rfl)
  rw [hsize] at holen'
  rw [hstream, hnb] at hstream'
  exact ⟨hnb', hacc', holen', hstream'⟩

/-! ### The bytes of a stream -/

theorem itemsBits_append (a b : List (Nat × Nat)) : itemsBits (a ++ b) = itemsBits a ++ itemsBits b := List.flatMap_append

/-- Byte `j` of `OBUF` is the bits `8 * j` to `8 * j + 7` of the stream (20_memory.md R57). -/
theorem Writer.stream_byte {b : Writer} {j : Nat} (hj : j < b.olen.toNat) :
    (b.stream.drop (8 * j)).take 8 = codeBits (b.obuf.read j).toNat 8 := by
  obtain ⟨k, hk⟩ : ∃ k, b.olen.toNat = j + (k + 1) := ⟨b.olen.toNat - j - 1, by omega⟩
  unfold Writer.stream
  rw [hk, List.range_add, List.flatMap_append, List.append_assoc, List.drop_left' (bytes_length _ j),
    List.range_succ_eq_map, List.map_cons, List.flatMap_cons, List.append_assoc, List.take_left' (codeBits_length _ 8),
    Nat.add_zero]

/-- Byte `j` of bytes written one after another. -/
theorem itemsBits_byte (bs : List Nat) (tail : List Bool) {j : Nat} (hj : j < bs.length) :
    ((itemsBits (bs.map (fun b => (b, 8))) ++ tail).drop (8 * j)).take 8 = codeBits bs[j] 8 := by
  induction bs generalizing j with
  | nil => exact absurd hj (Nat.not_lt_zero j)
  | cons b bs ih =>
    have hcons : itemsBits ((b :: bs).map (fun b => (b, 8))) ++ tail
        = codeBits b 8 ++ (itemsBits (bs.map (fun b => (b, 8))) ++ tail) := by
      simp [itemsBits]
    rw [hcons]
    cases j with
    | zero => exact List.take_left' (codeBits_length b 8)
    | succ j =>
      rw [show 8 * (j + 1) = 8 + 8 * j by omega, ← List.drop_drop, List.drop_left' (codeBits_length b 8)]
      exact ih (Nat.lt_of_succ_lt_succ hj)

/-- The first bytes of `OBUF` are the bytes its stream begins with. -/
theorem Writer.read_of_stream_eq {b : Writer} {bs : List Nat} {tail : List Bool}
    (h : b.stream = itemsBits (bs.map (fun b => (b, 8))) ++ tail) (hbytes : ∀ x ∈ bs, x < 256) {j : Nat}
    (hj : j < bs.length) : (b.obuf.read j).toNat = bs[j] := by
  have hbits : itemBits (bs.map (fun b => (b, 8))) = 8 * bs.length := by
    simp [itemBits, Function.comp_def, Nat.mul_comm]
  have hlen := congrArg List.length h
  rw [Writer.stream_length, List.length_append, itemsBits_length, hbits] at hlen
  have holen := b.olen_eq
  refine eq_of_codeBits_eq (w := 8) (BitVec.isLt _) (hbytes _ (List.getElem_mem hj)) ?_
  rw [← Writer.stream_byte (by omega), h, itemsBits_byte bs tail hj]

/-! ### The command -/

theorem exec_cnext_of_ready {s : State} (h : encReady s) : exec .cnext s = compressFrame s := by
  obtain ⟨hvalid, hdims, hcount⟩ := h
  show execCnext s = _
  unfold execCnext
  rw [if_neg (by simp [hvalid]), if_neg (not_not.2 hdims), if_neg (Nat.not_lt.2 hcount)]

/-- What CNEXT answers on residuals that fit, as the fields of `s` it writes (44_compressor.md R152, R153). -/
theorem exec_cnext_of_fits {s : State} (hready : encReady s) (hwidth : frameWidth s ≤ 16)
    (hfit : (itemBits (framePack s) + 7) / 8 ≤ s.params.obufCap) :
    exec .cnext s = .next { s with
      enc := { s.enc with
        res := (advancedEnc s).res, history := (advancedEnc s).history, hist := true,
        bw := (Writer.putAll (framePack s) (.empty s.free)).finish, width := BitVec.ofNat 8 (frameWidth s) },
      free := s.free + 1, err := .ok } := by
  rw [exec_cnext_of_ready hready, compressFrame_eq, if_neg (Nat.not_lt.2 hwidth), if_neg (Nat.not_lt.2 hfit),
    advancedEnc_frame]

/-! ### The frame under SEEDED32 (30_encoding.md R88) -/

theorem toNat_ofInt_eq_tcEncode (v : Int) : (BitVec.ofInt 32 v).toNat = tcEncode v 32 := BitVec.toNat_ofInt ..

@[simp] theorem seedBytes_length (r : Int) : (seedBytes r).length = 4 := rfl

theorem seedBytes_lt (r : Int) : ∀ b ∈ seedBytes r, b < 256 := by
  intro b hb
  simp only [seedBytes, List.mem_cons, List.not_mem_nil, or_false] at hb
  omega

/-- The four bytes hold the number, least significant first. -/
theorem seedBytes_sum (r : Int) :
    (seedBytes r)[0] + 2 ^ 8 * (seedBytes r)[1] + 2 ^ 16 * (seedBytes r)[2] + 2 ^ 24 * (seedBytes r)[3] = tcEncode r 32 := by
  have hlt := tcEncode_lt r 32
  simp only [seedBytes, List.getElem_cons_zero, List.getElem_cons_succ]
  omega

theorem frameResidualList_eq_cons {s : State} (h : 1 ≤ s.enc.spec.count) :
    frameResidualList s = residual s 0 :: (frameResidualList s).drop 1 := by
  obtain ⟨n, hn⟩ : ∃ n, s.enc.spec.count = n + 1 := ⟨s.enc.spec.count - 1, by omega⟩
  unfold frameResidualList
  rw [hn, List.range_succ_eq_map]
  rfl

theorem frameWidth_of_seeded32 {s : State} (h : s.params.framing = .seeded32) :
    frameWidth s = selectWidth ((frameResidualList s).drop 1) := by
  unfold frameWidth
  rw [h]
  rfl

theorem framePack_of_seeded32 {s : State} (h : s.params.framing = .seeded32) (hcount : 1 ≤ s.enc.spec.count) :
    framePack s = (seedBytes (residual s 0)).map (fun b => (b, 8))
      ++ ((frameResidualList s).drop 1).map (fun r => (tcEncode r (frameWidth s), frameWidth s)) := by
  unfold framePack
  rw [h, frameResidualList_eq_cons hcount]
  rfl

theorem itemBits_framePack_of_seeded32 {s : State} (h : s.params.framing = .seeded32) (hcount : 1 ≤ s.enc.spec.count) :
    itemBits (framePack s) = 32 + (s.enc.spec.count - 1) * frameWidth s := by
  have hseed : itemBits ((seedBytes (residual s 0)).map (fun b => (b, 8))) = 32 := rfl
  rw [framePack_of_seeded32 h hcount, itemBits_append, hseed, itemBits_map, List.length_drop, frameResidualList_length]

theorem frameBytes_of_seeded32 {p : Params} (h : p.framing = .seeded32) : p.frameBytes = 2 * p.maxN + 4 := by
  simp only [Params.frameBytes, h]

/-- A frame of widths up to 16 stays within `OBUF_CAP` (41_bitstream.md R104). -/
theorem framePack_fits_of_seeded32 {s : State} (hready : encReady s) (hlegal : s.params.legal)
    (h : s.params.framing = .seeded32) (hcount : 1 ≤ s.enc.spec.count) (hwidth : frameWidth s ≤ 16) :
    (itemBits (framePack s) + 7) / 8 ≤ s.params.obufCap := by
  obtain ⟨-, -, hmaxN⟩ := hready
  obtain ⟨-, hbytes, -⟩ := hlegal
  rw [frameBytes_of_seeded32 h] at hbytes
  rw [itemBits_framePack_of_seeded32 h hcount]
  have hbits : (s.enc.spec.count - 1) * frameWidth s ≤ (s.enc.spec.count - 1) * 16 := Nat.mul_le_mul_left _ hwidth
  omega

/-- Settles O43: the fields written by `exec_cnext_of_fits`, the stream by `packedWriter_spec`, its seed by
`Writer.read_of_stream_eq`. -/
theorem cnextPacksTheSeededFrame : Obligations.CnextPacksTheSeededFrame := by
  unfold Obligations.CnextPacksTheSeededFrame
  intro s hready hlegal hframing hcount hnarrow
  have hgood := goodWidth_selectWidth hnarrow
  have hleast := leastWidth_selectWidth ((frameResidualList s).drop 1)
  rw [← frameWidth_of_seeded32 hframing] at hgood hleast
  have hfit := framePack_fits_of_seeded32 hready hlegal hframing hcount hgood.2
  have hbits := itemBits_framePack_of_seeded32 hframing hcount
  obtain ⟨-, hwritten, hkept⟩ := advancedEnc_spec s
  obtain ⟨hnb, hacc, holen, hstream⟩ := packedWriter_spec s.free (Nat.lt_of_le_of_lt hfit hlegal.2.2)
  have hexec := exec_cnext_of_fits hready hgood.2 hfit
  generalize (Writer.putAll (framePack s) (.empty s.free)).finish = b at hnb hacc holen hstream hexec
  rw [hbits] at holen hstream
  rw [framePack_of_seeded32 hframing hcount, itemsBits_append, List.append_assoc] at hstream
  refine ⟨frameWidth s, (advancedEnc s).res, (advancedEnc s).history, b, s.free + 1, hgood, hleast, hexec, hwritten, hkept,
    hnb, hacc, ?olen, ?seed, ?codes⟩
  case olen => omega
  case seed =>
    have hbyte {j : Nat} (hj : j < 4) : (b.obuf.read j).toNat = (seedBytes (residual s 0))[j]'hj :=
      Writer.read_of_stream_eq hstream (seedBytes_lt _) hj
    rw [hbyte (by omega), hbyte (by omega), hbyte (by omega), hbyte (by omega), seedBytes_sum, toNat_ofInt_eq_tcEncode]
  case codes =>
    have hpad : (8 - (32 + (s.enc.spec.count - 1) * frameWidth s) % 8) % 8
        = (8 - (s.enc.spec.count - 1) * frameWidth s % 8) % 8 := by omega
    rw [hstream, hpad]
    exact List.drop_left' rfl

end Sys2Proof.Machine
end

section
/-! DNEXT: the codes it reads, the residuals they load, and its frame under SEEDED32 (45_decompressor.md R162,
30_encoding.md R88). -/

namespace Sys2Proof.Machine

/-! ### The codes of a stream -/

/-- The code read at `p` is the bits from `p` on. -/
theorem Reader.codeBits_bitsFrom_eq_take (r : Reader) {w p : Nat} (h : p + w ≤ 8 * r.ilen.toNat) :
    codeBits (r.bitsFrom w p 0) w = (r.stream.drop p).take w := by
  rw [Reader.codeBits_bitsFrom]
  apply List.ext_getElem?
  intro i
  rw [List.getElem?_take, List.getElem?_drop, Reader.stream_getElem?]
  by_cases hi : i < w
  · have hp : p + i < 8 * r.ilen.toNat := by omega
    simp [hi, hp]
  · simp [hi]

/-- A code of 8 bits read at a byte is the byte (20_memory.md R57). -/
theorem Reader.bitsFrom_byte (r : Reader) (j : Nat) : r.bitsFrom 8 (8 * j) 0 = (r.ibuf.read j).toNat := by
  refine eq_of_codeBits_eq (r.bitsFrom_lt 8 _) (BitVec.isLt _) ?_
  rw [Reader.codeBits_bitsFrom]
  refine List.map_congr_left fun i hi => ?_
  have hlt : i < 8 := List.mem_range.1 hi
  unfold Reader.bit
  rw [show (8 * j + i) / 8 = j by omega, show (8 * j + i) % 8 = i by omega]
  rfl

theorem Reader.codesFrom_append (r : Reader) (ws ws' : List Nat) (p : Nat) :
    r.codesFrom (ws ++ ws') p = r.codesFrom ws p ++ r.codesFrom ws' (p + ws.sum) := by
  induction ws generalizing p with
  | nil => rfl
  | cons w ws ih => simp only [List.cons_append, Reader.codesFrom, ih, List.sum_cons, Nat.add_assoc]

theorem Reader.codesFrom_replicate (r : Reader) (w n p : Nat) :
    r.codesFrom (List.replicate n w) p = (List.range n).map (fun k => r.bitsFrom w (p + w * k) 0) := by
  induction n generalizing p with
  | zero => rfl
  | succ n ih =>
    rw [List.replicate_succ, Reader.codesFrom, ih, List.range_succ_eq_map, List.map_cons, List.map_map]
    refine congrArg₂ List.cons rfl (List.map_congr_left fun k _ => ?_)
    rw [Function.comp_apply, Nat.mul_succ, Nat.add_assoc, Nat.add_comm w]

/-! ### A residual of a code -/

theorem toNat_ofInt_tcDecode {c : Nat} (h : c < 2 ^ 32) : (BitVec.ofInt 32 (tcDecode c 32)).toNat = c :=
  (BitVec.toNat_ofInt ..).trans (tcEncode_tcDecode (by omega) h)

/-- A number of a legal width is kept by a residual memory. -/
theorem toInt_ofInt_of_inWidth {w : Nat} {x : Int} (hw : goodWidth w) (h : inWidth w x) : (BitVec.ofInt 32 x).toInt = x := by
  obtain ⟨hlow, hhigh⟩ := inWidth_mono hw.1 hw.2 h
  exact toInt_ofInt_of_range (by norm_num at hlow hhigh; omega)

/-! ### The command -/

theorem exec_dnext_of_ready {s : State} {w : Nat} (h : decReady s) (hw : goodWidth w) :
    exec (.dnext w) s = decompressFrame w s := by
  obtain ⟨hvalid, hdims, hcount⟩ := h
  show execDnext w s = _
  unfold execDnext
  rw [if_neg (by simp [hvalid]), if_neg (not_not.2 hdims), if_neg (not_badWidth_of_goodWidth hw), if_neg (Nat.not_lt.2 hcount)]

/-- `RESD` once the codes of a frame are read. -/
def loadedRes (s : State) (w : Nat) : Mem 32 :=
  s.dec.res.writeFrom 0
    ((frameResiduals s.params.framing w (s.dec.br.codesFrom (frameWidths s.params.framing w s.dec.spec.count) 0)).map
      (BitVec.ofInt 32))

/-- What DNEXT answers on a stream long enough, as the fields of `s` it writes (45_decompressor.md R162, R163). -/
theorem exec_dnext_of_long {s : State} {w : Nat} (hready : decReady s) (hw : goodWidth w)
    (hlong : (frameWidths s.params.framing w s.dec.spec.count).sum ≤ 8 * s.dec.br.ilen.toNat)
    (hcap : s.dec.br.ilen.toNat ≤ s.params.ibufCap) :
    ∃ h f : Mem 16,
      exec (.dnext w) s = .next { s with
        dec := { s.dec with
          res := loadedRes s w, history := h, hist := true,
          br := { s.dec.br with pos := (frameWidths s.params.framing w s.dec.spec.count).sum } },
        fout := f, err := .ok }
      ∧ (∀ k, k < s.dec.spec.count → h.read k = outputSample s.dec (loadedRes s w) k
        ∧ f.read (pathKey s.params.scan s.dec.spec.cols.toNat k) = outputSample s.dec (loadedRes s w) k)
      ∧ (∀ k, s.dec.spec.count ≤ k → h.read k = s.dec.history.read k)
      ∧ (∀ a, (∀ k, k < s.dec.spec.count → pathKey s.params.scan s.dec.spec.cols.toNat k ≠ a) →
        f.read a = s.fout.read a) := by
  rw [exec_dnext_of_ready hready hw, decompressFrame_long s w hlong hcap]
  obtain ⟨h, f, heq, hwritten, hkept, hfout, -⟩ := predictInverse_spec (loadResiduals
    (frameResiduals s.params.framing w (s.dec.br.codesFrom (frameWidths s.params.framing w s.dec.spec.count) 0))
    { s.dec.br with pos := (frameWidths s.params.framing w s.dec.spec.count).sum } s)
  exact ⟨h, f, by rw [heq]; rfl, hwritten, hkept, hfout⟩

/-! ### The frame under SEEDED32 (30_encoding.md R88) -/

theorem sum_frameWidths_of_seeded32 (w n : Nat) : (frameWidths .seeded32 w n).sum = 32 + w * (n - 1) := by
  unfold frameWidths
  rw [List.sum_append, List.sum_replicate, List.sum_replicate, smul_eq_mul, smul_eq_mul, Nat.mul_comm w]

/-- The residuals a seeded frame holds: the seed of its first four bytes, then the codes from bit 32 on. -/
theorem frameResiduals_codesFrom_of_seeded32 (r : Reader) (w n : Nat) :
    frameResiduals .seeded32 w (r.codesFrom (frameWidths .seeded32 w n) 0) =
      seedValue (r.ibuf.read 0).toNat (r.ibuf.read 1).toNat (r.ibuf.read 2).toNat (r.ibuf.read 3).toNat
        :: (List.range (n - 1)).map (fun k => tcDecode (r.bitsFrom w (32 + w * k) 0) w) := by
  have hcodes : r.codesFrom (frameWidths .seeded32 w n) 0 =
      r.bitsFrom 8 (8 * 0) 0 :: r.bitsFrom 8 (8 * 1) 0 :: r.bitsFrom 8 (8 * 2) 0 :: r.bitsFrom 8 (8 * 3) 0
        :: (List.range (n - 1)).map (fun k => r.bitsFrom w (32 + w * k) 0) := by
    unfold frameWidths
    rw [Reader.codesFrom_append, Reader.codesFrom_replicate r w]
    rfl
  rw [hcodes]
  simp only [Reader.bitsFrom_byte, frameResiduals, List.map_map, Function.comp_def]

section

variable {s : State} {w : Nat}

theorem read_loadedRes_of_seeded32 (hframing : s.params.framing = .seeded32) (k : Nat) :
    (loadedRes s w).read k =
      if k = 0 then BitVec.ofInt 32 (seedValue (s.dec.br.ibuf.read 0).toNat (s.dec.br.ibuf.read 1).toNat
        (s.dec.br.ibuf.read 2).toNat (s.dec.br.ibuf.read 3).toNat)
      else if k < s.dec.spec.count then BitVec.ofInt 32 (tcDecode (s.dec.br.bitsFrom w (32 + w * (k - 1)) 0) w)
      else s.dec.res.read k := by
  unfold loadedRes
  rw [hframing, frameResiduals_codesFrom_of_seeded32, Mem.read_writeFrom, if_pos (Nat.zero_le k)]
  cases k with
  | zero => simp
  | succ k =>
    by_cases hk : k + 1 < s.dec.spec.count
    · have hk' : k < s.dec.spec.count - 1 := by omega
      simp [hk, hk']
    · have hk' : ¬ k < s.dec.spec.count - 1 := by omega
      simp [hk, hk']

theorem loadedRes_seed (hframing : s.params.framing = .seeded32) :
    ((loadedRes s w).read 0).toNat = (s.dec.br.ibuf.read 0).toNat + 2 ^ 8 * (s.dec.br.ibuf.read 1).toNat
      + 2 ^ 16 * (s.dec.br.ibuf.read 2).toNat + 2 ^ 24 * (s.dec.br.ibuf.read 3).toNat := by
  have h0 := (s.dec.br.ibuf.read 0).isLt
  have h1 := (s.dec.br.ibuf.read 1).isLt
  have h2 := (s.dec.br.ibuf.read 2).isLt
  have h3 := (s.dec.br.ibuf.read 3).isLt
  rw [read_loadedRes_of_seeded32 hframing, if_pos rfl, seedValue, toNat_ofInt_tcDecode (by omega)]
  omega

theorem loadedRes_code (hframing : s.params.framing = .seeded32) (hw : goodWidth w)
    (hlong : 32 + w * (s.dec.spec.count - 1) ≤ 8 * s.dec.br.ilen.toNat) {k : Nat} (hk : 1 ≤ k)
    (hkn : k < s.dec.spec.count) :
    inWidth w ((loadedRes s w).read k).toInt
      ∧ codeBits (tcEncode ((loadedRes s w).read k).toInt w) w = (s.dec.br.stream.drop (32 + w * (k - 1))).take w := by
  have hlt := s.dec.br.bitsFrom_lt w (32 + w * (k - 1))
  have hrange := tcDecode_range hw.1 hlt
  have hend : 32 + w * (k - 1) + w ≤ 8 * s.dec.br.ilen.toNat := by
    have hmul : w * (k - 1 + 1) ≤ w * (s.dec.spec.count - 1) := Nat.mul_le_mul_left w (by omega)
    rw [Nat.mul_succ] at hmul
    omega
  rw [read_loadedRes_of_seeded32 hframing, if_neg (by omega), if_pos hkn, toInt_ofInt_of_inWidth hw hrange,
    tcEncode_tcDecode hw.1 hlt]
  exact ⟨hrange, Reader.codeBits_bitsFrom_eq_take _ hend⟩

end

/-- Settles O47: the fields written by `exec_dnext_of_long`, the residuals by `loadedRes_seed` and `loadedRes_code`. -/
theorem dnextReadsTheSeededFrame : Obligations.DnextReadsTheSeededFrame := by
  unfold Obligations.DnextReadsTheSeededFrame
  intro s w hready hw hframing hcount hlong hcap
  have hsum : (frameWidths s.params.framing w s.dec.spec.count).sum = 32 + w * (s.dec.spec.count - 1) := by
    rw [hframing, sum_frameWidths_of_seeded32]
  obtain ⟨h, f, hexec, hwritten, hkept, hfout⟩ := exec_dnext_of_long hready hw (by rwa [hsum]) hcap
  rw [hsum] at hexec
  refine ⟨loadedRes s w, h, f, hexec, loadedRes_seed hframing, fun k hk hkn => loadedRes_code hframing hw hlong hk hkn,
    hwritten, fun k hk => ⟨?kept, hkept k hk⟩, hfout⟩
  rw [read_loadedRes_of_seeded32 hframing, if_neg (by omega), if_neg (Nat.not_lt.2 hk)]

end Sys2Proof.Machine
end

section
/-! TCENC and TCDEC: `tc_encode` reads the low bits of an integer, `tc_decode` the integer of a bit vector
(40_twos_complement.md R90 to R92). -/

namespace Sys2Proof.Machine

/-! ### The two maps on bit vectors -/

theorem tcEncode_eq_toNat_ofInt (v : Int) (w : Nat) : tcEncode v w = (BitVec.ofInt w v).toNat := by
  rw [BitVec.toNat_ofInt, tcEncode, Nat.cast_pow, Nat.cast_ofNat]

/-- Encoding the integer of a word takes the word's low bits, whatever its sign. -/
theorem tcEncode_toInt {n w : Nat} (x : BitVec n) (h : w ≤ n) : tcEncode x.toInt w = (x.setWidth w).toNat := by
  rw [tcEncode_eq_toNat_ofInt, ← BitVec.signExtend_eq_setWidth_of_le x h, BitVec.signExtend]

/-- Decoding a bit vector is reading it as a signed integer: bit `w - 1` is the sign. -/
theorem tcDecode_toNat {w : Nat} (c : BitVec w) : tcDecode c.toNat w = c.toInt := by
  rw [BitVec.toInt_eq_msb_cond, BitVec.msb_eq_getLsbD_last, BitVec.getLsbD, tcDecode, Nat.cast_pow, Nat.cast_ofNat]

/-- A negative integer encodes as its sum with `2^w`. -/
theorem tcEncode_cast_eq_ite (v : Int) (w : Nat) :
    (tcEncode v w : Int) = (if v < 0 then v + 2 ^ w else v) % 2 ^ w := by
  rw [tcEncode_cast]
  split
  case isTrue => rw [Int.add_emod_right]
  case isFalse => rfl

/-- Settles O23: the ranges and both inverse identities are the laws of the number operations. -/
theorem twosComplementIsABijection : Obligations.TwosComplementIsABijection := by
  unfold Obligations.TwosComplementIsABijection
  intro w ⟨hw, _⟩
  exact ⟨fun v => ⟨tcEncode_lt v w, tcEncode_cast v w, tcEncode_cast_eq_ite v w⟩,
    fun c hc => ⟨rfl, tcDecode_range hw hc⟩,
    fun v hv => tcDecode_tcEncode hw hv,
    fun c hc => tcEncode_tcDecode hw hc⟩

/-! ### The commands -/

/-- The opcode and the operand of a command word add up (30_encoding.md R71). -/
theorem encode_eq_add {i : Instr} (op : Nat) (hop : opcode i = op) :
    encode i = BitVec.ofNat 16 (op * 256) + BitVec.ofNat 16 i.operand := by
  rw [encode, BitVec.ofNat_add, hop]

section

variable {s : State} {w : Nat}

theorem exec_tcenc_of_goodWidth (h : goodWidth w) :
    exec (.tcenc w) s = complete (s.setRslt ((s.opa.setWidth w).setWidth 32)) := by
  have hlow : BitVec.ofNat 32 (tcEncode s.opa.toInt w) = (s.opa.setWidth w).setWidth 32 := by
    rw [tcEncode_toInt s.opa (by omega), BitVec.ofNat_toNat]
  rw [← hlow]
  exact if_neg (not_badWidth_of_goodWidth h)

theorem exec_tcdec_of_goodWidth (h : goodWidth w) :
    exec (.tcdec w) s = complete (s.setRslt ((s.opa.setWidth w).signExtend 32)) := by
  have hsign : BitVec.ofInt 32 (tcDecode (s.opa.toNat % 2 ^ w) w) = (s.opa.setWidth w).signExtend 32 := by
    rw [← BitVec.toNat_setWidth, tcDecode_toNat, BitVec.signExtend]
  rw [← hsign]
  exact if_neg (not_badWidth_of_goodWidth h)

end

/-- Settles O21: the next state by `exec_tcenc_of_goodWidth`, its bits by `tcEncode_toInt`. -/
theorem tcencGivesTheLowBitsOfTheOperand : Obligations.TcencGivesTheLowBitsOfTheOperand := by
  unfold Obligations.TcencGivesTheLowBitsOfTheOperand
  intro s w
  refine ⟨fun _ => encode_eq_add 0x10 rfl, fun hw => ⟨?next, ?bits⟩, fun hw => ?badWidth⟩
  case next => exact exec_tcenc_of_goodWidth hw
  case bits => exact tcEncode_toInt s.opa (by omega)
  case badWidth => exact exec_tcenc_of_badWidth (badWidth_iff.2 hw)

/-- Settles O22: the next state by `exec_tcdec_of_goodWidth`, its integer by `tcDecode_toNat`, as sign extension keeps the
integer. -/
theorem tcdecSignExtendsTheLowBits : Obligations.TcdecSignExtendsTheLowBits := by
  unfold Obligations.TcdecSignExtendsTheLowBits
  intro s w
  refine ⟨fun _ => encode_eq_add 0x11 rfl, fun hw => ⟨?next, ?integer⟩, fun hw => ?badWidth⟩
  case next => exact exec_tcdec_of_goodWidth hw
  case integer => rw [tcDecode_toNat, BitVec.toInt_signExtend_of_le (by omega)]
  case badWidth => exact exec_tcdec_of_badWidth (badWidth_iff.2 hw)

end Sys2Proof.Machine
end

section
/-! BWRST, BWPUT and BWFIN: the answer of each command, and the writer it leaves, before and after finishing
(41_bitstream.md R101 to R105). -/

namespace Sys2Proof.Machine

/-! ### The answers of the commands -/

section

variable {s : State} {w : Nat}

theorem exec_bwput_of_over (hw : goodWidth w) (h : s.params.obufCap < s.enc.bw.bytesWith w) :
    exec (.bwput w) s = .refused .obufCapacity := by
  show execBwput w s = _
  rw [execBwput, if_neg (not_badWidth_of_goodWidth hw), if_pos h]

theorem exec_bwput_of_fits (hw : goodWidth w) (h : s.enc.bw.bytesWith w ≤ s.params.obufCap) :
    exec (.bwput w) s = complete (s.setWriter (Writer.put s.opa.toNat w s.enc.bw)) := by
  show execBwput w s = _
  rw [execBwput, if_neg (not_badWidth_of_goodWidth hw), if_neg (Nat.not_lt.2 h)]

theorem exec_bwfin_of_fits (h : s.enc.bw.bytesWith 0 ≤ s.params.obufCap) :
    exec .bwfin s = complete (s.setWriter s.enc.bw.finish) :=
  if_neg fun hover => Nat.not_lt.2 h hover.2

end

/-- Bytes that the writer's bits and `w` more fill, against a capacity counted in bits (41_bitstream.md R104). -/
theorem Writer.lt_bytesWith_iff (b : Writer) (cap w : Nat) : cap < b.bytesWith w ↔ 8 * cap < b.size + w := by
  rw [Writer.bytesWith_eq]
  omega

/-! ### The obligations -/

/-- Settles O24: the memory is the one BWRST leaves unspecified. -/
theorem bwrstEmptiesTheWriter : Obligations.BwrstEmptiesTheWriter := by
  unfold Obligations.BwrstEmptiesTheWriter
  exact ⟨rfl, fun s => ⟨.unspecified 8 s.free, s.free + 1, rfl⟩⟩

/-- Settles O25: the writer is the one of `Writer.put_spec`, whose size in bits fixes `OLEN` and `BW_NB`. -/
theorem bwputAppendsTheCodeBits : Obligations.BwputAppendsTheCodeBits := by
  unfold Obligations.BwputAppendsTheCodeBits
  refine fun s w => ⟨fun _ => encode_eq_add 0x21 rfl, fun hw => exec_bwput_of_badWidth (badWidth_iff.2 hw),
    fun hw ⟨_, _, hcap⟩ hfit => ⟨Writer.put s.opa.toNat w s.enc.bw, exec_bwput_of_fits hw hfit, ?writer⟩⟩
  case writer =>
    have hroom : s.enc.bw.size + w < 8 * 2 ^ 32 := by
      rw [Writer.bytesWith_eq] at hfit
      omega
    obtain ⟨hsize, hstream, hkept, -⟩ := Writer.put_spec s.opa.toNat w s.enc.bw hroom
    generalize Writer.put s.opa.toNat w s.enc.bw = b at hsize hstream hkept
    have hbits : s.enc.bw.size = 8 * s.enc.bw.olen.toNat + s.enc.bw.nb.val := rfl
    have hnb := s.enc.bw.nb.isLt
    refine ⟨hstream, ?nb, ?olen, ?atMostTwo, fun j hj => hkept j ?outside⟩
    case nb =>
      rw [b.nb_eq]
      omega
    case olen =>
      rw [b.olen_eq]
      omega
    case atMostTwo => omega
    case outside => omega

/-- Settles O26: the invariant leaves room for the partial byte, and the writer is the one of `Writer.finish_spec`. -/
theorem bwfinFlushesThePartialByte : Obligations.BwfinFlushesThePartialByte := by
  unfold Obligations.BwfinFlushesThePartialByte
  refine ⟨rfl, fun s ⟨_, _, hcap⟩ ⟨hfit, _, _, _, hlow⟩ => ⟨s.enc.bw.finish, exec_bwfin_of_fits hfit, ?writer⟩⟩
  case writer =>
    have hbits : s.enc.bw.size = 8 * s.enc.bw.olen.toNat + s.enc.bw.nb.val := rfl
    have hnb := s.enc.bw.nb.isLt
    rw [Writer.bytesWith_eq] at hfit
    obtain ⟨hnb', hacc', holen', hstream', hkept⟩ := s.enc.bw.finish_spec (by omega) hlow
    refine ⟨hacc', hnb', ?olen, hstream', fun j hj => hkept j (by omega)⟩
    case olen =>
      rw [holen']
      split <;> omega

/-- Settles O27: BWPUT tests exactly the bound of `Writer.lt_bytesWith_iff`. -/
theorem bitsBeyondTheOutputBufferAreRefused : Obligations.BitsBeyondTheOutputBufferAreRefused := by
  unfold Obligations.BitsBeyondTheOutputBufferAreRefused
  intro s w hw
  refine Iff.trans ⟨fun hrefused => ?bound, exec_bwput_of_over hw⟩ (s.enc.bw.lt_bytesWith_iff s.params.obufCap w)
  case bound =>
    by_contra hfits
    rw [exec_bwput_of_fits hw (Nat.not_lt.1 hfits)] at hrefused
    exact nomatch hrefused

/-- Settles O28: before finishing by `Writer.putAll_spec` from the empty writer, after it by `packedWriter_spec`. -/
theorem writerClosedForm : Obligations.WriterClosedForm := by
  unfold Obligations.WriterClosedForm
  intro items gen _ hfit b f
  obtain ⟨hsize, hstream, -, hlow⟩ := Writer.putAll_spec items (.empty gen) (by rw [Writer.size_empty]; omega)
  rw [Writer.size_empty, Nat.zero_add] at hsize
  obtain ⟨hnb', hacc', holen', hstream'⟩ := packedWriter_spec gen hfit
  refine ⟨?olen, ?nb, hstream, hlow rfl, holen', hnb', hacc', hstream'⟩
  case olen => rw [b.olen_eq, hsize]
  case nb => rw [b.nb_eq, hsize]

end Sys2Proof.Machine
end

section
/-! BRRST and BRGET: the answer of each command and the bits it reads (41_bitstream.md R106 to R108). -/

namespace Sys2Proof.Machine

section

variable {s : State} {w : Nat}

theorem exec_brget_of_short (hw : goodWidth w) (h : s.dec.br.short w) :
    exec (.brget w) s = raise .streamUnderrun ((s.setRslt (Config.freeWord s.free)).take 1) := by
  show execBrget w s = _
  rw [execBrget, if_neg (not_badWidth_of_goodWidth hw), if_pos h]

theorem exec_brget_of_long (hw : goodWidth w) (hlong : s.dec.br.pos + w ≤ 8 * s.dec.br.ilen.toNat)
    (hcap : s.dec.br.ilen.toNat ≤ s.params.ibufCap) :
    exec (.brget w) s =
      complete ((s.setRslt (BitVec.ofNat 32 (s.dec.br.peek w))).setReader (s.dec.br.advance w)) := by
  show execBrget w s = _
  rw [execBrget, if_neg (not_badWidth_of_goodWidth hw), if_neg (Nat.not_lt.2 hlong), if_neg (by omega)]

end

/-- A register holds a code of a legal width whole. -/
theorem Reader.toNat_ofNat_peek (r : Reader) {w : Nat} (hw : goodWidth w) : (BitVec.ofNat 32 (r.peek w)).toNat = r.peek w := by
  have hpow : 2 ^ w ≤ 2 ^ 32 := Nat.pow_le_pow_right (by omega) (by omega)
  exact (BitVec.toNat_ofNat ..).trans (Nat.mod_eq_of_lt (Nat.lt_of_lt_of_le (r.bitsFrom_lt w r.pos) hpow))

/-- Settles O29: BRRST writes the cursor and no other field. -/
theorem brrstRewindsTheCursor : Obligations.BrrstRewindsTheCursor := by
  unfold Obligations.BrrstRewindsTheCursor
  exact ⟨rfl, fun s => rfl⟩

/-- Settles O30: the value is the bits at the cursor, which `Reader.codeBits_bitsFrom_eq_take` finds in the stream. -/
theorem brgetGivesTheNextBits : Obligations.BrgetGivesTheNextBits := by
  unfold Obligations.BrgetGivesTheNextBits
  intro s w hw hlong hcap
  refine ⟨BitVec.ofNat 32 (s.dec.br.peek w), exec_brget_of_long hw hlong hcap, ?range, ?bits⟩
  case range =>
    rw [Reader.toNat_ofNat_peek _ hw]
    exact s.dec.br.bitsFrom_lt w s.dec.br.pos
  case bits =>
    rw [Reader.toNat_ofNat_peek _ hw]
    exact s.dec.br.codeBits_bitsFrom_eq_take hlong

/-- Settles O31: an underrun writes no part of the reader, so `exec_brget_of_long` applies to the state it leaves. -/
theorem brgetUnderrunKeepsTheCursor : Obligations.BrgetUnderrunKeepsTheCursor := by
  unfold Obligations.BrgetUnderrunKeepsTheCursor
  intro s w hw hshort
  exact ⟨Config.freeWord s.free, s.free + 1, exec_brget_of_short hw hshort,
    fun n hn hlong hcap => ⟨_, exec_brget_of_long hn hlong hcap, rfl, rfl⟩⟩

end Sys2Proof.Machine
end

section
/-! The writer and the reader together: a reader over the bytes of a finished writer holds the writer's bits
(41_bitstream.md R110). -/

namespace Sys2Proof.Machine

theorem Reader.stream_length (r : Reader) : r.stream.length = 8 * r.ilen.toNat := by
  rw [Reader.stream, List.length_map, List.length_range]

/-- Bit `p` of the valid bytes of `OBUF` (20_memory.md R57). -/
theorem Writer.stream_bit {b : Writer} {p : Nat} (h : p < 8 * b.olen.toNat) :
    b.stream[p]? = some ((b.obuf.read (p / 8)).getLsbD (7 - p % 8)) := by
  have hbyte := congrArg (fun l => l[p % 8]?) (Writer.stream_byte (b := b) (j := p / 8) (by omega))
  simp only [List.getElem?_take, List.getElem?_drop, codeBits_getElem?, if_pos (Nat.mod_lt p (by omega : 0 < 8)),
    Nat.div_add_mod] at hbyte
  exact hbyte

/-- The bytes of a writer with no pending bits, as an input stream, are the bits it holds. -/
theorem Reader.stream_eq_of_bytes {r : Reader} {b : Writer} (hnb : b.nb = 0) (hlen : r.ilen = b.olen)
    (hbytes : ∀ j, j < b.olen.toNat → r.ibuf.read j = b.obuf.read j) : r.stream = b.stream := by
  have hsize : b.stream.length = 8 * b.olen.toNat := by
    rw [Writer.stream_length, Writer.size, hnb]
    rfl
  refine List.ext_getElem? fun p => ?_
  rw [Reader.stream_getElem?, hlen]
  by_cases hp : p < 8 * b.olen.toNat
  · rw [if_pos hp, Writer.stream_bit hp, Reader.bit, hbytes (p / 8) (by omega)]
  · rw [if_neg hp, List.getElem?_eq_none (by omega)]

/-- A stream that holds the bits of codes from `p` on gives back the codes, each reduced to its width. -/
theorem Reader.codesFrom_of_stream {r : Reader} (items : List (Nat × Nat)) {p : Nat} {tail : List Bool}
    (hroom : p + itemBits items ≤ 8 * r.ilen.toNat) (h : r.stream.drop p = itemsBits items ++ tail) :
    r.codesFrom (items.map Prod.snd) p = items.map (fun cw => cw.1 % 2 ^ cw.2) := by
  induction items generalizing p with
  | nil => rfl
  | cons cw items ih =>
    obtain ⟨c, w⟩ := cw
    have hbits : itemBits ((c, w) :: items) = w + itemBits items := List.sum_cons
    have hcons : r.stream.drop p = codeBits c w ++ (itemsBits items ++ tail) := by
      rw [h, ← List.append_assoc]
      rfl
    have hhead : r.bitsFrom w p 0 = c % 2 ^ w := by
      refine eq_of_codeBits_eq (r.bitsFrom_lt w p) (Nat.mod_lt c (Nat.two_pow_pos w)) ?_
      rw [Reader.codeBits_bitsFrom_eq_take r (by omega), hcons, List.take_left' (codeBits_length c w), codeBits_mod]
    have hrest : r.stream.drop (p + w) = itemsBits items ++ tail := by
      rw [← List.drop_drop, hcons, List.drop_left' (codeBits_length c w)]
    exact congrArg₂ List.cons hhead (ih (by omega) hrest)

/-- Settles O32: the reader's stream is the packed stream of `packedWriter_spec`, codes first, then zeros. -/
theorem packedValuesReadBack : Obligations.PackedValuesReadBack := by
  unfold Obligations.PackedValuesReadBack
  intro items gen m _ hfit f hbytes r
  obtain ⟨hnb, -, holen, hpacked⟩ := packedWriter_spec gen hfit
  have hstream : r.stream = itemsBits items ++ List.replicate ((8 - itemBits items % 8) % 8) false :=
    (Reader.stream_eq_of_bytes hnb rfl hbytes).trans hpacked
  have hlen : r.ilen.toNat = (itemBits items + 7) / 8 := holen
  refine ⟨?codes, holen, fun p hp hend => ?padding⟩
  case codes =>
    rw [Reader.readAll_some _ r (by show 0 + itemBits items ≤ _; omega),
      Reader.codesFrom_of_stream items (p := r.pos) (by show 0 + itemBits items ≤ _; omega) hstream]
    exact congrArg some (Prod.ext rfl (congrArg (fun pos => { r with pos := pos }) (Nat.zero_add _)))
  case padding =>
    have hend : p < 8 * r.ilen.toNat := hend
    have hbit : r.stream[p]? = some (r.bit p) := by rw [Reader.stream_getElem?, if_pos hend]
    rw [hstream, List.getElem?_append_right (by rwa [itemsBits_length]), itemsBits_length, List.getElem?_replicate,
      if_pos (by omega)] at hbit
    exact (Option.some.inj hbit).symm

end Sys2Proof.Machine
end

section
/-! The selector and SELW: `select_width` as a maximum, and what the command answers on residuals that fit in 16 bits and on
wider ones (42_width_selector.md R120 to R123). -/

namespace Sys2Proof.Machine

/-! ### `need` and `select_width` (42_width_selector.md R120) -/

theorem need_of_nonneg {r : Int} (h : 0 ≤ r) : need r = bitlen r.toNat + 1 := if_pos h

theorem need_of_neg {r : Int} (h : r < 0) : need r = bitlen (-r - 1).toNat + 1 := if_neg (Int.not_le.2 h)

theorem one_le_need (r : Int) : 1 ≤ need r := by
  unfold need
  split <;> exact Nat.succ_pos _

theorem selectWidth_eq_foldl_max (rs : List Int) : selectWidth rs = (rs.map need).foldl max 1 := by
  simp only [selectWidth, List.foldl_map, max_def_lt]

theorem lt_selectWidth_iff {w : Nat} (hw : 1 ≤ w) (rs : List Int) : w < selectWidth rs ↔ ∃ r ∈ rs, ¬ inWidth w r := by
  rw [← Nat.not_le, selectWidth_le_iff hw]
  push Not
  rfl

/-- Settles O33: the ranges by `need_le_iff` and `selectWidth_le_iff`, the maximum by `selectWidth_eq_foldl_max`. -/
theorem selectWidthMeetsItsContract : Obligations.SelectWidthMeetsItsContract := by
  unfold Obligations.SelectWidthMeetsItsContract
  refine ⟨fun r => ⟨one_le_need r, fun w hw => need_le_iff hw r, need_of_nonneg, need_of_neg⟩, bitlen_le_iff, fun rs => ?list⟩
  case list =>
    exact ⟨leastWidth_selectWidth rs, selectWidth_eq_foldl_max rs, fun w hw => selectWidth_le_iff hw rs⟩

/-! ### SELW -/

section

variable {s : State}

/-- SELW on a context that passes its checks (42_width_selector.md R121, R123). -/
theorem exec_selw_of_valid (hvalid : s.enc.valid = true) (hcount : s.enc.spec.count ≤ s.params.maxN) :
    exec .selw s =
      if 16 < selectWidth (residuals s.enc.res s.enc.spec.count) then raise .bitWidthOverflow (s.setWidth 0)
      else complete (s.setWidth (BitVec.ofNat 8 (selectWidth (residuals s.enc.res s.enc.spec.count)))) := by
  show execSelw s = _
  rw [execSelw, if_neg (by simp [hvalid]), if_neg (Nat.not_lt.2 hcount)]
  rfl

theorem exec_selw_of_narrow (hvalid : s.enc.valid = true) (hcount : s.enc.spec.count ≤ s.params.maxN)
    (h : ∀ r ∈ residuals s.enc.res s.enc.spec.count, inWidth 16 r) :
    exec .selw s = complete (s.setWidth (BitVec.ofNat 8 (selectWidth (residuals s.enc.res s.enc.spec.count)))) := by
  obtain ⟨-, hle⟩ := goodWidth_selectWidth h
  rw [exec_selw_of_valid hvalid hcount, if_neg (Nat.not_lt.2 hle)]

theorem exec_selw_of_wide (hvalid : s.enc.valid = true) (hcount : s.enc.spec.count ≤ s.params.maxN)
    (h : ∃ r ∈ residuals s.enc.res s.enc.spec.count, ¬ inWidth 16 r) :
    exec .selw s = raise .bitWidthOverflow (s.setWidth 0) := by
  rw [exec_selw_of_valid hvalid hcount, if_pos ((lt_selectWidth_iff (by omega) _).2 h)]

end

/-- Settles O34: the width is `select_width` of the residuals, at which each is in range and so comes back from its code. -/
theorem selwSelectsTheLeastWidth : Obligations.SelwSelectsTheLeastWidth := by
  unfold Obligations.SelwSelectsTheLeastWidth
  intro s hvalid hcount hnarrow
  have hgood := goodWidth_selectWidth hnarrow
  have hleast := leastWidth_selectWidth (residuals s.enc.res s.enc.spec.count)
  obtain ⟨hpos, hholds, -⟩ := id hleast
  exact ⟨_, hgood, hleast, exec_selw_of_narrow hvalid hcount hnarrow, fun r hr => tcDecode_tcEncode hpos (hholds r hr)⟩

/-- Settles O35: SELW tests `select_width` against 16, and exceeds it exactly on a residual out of range. -/
theorem selwReportsBitWidthOverflow : Obligations.SelwReportsBitWidthOverflow := by
  unfold Obligations.SelwReportsBitWidthOverflow
  exact fun s hvalid hcount hwide => ⟨_, exec_selw_of_wide hvalid hcount hwide, rfl, rfl⟩

end Sys2Proof.Machine
end

section
/-! Small samples: the residuals of samples below a bound, and CNEXT on samples below `2^14` (42_width_selector.md R124). -/

namespace Sys2Proof.Machine

/-! ### The length of a frame (41_bitstream.md R104) -/

/-- The codes of at most `MAX_N` residuals at a width up to 16 are no longer than the longest frame. -/
theorem itemBits_frameItems_le {p : Params} {m : Nat} {rs : List Int} (hm : m ≤ 16) (hlen : rs.length ≤ p.maxN) :
    itemBits (frameItems p.framing m rs) ≤ 8 * p.frameBytes := by
  have hall : rs.length * m ≤ rs.length * 16 := Nat.mul_le_mul_left _ hm
  have hrest : (rs.length - 1) * m ≤ rs.length * m := Nat.mul_le_mul_right _ (Nat.sub_le _ _)
  rw [itemBits_frameItems, Params.frameBytes]
  cases p.framing with
  | dense =>
    dsimp only
    omega
  | seeded32 =>
    dsimp only
    split <;> omega

/-- CNEXT never exceeds `OBUF_CAP`. -/
theorem framePack_fits {s : State} (hready : encReady s) (hlegal : s.params.legal) (hwidth : frameWidth s ≤ 16) :
    (itemBits (framePack s) + 7) / 8 ≤ s.params.obufCap := by
  obtain ⟨-, -, hcount⟩ := hready
  obtain ⟨-, hbytes, -⟩ := hlegal
  have hbits : itemBits (framePack s) ≤ 8 * s.params.frameBytes :=
    itemBits_frameItems_le hwidth (by rwa [frameResidualList_length])
  omega

/-! ### Residuals of samples below a bound -/

section

variable {s : State} {k n : Nat}

/-- NoHistory refers to `BASELINE = 0` (43_predictor.md R132), so the bound on the history is asked for in HasHistory only. -/
theorem reference_lt {hist : Bool} {history : Mem 16} (hn : 0 < n) (h : hist = true → (history.read k).toNat < n) :
    (reference hist history k).toNat < n := by
  cases hist with
  | false => exact hn
  | true => exact h rfl

theorem temporalDelta_lt (hsample : (inputSample s k).toNat < n)
    (hhist : s.enc.hist = true → (s.enc.history.read k).toNat < n) :
    -(n : Int) < temporalDelta s k ∧ temporalDelta s k < n := by
  have href := reference_lt (by omega) hhist
  unfold temporalDelta
  omega

theorem residual_lt (h : ∀ j, j ≤ k → (inputSample s j).toNat < n ∧ (s.enc.hist = true → (s.enc.history.read j).toNat < n)) :
    -(2 * n : Int) < residual s k ∧ residual s k < 2 * n := by
  have hdelta (j : Nat) (hj : j ≤ k) : -(n : Int) < temporalDelta s j ∧ temporalDelta s j < n := by
    obtain ⟨hsample, hhist⟩ := h j hj
    exact temporalDelta_lt hsample hhist
  have hlast := hdelta k (le_refl k)
  cases k with
  | zero =>
    simp only [residual]
    omega
  | succ k =>
    have hprevious := hdelta k (Nat.le_succ k)
    simp only [residual]
    omega

end

theorem widthResiduals_subset (f : Framing) (rs : List Int) : widthResiduals f rs ⊆ rs := by
  cases f with
  | dense => exact fun _ hr => hr
  | seeded32 => exact List.drop_subset 1 rs

/-- Settles O45: two temporal deltas below `2^14` differ by less than `2^15`, so every residual fits in 16 bits; and a frame of
such residuals fits in `OBUF` under both framings. -/
theorem smallSamplesNeverOverflow : Obligations.SmallSamplesNeverOverflow := by
  unfold Obligations.SmallSamplesNeverOverflow
  intro s hready hlegal hsmall
  have hnarrow : ∀ r ∈ frameResidualList s, inWidth 16 r := by
    intro r hr
    obtain ⟨k, hk, rfl⟩ := List.mem_map.1 hr
    have hk := List.mem_range.1 hk
    have hrange := residual_lt (k := k) (n := 2 ^ 14) fun j hj => hsmall j (by omega)
    constructor <;> omega
  obtain ⟨-, hwidth⟩ : goodWidth (frameWidth s) :=
    goodWidth_selectWidth fun r hr => hnarrow r (widthResiduals_subset _ _ hr)
  exact ⟨_, exec_cnext_of_fits hready hwidth (framePack_fits hready hlegal hwidth), rfl⟩

end Sys2Proof.Machine
end

section
/-! PFWD and PINV: the ranges of their sequences, what each command writes, and the round trip of a frame through both
(43_predictor.md R130 to R139). -/

namespace Sys2Proof.Machine

/-! ### The answers of the commands -/

section

variable {s : State}

theorem exec_pfwd_of_ready (h : encReady s) : exec .pfwd s = complete (predictForward s) := by
  obtain ⟨hvalid, hdims, hcount⟩ := h
  show execPfwd s = _
  unfold execPfwd
  rw [if_neg (by simp [hvalid]), if_neg (not_not.2 hdims), if_neg (Nat.not_lt.2 hcount)]

theorem exec_pinv_of_ready (h : decReady s) : exec .pinv s = complete (predictInverse s) := by
  obtain ⟨hvalid, hdims, hcount⟩ := h
  show execPinv s = _
  unfold execPinv
  rw [if_neg (by simp [hvalid]), if_neg (not_not.2 hdims), if_neg (Nat.not_lt.2 hcount)]

end

/-- Settles O38: the forward pass leaves `advancedEnc`, whose fields `advancedEnc_spec` gives. -/
theorem pfwdWritesResidualsAndHistory : Obligations.PfwdWritesResidualsAndHistory := by
  unfold Obligations.PfwdWritesResidualsAndHistory
  intro s hready
  obtain ⟨hframe, hwritten, hkept⟩ := advancedEnc_spec s
  refine ⟨(advancedEnc s).res, (advancedEnc s).history, ?exec, hwritten, hkept⟩
  rw [exec_pfwd_of_ready hready, predictForward_eq, hframe]
  rfl

/-- Settles O39: the fields that `predictInverse_spec` gives the inverse pass. -/
theorem pinvWritesTheReconstructedFrame : Obligations.PinvWritesTheReconstructedFrame := by
  unfold Obligations.PinvWritesTheReconstructedFrame
  intro s hready
  obtain ⟨h, f, heq, hwritten, hkept, hfout, -⟩ := predictInverse_spec s
  refine ⟨h, f, ?exec, hwritten, hkept, hfout⟩
  rw [exec_pinv_of_ready hready, heq]
  rfl

/-! ### The inverse pass undoes the forward pass -/

section

variable {s : State} {k : Nat}

/-- The residuals telescope: their sum is the last temporal delta (43_predictor.md R130). -/
theorem sumBelow_eq_previousDelta {res : Mem 32} {n : Nat} (h : ∀ j, j < n → (res.read j).toInt = residual s j) :
    sumBelow res n = previousDelta s n := by
  induction n with
  | zero => rfl
  | succ n ih =>
    calc sumBelow res (n + 1) = sumBelow res n + (res.read n).toInt := sumBelow_succ res n
      _ = previousDelta s n + (temporalDelta s n - previousDelta s n) := by
        rw [ih fun j hj => h j (by omega), h n (Nat.lt_succ_self n), residual_eq]
      _ = previousDelta s (n + 1) := add_sub_cancel _ _

/-- From the residuals of the input frame and the reference they were taken against, the inverse gives the input sample. -/
theorem outputSample_eq_inputSample {d : Dec} {res : Mem 32}
    (href : reference d.hist d.history k = reference s.enc.hist s.enc.history k)
    (hres : ∀ j, j ≤ k → (res.read j).toInt = residual s j) : outputSample d res k = inputSample s k := by
  have hsum : prefixSum res k = temporalDelta s k :=
    sumBelow_eq_previousDelta (n := k + 1) fun j hj => hres j (by omega)
  rw [outputSample, href, hsum, temporalDelta, add_sub_cancel, BitVec.ofInt_natCast, BitVec.ofNat_toNat,
    BitVec.setWidth_eq]

theorem paired.reference_eq (h : paired s) (hk : k < s.enc.spec.count) :
    reference s.dec.hist s.dec.history k = reference s.enc.hist s.enc.history k := by
  obtain ⟨-, -, -, hhist, hhistory⟩ := h
  rw [← hhist]
  cases hmode : s.enc.hist with
  | false => rfl
  | true => exact (hhistory hmode k hk).symm

end

theorem CameraSpec.cols_rows_eq_of_dims_eq {c d : CameraSpec} (h : c.dims = d.dims) : c.cols = d.cols ∧ c.rows = d.rows :=
  Dims.mk.inj h

theorem CameraSpec.count_eq_of_dims_eq {c d : CameraSpec} (h : c.dims = d.dims) : c.count = d.count := by
  obtain ⟨hcols, hrows⟩ := cols_rows_eq_of_dims_eq h
  rw [CameraSpec.count, CameraSpec.count, hcols, hrows]

/-- Two frame stores that agree along the path agree on the whole frame (20_memory.md R55). -/
theorem read_frameKey_eq_of_path {f g : Mem 16} {scan : Scan} {cols rows : Nat}
    (h : ∀ k, k < cols * rows → f.read (pathKey scan cols k) = g.read (pathKey scan cols k))
    {r c : Nat} (hr : r < rows) (hc : c < cols) : f.read (frameKey (r, c)) = g.read (frameKey (r, c)) := by
  obtain ⟨k, hk, hplace⟩ := path_surj scan hr hc
  rw [← hplace]
  exact h k hk

/-- Settles O40: PINV reconstructs the input samples from the residuals of PFWD, because the contexts share their reference; both
histories are then those samples. -/
theorem predictorRoundTrip : Obligations.PredictorRoundTrip := by
  unfold Obligations.PredictorRoundTrip
  intro s s1 m hpaired hencReady hdecReady hpfwd hcarried
  obtain ⟨hencValid, hdecValid, hdims, -⟩ := id hpaired
  obtain ⟨hcols, -⟩ := CameraSpec.cols_rows_eq_of_dims_eq hdims
  have hcount := CameraSpec.count_eq_of_dims_eq hdims
  obtain ⟨res, encHistory, hexec, hforward, -⟩ := pfwdWritesResidualsAndHistory s hencReady
  obtain rfl := Host.Outcome.next.inj (hexec.symm.trans hpfwd)
  obtain ⟨decHistory, fout, hpinv, hinverse, -⟩ := pinvWritesTheReconstructedFrame
    { s with enc := { s.enc with res := res, history := encHistory, hist := true }, err := .ok, dec := { s.dec with res := m } }
    hdecReady
  have hres (j : Nat) (hj : j < s.enc.spec.count) : (m.read j).toInt = residual s j := by
    rw [hcarried j hj]
    exact (hforward j hj).1
  have hsample (k : Nat) (hk : k < s.enc.spec.count) : outputSample { s.dec with res := m } m k = inputSample s k :=
    outputSample_eq_inputSample (hpaired.reference_eq hk) fun j hj => hres j (by omega)
  have hhistories (k : Nat) (hk : k < s.enc.spec.count) :
      encHistory.read k = inputSample s k ∧ decHistory.read k = inputSample s k :=
    ⟨(hforward k hk).2, (hinverse k (hcount ▸ hk)).1.trans (hsample k hk)⟩
  have hframe (k : Nat) (hk : k < s.enc.spec.count) :
      fout.read (pathKey s.params.scan s.enc.spec.cols.toNat k) = s.fin.read (pathKey s.params.scan s.enc.spec.cols.toNat k) := by
    have hread := (hinverse k (hcount ▸ hk)).2.trans (hsample k hk)
    rwa [← hcols] at hread
  exact ⟨_, hpinv, rfl, fun r c hr hc => read_frameKey_eq_of_path hframe hr hc, rfl, rfl, hhistories, hencValid, hdecValid,
    hdims, rfl, fun _ k hk => (hhistories k hk).1.trans (hhistories k hk).2.symm⟩

/-! ### Ranges (43_predictor.md R134) -/

/-- Settles O37: two samples differ by at most 65535, two temporal deltas by at most twice that, and an i32 holds such a
residual. -/
theorem residualRanges : Obligations.ResidualRanges := by
  unfold Obligations.ResidualRanges
  intro s k
  obtain ⟨hdeltaLow, hdeltaHigh⟩ := temporalDelta_range s k
  obtain ⟨hresidualLow, hresidualHigh⟩ := residual_range s k
  exact ⟨hdeltaLow, hdeltaHigh, hresidualLow, hresidualHigh, rfl, residual_toInt s k⟩

end Sys2Proof.Machine
end

section
/-! CNEXT: its frame under DENSE, and what it leaves after BitWidthOverflow (44_compressor.md R152 to R154). -/

namespace Sys2Proof.Machine

/-! ### The frame under DENSE (30_encoding.md R81) -/

theorem frameWidth_of_dense {s : State} (h : s.params.framing = .dense) : frameWidth s = selectWidth (frameResidualList s) := by
  unfold frameWidth
  rw [h]
  rfl

theorem framePack_of_dense {s : State} (h : s.params.framing = .dense) :
    framePack s = (frameResidualList s).map (fun r => (tcEncode r (frameWidth s), frameWidth s)) := by
  unfold framePack
  rw [h]
  rfl

theorem itemBits_framePack_of_dense {s : State} (h : s.params.framing = .dense) :
    itemBits (framePack s) = s.enc.spec.count * frameWidth s := by
  rw [framePack_of_dense h, itemBits_map, frameResidualList_length]

/-- Settles O42: the fields written by `exec_cnext_of_fits`, the memories by `advancedEnc_spec`, the stream by
`packedWriter_spec`. -/
theorem cnextPacksTheFrame : Obligations.CnextPacksTheFrame := by
  unfold Obligations.CnextPacksTheFrame
  intro s hready hlegal hframing hnarrow
  have hgood := goodWidth_selectWidth hnarrow
  have hleast := leastWidth_selectWidth (frameResidualList s)
  rw [← frameWidth_of_dense hframing] at hgood hleast
  obtain ⟨-, hwidth⟩ := id hgood
  obtain ⟨-, -, hcap⟩ := id hlegal
  have hfit := framePack_fits hready hlegal hwidth
  obtain ⟨-, hwritten, hkept⟩ := advancedEnc_spec s
  obtain ⟨hnb, hacc, holen, hstream⟩ := packedWriter_spec s.free (Nat.lt_of_le_of_lt hfit hcap)
  rw [itemBits_framePack_of_dense hframing] at holen hstream
  have hcodes := congrArg itemsBits (framePack_of_dense hframing)
  exact ⟨frameWidth s, _, _, _, _, hgood, hleast, exec_cnext_of_fits hready hwidth hfit, hwritten, hkept, hnb, hacc, holen,
    hcodes ▸ hstream⟩

/-! ### BitWidthOverflow (44_compressor.md R154) -/

/-- What CNEXT answers on residuals too wide, as the fields of `s` it writes. -/
theorem exec_cnext_of_wide {s : State} (hready : encReady s) (hwidth : 16 < frameWidth s) :
    exec .cnext s = .next { s with
      enc := { s.enc with
        res := (advancedEnc s).res, history := (advancedEnc s).history, hist := true, bw := .empty s.free, width := 0 },
      free := s.free + 1, err := .bitWidthOverflow } := by
  rw [exec_cnext_of_ready hready, compressFrame_eq, if_pos hwidth, advancedEnc_frame]

/-- Settles O44: a residual out of 16 bits makes the selected width exceed 16, and the overflow leaves `advancedEnc` with the empty
writer. -/
theorem cnextOverflowAdvancesThePredictor : Obligations.CnextOverflowAdvancesThePredictor := by
  unfold Obligations.CnextOverflowAdvancesThePredictor
  intro s hready hwide
  have hwidth : 16 < frameWidth s := (lt_selectWidth_iff (by omega) _).2 hwide
  obtain ⟨-, hwritten, hkept⟩ := advancedEnc_spec s
  exact ⟨_, _, _, _, exec_cnext_of_wide hready hwidth, hwritten, hkept⟩

end Sys2Proof.Machine
end

section
/-! DNEXT: its frame under DENSE, and what it leaves after an underrun (45_decompressor.md R162 to R164). -/

namespace Sys2Proof.Machine

/-! ### The underrun (45_decompressor.md R164) -/

theorem exec_dnext_of_short {s : State} {w : Nat} (hready : decReady s) (hw : goodWidth w)
    (hshort : 8 * s.dec.br.ilen.toNat < (frameWidths s.params.framing w s.dec.spec.count).sum) :
    exec (.dnext w) s = raise .streamUnderrun (underrunState s) := by
  rw [exec_dnext_of_ready hready hw, decompressFrame_short s w hshort]

/-- Settles O48: `underrunState` writes `RESD`, `BR_POS` and `FOUT`, and takes free values. -/
theorem dnextUnderrunKeepsTheHistory : Obligations.DnextUnderrunKeepsTheHistory := by
  unfold Obligations.DnextUnderrunKeepsTheHistory
  exact fun s w hready hw hshort => ⟨_, _, _, _, exec_dnext_of_short hready hw hshort⟩

/-! ### The frame under DENSE (30_encoding.md R81) -/

theorem sum_frameWidths_of_dense (w n : Nat) : (frameWidths .dense w n).sum = w * n := by
  unfold frameWidths
  rw [List.sum_replicate, smul_eq_mul, Nat.mul_comm]

/-- The residuals a dense frame holds: the codes from bit 0 on. -/
theorem frameResiduals_codesFrom_of_dense (r : Reader) (w n : Nat) :
    frameResiduals .dense w (r.codesFrom (frameWidths .dense w n) 0) =
      (List.range n).map (fun k => tcDecode (r.bitsFrom w (w * k) 0) w) := by
  unfold frameWidths frameResiduals
  simp only [Reader.codesFrom_replicate, Nat.zero_add, List.map_map, Function.comp_def]

section

variable {s : State} {w : Nat}

theorem read_loadedRes_of_dense (hframing : s.params.framing = .dense) (k : Nat) :
    (loadedRes s w).read k =
      if k < s.dec.spec.count then BitVec.ofInt 32 (tcDecode (s.dec.br.bitsFrom w (w * k) 0) w)
      else s.dec.res.read k := by
  unfold loadedRes
  rw [hframing, frameResiduals_codesFrom_of_dense, List.map_map, Mem.read_writeFrom_zero_range]
  rfl

/-- `RESD[k]` is the residual whose code is the `k`-th `w` bits of the stream. -/
theorem loadedRes_code_of_dense (hframing : s.params.framing = .dense) (hw : goodWidth w)
    (hlong : w * s.dec.spec.count ≤ 8 * s.dec.br.ilen.toNat) {k : Nat} (hk : k < s.dec.spec.count) :
    inWidth w ((loadedRes s w).read k).toInt
      ∧ codeBits (tcEncode ((loadedRes s w).read k).toInt w) w = (s.dec.br.stream.drop (w * k)).take w := by
  have hlt := s.dec.br.bitsFrom_lt w (w * k)
  have hrange := tcDecode_range hw.1 hlt
  have hend : w * k + w ≤ 8 * s.dec.br.ilen.toNat := (Nat.mul_le_mul_left w (Nat.succ_le_of_lt hk)).trans hlong
  rw [read_loadedRes_of_dense hframing, if_pos hk, toInt_ofInt_of_inWidth hw hrange, tcEncode_tcDecode hw.1 hlt]
  exact ⟨hrange, Reader.codeBits_bitsFrom_eq_take _ hend⟩

end

/-- Settles O46: the fields written by `exec_dnext_of_long`, the residuals by `loadedRes_code_of_dense`. -/
theorem dnextWritesTheDecodedFrame : Obligations.DnextWritesTheDecodedFrame := by
  unfold Obligations.DnextWritesTheDecodedFrame
  intro s w hready hw hframing hlong hcap
  have hsum : (frameWidths s.params.framing w s.dec.spec.count).sum = w * s.dec.spec.count := by
    rw [hframing, sum_frameWidths_of_dense]
  obtain ⟨h, f, hexec, hwritten, hkept, hfout⟩ := exec_dnext_of_long hready hw (by rwa [hsum]) hcap
  rw [hsum] at hexec
  refine ⟨loadedRes s w, h, f, hexec, fun k hk => ?written, fun k hk => ⟨?kept, hkept k hk⟩, hfout⟩
  case written =>
    obtain ⟨hrange, hbits⟩ := loadedRes_code_of_dense hframing hw hlong hk
    exact ⟨hrange, hbits, hwritten k hk⟩
  case kept => rw [read_loadedRes_of_dense hframing, if_neg (Nat.not_lt.2 hk)]

end Sys2Proof.Machine
end

section
/-! DNEXT reads of the input stream the bits it consumes and no others (45_decompressor.md R167). -/

namespace Sys2Proof.Machine

section

variable (n : Word) (m : Mem 8)

/-! ### Another input stream -/

/-- The context with `ILEN` and `IBUF` replaced. -/
def Dec.withInput (d : Dec) : Dec := { d with br := { d.br with ilen := n, ibuf := m } }

def InverseState.withInput (st : InverseState) : InverseState := { st with dec := st.dec.withInput n m }

/-- The state with `ILEN` and `IBUF` replaced. -/
def State.withInput (s : State) : State := s.setDec (s.dec.withInput n m)

/-- The inverse pass neither reads nor writes the input stream. -/
theorem inversePass_withInput (p : Params) (d : Dec) (fout : Mem 16) (count : Nat) :
    inversePass p (d.withInput n m) fout count = (inversePass p d fout count).withInput n m :=
  List.foldl_hom (g₁ := inverseAt p) (init := { acc := 0, dec := d, fout := fout }) (InverseState.withInput n m)
    fun _ _ => rfl

theorem predictInverse_withInput (s : State) : predictInverse (s.withInput n m) = (predictInverse s).withInput n m :=
  congrArg (fun r : InverseState => (s.setDec { r.dec with hist := true }).setFout r.fout)
    (inversePass_withInput n m s.params s.dec s.fout s.dec.spec.count)

/-- With enough bits in both streams and the bits of the frame the same in both, DNEXT decodes the same frame. -/
theorem decompressFrame_withInput {s : State} {w : Nat}
    (hlong : (frameWidths s.params.framing w s.dec.spec.count).sum ≤ 8 * s.dec.br.ilen.toNat)
    (hlong' : (frameWidths s.params.framing w s.dec.spec.count).sum ≤ 8 * n.toNat)
    (hcap : s.dec.br.ilen.toNat ≤ s.params.ibufCap) (hcap' : n.toNat ≤ s.params.ibufCap)
    (hbits : ∀ p, p < (frameWidths s.params.framing w s.dec.spec.count).sum →
      ({ s.dec.br with ibuf := m } : Reader).bit p = s.dec.br.bit p) :
    decompressFrame w (s.withInput n m) = mapNext (State.withInput n m) (decompressFrame w s) := by
  have hcodes : (s.withInput n m).dec.br.codesFrom (frameWidths s.params.framing w s.dec.spec.count) 0
      = s.dec.br.codesFrom (frameWidths s.params.framing w s.dec.spec.count) 0 :=
    Reader.codesFrom_congr _ fun p _ hp => hbits p (by omega)
  calc decompressFrame w (s.withInput n m)
    _ = complete (predictInverse ((loadResiduals
          (frameResiduals s.params.framing w
            ((s.withInput n m).dec.br.codesFrom (frameWidths s.params.framing w s.dec.spec.count) 0))
          { s.dec.br with pos := (frameWidths s.params.framing w s.dec.spec.count).sum } s).withInput n m)) :=
      decompressFrame_long (s.withInput n m) w hlong' hcap'
    _ = mapNext (State.withInput n m) (decompressFrame w s) := by
      rw [hcodes, predictInverse_withInput, decompressFrame_long s w hlong hcap]
      rfl

end

/-- Settles O49: the codes are the same bits, and the inverse pass does not see the stream. -/
theorem dnextIgnoresPaddingAndSurplus : Obligations.DnextIgnoresPaddingAndSurplus := by
  unfold Obligations.DnextIgnoresPaddingAndSurplus
  intro s t w n m hready hw hlong hlong' hcap hcap' hbits hexec
  have hother := decompressFrame_withInput n m hlong hlong' hcap hcap' hbits
  rw [← exec_dnext_of_ready hready hw, hexec] at hother
  exact (exec_dnext_of_ready (s := s.withInput n m) hready hw).trans hother

end Sys2Proof.Machine
end

section
/-! Between CNEXT and DNEXT: the codes of a frame decode to its residuals, and the states that a CNEXT and a COPYOUT leave
(44_compressor.md R152, 30_encoding.md R77, R81, R88). -/

namespace Sys2Proof.Machine

/-! ### The codes of a frame give back its residuals (30_encoding.md R81, R88) -/

theorem map_snd_frameItems (f : Framing) (w : Nat) {rs : List Int} (h : 1 ≤ rs.length) :
    (frameItems f w rs).map Prod.snd = frameWidths f w rs.length := by
  cases f with
  | dense => simp [frameItems, frameWidths, Function.comp_def]
  | seeded32 =>
    obtain ⟨r, rest, rfl⟩ := List.exists_cons_of_length_pos h
    simp [frameItems, frameWidths, seedBytes, Function.comp_def, List.replicate_succ]

/-- Every code of a frame is in the range of its width. -/
theorem fst_lt_of_mem_frameItems {f : Framing} {w : Nat} {rs : List Int} {cw : Nat × Nat} (h : cw ∈ frameItems f w rs) :
    cw.1 < 2 ^ cw.2 := by
  have hcode {rs : List Int} (h : cw ∈ rs.map (fun r => (tcEncode r w, w))) : cw.1 < 2 ^ cw.2 := by
    obtain ⟨r, -, rfl⟩ := List.mem_map.1 h
    exact tcEncode_lt r w
  match f, rs with
  | .dense, rs => exact hcode h
  | .seeded32, [] => exact absurd h List.not_mem_nil
  | .seeded32, r :: rest =>
    obtain hseed | hrest := List.mem_append.1 h
    · obtain ⟨b, hb, rfl⟩ := List.mem_map.1 hseed
      exact seedBytes_lt r b hb
    · exact hcode hrest

theorem seedValue_seedBytes {r : Int} (h : inWidth 32 r) :
    seedValue (seedBytes r)[0] (seedBytes r)[1] (seedBytes r)[2] (seedBytes r)[3] = r := by
  have hsum : (seedBytes r)[0] + 256 * (seedBytes r)[1] + 65536 * (seedBytes r)[2] + 16777216 * (seedBytes r)[3]
      = tcEncode r 32 := seedBytes_sum r
  rw [seedValue, hsum, tcDecode_tcEncode (by omega) h]

theorem map_tcDecode_tcEncode {w : Nat} {rs : List Int} (hw : 1 ≤ w) (h : ∀ r ∈ rs, inWidth w r) :
    ((rs.map (fun r => (tcEncode r w, w))).map Prod.fst).map (fun c => tcDecode c w) = rs := by
  rw [List.map_map, List.map_map]
  exact (List.map_congr_left fun r hr => tcDecode_tcEncode hw (h r hr)).trans (List.map_id' rs)

/-- The codes of a frame decode to its residuals, where the width holds those it is selected over and an i32 the seed. -/
theorem frameResiduals_frameItems {f : Framing} {w : Nat} {rs : List Int} (hw : 1 ≤ w)
    (hnarrow : ∀ r ∈ widthResiduals f rs, inWidth w r) (hseed : ∀ r ∈ rs, inWidth 32 r) :
    frameResiduals f w ((frameItems f w rs).map Prod.fst) = rs := by
  match f, rs with
  | .dense, rs => exact map_tcDecode_tcEncode hw hnarrow
  | .seeded32, [] => rfl
  | .seeded32, r :: rest =>
    exact congrArg₂ List.cons (seedValue_seedBytes (hseed r List.mem_cons_self)) (map_tcDecode_tcEncode hw hnarrow)

/-! ### The stream that COPYOUT moves (30_encoding.md R77) -/

theorem Reader.codesFrom_of_packed {r : Reader} {items : List (Nat × Nat)} (g : Nat)
    (hfit : (itemBits items + 7) / 8 < 2 ^ 32) (hlen : r.ilen = (Writer.putAll items (.empty g)).finish.olen)
    (hbytes : ∀ j, j < (Writer.putAll items (.empty g)).finish.olen.toNat →
      r.ibuf.read j = (Writer.putAll items (.empty g)).finish.obuf.read j) :
    itemBits items ≤ 8 * r.ilen.toNat ∧ r.codesFrom (items.map Prod.snd) 0 = items.map (fun cw => cw.1 % 2 ^ cw.2) := by
  obtain ⟨hnb, -, holen, hpacked⟩ := packedWriter_spec g hfit
  have hroom : itemBits items ≤ 8 * r.ilen.toNat := by
    rw [hlen]
    omega
  have hstream := (Reader.stream_eq_of_bytes hnb hlen hbytes).trans hpacked
  exact ⟨hroom, Reader.codesFrom_of_stream items (by omega) hstream⟩

/-! ### The states between CNEXT and DNEXT -/

/-- The writer CNEXT leaves (44_compressor.md R152). -/
def packedWriter (s : State) : Writer := (Writer.putAll (framePack s) (.empty s.free)).finish

/-- The state after a CNEXT that succeeds. -/
def compressedState (s : State) : State :=
  ((s.setEnc (compressedEnc s (packedWriter s) (BitVec.ofNat 8 (frameWidth s)))).take 1).setErr .ok

/-- The reader after the COPYOUT that follows, with `IBUF` the memory `m`. -/
def copiedReader (s : State) (m : Mem 8) : Reader := { s.dec.br with ilen := (packedWriter s).olen, ibuf := m }

/-- The state after the COPYOUT that follows. -/
def copiedState (s : State) (m : Mem 8) : State := (compressedState s).setReader (copiedReader s m)

/-- `IBUF` holds the bytes CNEXT wrote. -/
def holdsPacked (s : State) (m : Mem 8) : Prop :=
  ∀ j, j < (packedWriter s).olen.toNat → m.read j = (packedWriter s).obuf.read j

section

variable (s : State) (m : Mem 8)

@[simp] theorem copiedState_params : (copiedState s m).params = s.params := by simp [copiedState, compressedState]
@[simp] theorem copiedState_finDims : (copiedState s m).finDims = s.finDims := by simp [copiedState, compressedState]
@[simp] theorem copiedState_foutDims : (copiedState s m).foutDims = s.foutDims := by simp [copiedState, compressedState]
@[simp] theorem copiedState_enc :
    (copiedState s m).enc = compressedEnc s (packedWriter s) (BitVec.ofNat 8 (frameWidth s)) := by
  simp [copiedState, compressedState]

@[simp] theorem copiedState_dec : (copiedState s m).dec = { s.dec with br := copiedReader s m } := by
  simp [copiedState, compressedState]

end

/-- A CNEXT that raises nothing has selected a legal width and packed the frame. -/
theorem exec_cnext_ok {s t : State} (hready : encReady s) (hlegal : s.params.legal) (hexec : exec .cnext s = .next t)
    (hok : t.err = .ok) : frameWidth s ≤ 16 ∧ t = compressedState s := by
  by_cases hwidth : frameWidth s ≤ 16
  · have hfits := exec_cnext_of_fits hready hwidth (framePack_fits hready hlegal hwidth)
    obtain rfl := Host.Outcome.next.inj (hexec.symm.trans hfits)
    refine ⟨hwidth, ?_⟩
    rw [compressedState, compressedEnc, advancedEnc_frame]
    rfl
  · obtain rfl := Host.Outcome.next.inj (hexec.symm.trans (exec_cnext_of_wide hready (Nat.lt_of_not_le hwidth)))
    cases hok

theorem copyOut_compressedState {s t : State} (h : copyOut (compressedState s) = .next t) :
    (packedWriter s).olen.toNat ≤ s.params.ibufCap ∧ ∃ m : Mem 8, t = copiedState s m ∧ holdsPacked s m := by
  obtain ⟨hfits, hover⟩ := copyoutCopiesTheOutputStream (compressedState s)
  by_cases hcap : (packedWriter s).olen.toNat ≤ s.params.ibufCap
  · obtain ⟨m, hcopy, hbytes, -⟩ := hfits hcap
    exact ⟨hcap, m, Host.Outcome.next.inj (h.symm.trans hcopy), hbytes⟩
  · cases h.symm.trans (hover (Nat.lt_of_not_le hcap))

end Sys2Proof.Machine
end

section
/-! The whole engine: a frame that CNEXT packs comes back from DNEXT, one frame and a sequence of them
(45_decompressor.md R166, 43_predictor.md R139). -/

namespace Sys2Proof.Machine

/-! ### What relaying frames keeps -/

/-- `paired`, of the two contexts alone. -/
def pairedContexts (e : Enc) (d : Dec) : Prop :=
  e.valid = true ∧ d.valid = true ∧ e.spec.dims = d.spec.dims ∧ e.hist = d.hist
    ∧ (e.hist = true → ∀ k, k < e.spec.count → e.history.read k = d.history.read k)

theorem paired_iff {s : State} : paired s ↔ pairedContexts s.enc s.dec := Iff.rfl

/-- Two contexts constructed from one CameraSpec are paired in NoHistory (10_state.md R39). -/
theorem pairedContexts_fresh (c : CameraSpec) (g g' : Nat) (br : Reader) : pairedContexts (freshEnc c g) (freshDec c g' br) :=
  ⟨rfl, rfl, rfl, rfl, fun h => Bool.noConfusion h⟩

/-- What a relayed frame starts from and leaves: the contexts paired, both frame stores of their dimensions. -/
structure Linked (s : State) : Prop where
  legal : s.params.legal
  paired : paired s
  spec : ¬ s.enc.spec.bad s.params
  finDims : s.finDims = s.enc.spec.dims
  foutDims : s.foutDims = s.enc.spec.dims

theorem Linked.of_contexts {s : State} {e : Enc} {d : Dec} (henc : s.enc = e) (hdec : s.dec = d)
    (hpaired : pairedContexts e d) (hlegal : s.params.legal) (hspec : ¬ e.spec.bad s.params) (hfin : s.finDims = e.spec.dims)
    (hfout : s.foutDims = e.spec.dims) : Linked s := by
  subst henc hdec
  exact ⟨hlegal, paired_iff.2 hpaired, hspec, hfin, hfout⟩

theorem CameraSpec.one_le_count {p : Params} {c : CameraSpec} (h : ¬ c.bad p) : 1 ≤ c.count := by
  refine Nat.mul_pos (Nat.pos_of_ne_zero fun hcols => h (.inl ?_)) (Nat.pos_of_ne_zero fun hrows => h (.inr (.inl ?_)))
  · exact BitVec.eq_of_toNat_eq hcols
  · exact BitVec.eq_of_toNat_eq hrows

section

variable {s : State} {m : Mem 8}

theorem Linked.encReady (h : Linked s) : encReady s := by
  obtain ⟨hvalid, -⟩ := h.paired
  exact ⟨hvalid, h.finDims, Nat.le_of_not_lt fun hlt => h.spec (.inr (.inr hlt))⟩

theorem Linked.dec_dims (h : Linked s) : s.enc.spec.dims = s.dec.spec.dims := by
  obtain ⟨-, -, hdims, -⟩ := h.paired
  exact hdims

theorem Linked.dec_count (h : Linked s) : s.enc.spec.count = s.dec.spec.count := CameraSpec.count_eq_of_dims_eq h.dec_dims

theorem Linked.decReady (h : Linked s) : decReady s := by
  obtain ⟨-, hvalid, -⟩ := h.paired
  obtain ⟨-, -, hcount⟩ := h.encReady
  exact ⟨hvalid, h.foutDims.trans h.dec_dims, h.dec_count ▸ hcount⟩

/-! ### What DNEXT reads after COPYOUT -/

theorem inWidth_of_mem_frameResidualList {r : Int} (h : r ∈ frameResidualList s) : inWidth 32 r := by
  obtain ⟨k, -, rfl⟩ := List.mem_map.1 h
  have hrange := residual_range s k
  constructor <;> omega

/-- DNEXT finds all the bits it needs, and reads from them the residuals CNEXT packed. -/
theorem Linked.frameResiduals_copiedReader (h : Linked s) (hwidth : frameWidth s ≤ 16) (hbytes : holdsPacked s m) :
    (frameWidths s.params.framing (frameWidth s) s.enc.spec.count).sum ≤ 8 * (copiedReader s m).ilen.toNat
      ∧ frameResiduals s.params.framing (frameWidth s)
          ((copiedReader s m).codesFrom (frameWidths s.params.framing (frameWidth s) s.enc.spec.count) 0)
        = frameResidualList s := by
  obtain ⟨-, -, hcap⟩ := h.legal
  have hfit := framePack_fits h.encReady h.legal hwidth
  obtain ⟨hroom, hread⟩ := Reader.codesFrom_of_packed (r := copiedReader s m) s.free (Nat.lt_of_le_of_lt hfit hcap) rfl hbytes
  have hwidths : (framePack s).map Prod.snd = frameWidths s.params.framing (frameWidth s) s.enc.spec.count := by
    have hcount := CameraSpec.one_le_count h.spec
    rw [framePack, map_snd_frameItems _ _ (by rwa [frameResidualList_length]), frameResidualList_length]
  have hcodes : (framePack s).map (fun cw => cw.1 % 2 ^ cw.2) = (framePack s).map Prod.fst :=
    List.map_congr_left fun cw hcw => Nat.mod_eq_of_lt (fst_lt_of_mem_frameItems hcw)
  obtain ⟨hpos, hholds, -⟩ := leastWidth_selectWidth (widthResiduals s.params.framing (frameResidualList s))
  rw [← hwidths, hread, hcodes]
  exact ⟨hroom, frameResiduals_frameItems hpos hholds fun r => inWidth_of_mem_frameResidualList⟩

/-- The residuals DNEXT loads are those of the input frame. -/
theorem Linked.read_loadedRes (h : Linked s) (hwidth : frameWidth s ≤ 16) (hbytes : holdsPacked s m) {k : Nat}
    (hk : k < s.enc.spec.count) : ((loadedRes (copiedState s m) (frameWidth s)).read k).toInt = residual s k := by
  obtain ⟨-, hres⟩ := h.frameResiduals_copiedReader hwidth hbytes
  rw [loadedRes, copiedState_params, copiedState_dec]
  dsimp only
  rw [← h.dec_count, hres, frameResidualList, List.map_map, Mem.read_writeFrom_zero_range, if_pos hk]
  exact residual_toInt s k

/-! ### One frame -/

theorem Linked.copiedState_decReady (h : Linked s) : Machine.decReady (copiedState s m) := by
  simp only [Machine.decReady, ready, copiedState_params, copiedState_foutDims, copiedState_dec]
  exact h.decReady

/-- After CNEXT and COPYOUT, DNEXT writes the samples of the input frame to `HISTD` and to `FOUT`. -/
theorem Linked.exec_dnext_copiedState (h : Linked s) (hwidth : frameWidth s ≤ 16)
    (hcap : (packedWriter s).olen.toNat ≤ s.params.ibufCap) (hbytes : holdsPacked s m) :
    ∃ (r : Mem 32) (history fout : Mem 16) (br : Reader),
      exec (.dnext (frameWidth s)) (copiedState s m) = .next { copiedState s m with
        dec := { s.dec with res := r, history := history, hist := true, br := br }, fout := fout, err := .ok }
      ∧ ∀ k, k < s.enc.spec.count → history.read k = inputSample s k
        ∧ fout.read (pathKey s.params.scan s.enc.spec.cols.toNat k) = inputSample s k := by
  obtain ⟨hlong, -⟩ := h.frameResiduals_copiedReader hwidth hbytes
  rw [h.dec_count] at hlong
  obtain ⟨history, fout, hexec, hwritten, -⟩ := exec_dnext_of_long (w := frameWidth s) (h.copiedState_decReady (m := m))
    ⟨one_le_selectWidth _, hwidth⟩ (by simpa only [copiedState_params, copiedState_dec] using hlong)
    (by simpa only [copiedState_params, copiedState_dec, copiedReader] using hcap)
  simp only [copiedState_dec] at hexec
  simp only [copiedState_params, copiedState_dec] at hwritten
  obtain ⟨hcols, -⟩ := CameraSpec.cols_rows_eq_of_dims_eq h.dec_dims
  refine ⟨_, history, fout, _, hexec, fun k hk => ?_⟩
  have hsample : outputSample s.dec (loadedRes (copiedState s m) (frameWidth s)) k = inputSample s k :=
    outputSample_eq_inputSample (h.paired.reference_eq hk) fun j hj => h.read_loadedRes hwidth hbytes (by omega)
  obtain ⟨hhistory, hfout⟩ := hwritten k (h.dec_count ▸ hk)
  rw [hcols]
  exact ⟨hhistory.trans hsample, hfout.trans hsample⟩

@[simp] theorem compressedEnc_spec (b : Writer) (width : BitVec 8) : (compressedEnc s b width).spec = s.enc.spec :=
  advancedEnc_spec_eq s

/-- Contexts that were paired are so after a frame that both have taken into their history. -/
theorem Linked.pairedContexts_compressedEnc (h : Linked s) (b : Writer) (width : BitVec 8) {d : Dec} (hvalid : d.valid = true)
    (hspec : d.spec = s.dec.spec) (hhist : d.hist = true)
    (hhistory : ∀ k, k < s.enc.spec.count → d.history.read k = inputSample s k) :
    pairedContexts (compressedEnc s b width) d := by
  obtain ⟨-, hforward, -⟩ := advancedEnc_spec s
  obtain ⟨hencValid, -⟩ := h.paired
  refine ⟨(advancedEnc_valid s).trans hencValid, hvalid, ?_, hhist.symm, fun _ k hk => ?_⟩
  · rw [compressedEnc_spec, hspec, h.dec_dims]
  · rw [compressedEnc_spec] at hk
    obtain ⟨-, hencHistory⟩ := hforward k hk
    exact hencHistory.trans (hhistory k hk).symm

end

/-- A frame that CNEXT packs and COPYOUT moves, DNEXT gives back, and the next frame can follow. -/
theorem Linked.frameRoundTrip {s s1 s2 : State} (h : Linked s) (hcnext : exec .cnext s = .next s1) (hok : s1.err = .ok)
    (hcopy : copyOut s1 = .next s2) :
    ∃ s3, exec (.dnext s1.enc.width.toNat) s2 = .next s3 ∧ s3.err = .ok
      ∧ (∀ r c, r < s.enc.spec.rows.toNat → c < s.enc.spec.cols.toNat →
        s3.fout.read (frameKey (r, c)) = s.fin.read (frameKey (r, c)))
      ∧ Linked s3 ∧ s3.enc.spec = s.enc.spec := by
  obtain ⟨hwidth, rfl⟩ := exec_cnext_ok h.encReady h.legal hcnext hok
  obtain ⟨hcap, m, rfl, hbytes⟩ := copyOut_compressedState hcopy
  obtain ⟨res, history, fout, br, hexec, hwritten⟩ := h.exec_dnext_copiedState hwidth hcap hbytes
  have hwidthReg : (compressedState s).enc.width.toNat = frameWidth s :=
    (BitVec.toNat_ofNat ..).trans (Nat.mod_eq_of_lt (by omega))
  obtain ⟨hdecValid, -⟩ := h.decReady
  have hpaired := h.pairedContexts_compressedEnc (packedWriter s) (BitVec.ofNat 8 (frameWidth s))
    (d := { s.dec with res := res, history := history, hist := true, br := br }) hdecValid rfl rfl
    fun k hk => (hwritten k hk).1
  have henc := copiedState_enc s m
  rw [hwidthReg]
  refine ⟨_, hexec, rfl, fun r c hr hc => read_frameKey_eq_of_path (fun k hk => (hwritten k hk).2) hr hc,
    Linked.of_contexts henc rfl hpaired ?legal ?notBad ?finDims ?foutDims, ?spec⟩
  case legal => simpa only [copiedState_params] using h.legal
  case notBad => simpa only [copiedState_params, compressedEnc_spec] using h.spec
  case finDims => simpa only [copiedState_finDims, compressedEnc_spec] using h.finDims
  case foutDims => simpa only [copiedState_foutDims, compressedEnc_spec] using h.foutDims
  case spec => rw [henc, compressedEnc_spec]

/-- Settles O50: the premises are `Linked`, and so is the state after the frame. -/
theorem compressedFrameRoundTrip : Obligations.CompressedFrameRoundTrip := by
  unfold Obligations.CompressedFrameRoundTrip
  intro s s1 s2 hlegal hpaired hspec hfin hfout hcnext hok hcopy
  have hlinked : Linked s := ⟨hlegal, hpaired, hspec, hfin, hfout⟩
  obtain ⟨s3, hexec, herr, hframe, hnext, hsame⟩ := hlinked.frameRoundTrip hcnext hok hcopy
  exact ⟨s3, hexec, herr, hframe, hnext.paired, hsame⟩

/-! ### A sequence of frames -/

theorem Linked.setFin {s : State} (h : Linked s) (frame : Mem 16) : Linked (s.setFin frame) :=
  ⟨h.legal, h.paired, h.spec, h.finDims, h.foutDims⟩

theorem Linked.relayed {s t : State} {frame : Mem 16} (h : Linked s) (hrelayed : relayed frame s t) :
    Linked t ∧ t.enc.spec = s.enc.spec := by
  obtain ⟨s1, s2, hcnext, hok, hcopy, hdnext⟩ := hrelayed
  obtain ⟨t', hexec, -, -, hlinked, hspec⟩ := (h.setFin frame).frameRoundTrip hcnext hok hcopy
  obtain rfl := Host.Outcome.next.inj (hexec.symm.trans hdnext)
  exact ⟨hlinked, hspec⟩

theorem Linked.relayedAll {frames : List (Mem 16)} {s t : State} (h : Linked s) (hrelayed : relayedAll frames s t) :
    Linked t ∧ t.enc.spec = s.enc.spec := by
  induction frames generalizing s with
  | nil =>
    obtain rfl := hrelayed
    exact ⟨h, rfl⟩
  | cons frame frames ih =>
    obtain ⟨s1, hfirst, hrest⟩ := hrelayed
    obtain ⟨hlinked, hspec⟩ := h.relayed hfirst
    obtain ⟨hlast, hspec'⟩ := ih hlinked hrest
    exact ⟨hlast, hspec'.trans hspec⟩

theorem execCinit_ok {s t : State} (h : execCinit s = .next t) (hok : t.err = .ok) :
    ¬ s.spec.bad s.params ∧ t = ((s.setEnc (freshEnc s.spec s.free)).take 3).setErr .ok := by
  by_cases hbad : s.spec.bad s.params
  · rw [execCinit, if_pos hbad] at h
    obtain rfl := raise_eq_next.1 h
    cases hok
  · rw [execCinit_of_not_bad hbad] at h
    exact ⟨hbad, complete_eq_next.1 h⟩

theorem execDinit_ok {s t : State} (h : execDinit s = .next t) (hok : t.err = .ok) :
    t = ((s.setDec (freshDec s.spec s.free s.dec.br)).take 2).setErr .ok := by
  by_cases hbad : s.spec.bad s.params
  · rw [execDinit, if_pos hbad] at h
    obtain rfl := raise_eq_next.1 h
    cases hok
  · rw [execDinit_of_not_bad hbad] at h
    exact complete_eq_next.1 h

@[simp] theorem freshEnc_spec (c : CameraSpec) (g : Nat) : (freshEnc c g).spec = c := rfl

theorem linked_of_construction {s0 s1 s2 : State} (hlegal : s0.params.legal) (hcinit : exec .cinit s0 = .next s1)
    (hok1 : s1.err = .ok) (hdinit : exec .dinit s1 = .next s2) (hok2 : s2.err = .ok) (hfin : s0.finDims = s0.spec.dims)
    (hfout : s0.foutDims = s0.spec.dims) : Linked s2 ∧ s2.enc.spec = s0.spec := by
  obtain ⟨hspec, rfl⟩ := execCinit_ok hcinit hok1
  obtain rfl := execDinit_ok hdinit hok2
  have hpaired := pairedContexts_fresh s0.spec s0.free (s0.free + 3) s0.dec.br
  refine ⟨Linked.of_contexts ?enc ?dec hpaired ?legal ?notBad ?finDims ?foutDims, ?spec⟩
  case enc => simp
  case dec => simp
  case legal => simpa using hlegal
  case notBad =>
    simpa only [freshEnc_spec, State.setErr_params, State.take_params, State.setDec_params, State.setEnc_params] using hspec
  case finDims => simpa using hfin
  case foutDims => simpa using hfout
  case spec => simp

/-- Settles O51: construction gives `Linked`, every relayed frame keeps it, and from it one more frame comes back. -/
theorem frameSequenceRoundTrip : Obligations.FrameSequenceRoundTrip := by
  unfold Obligations.FrameSequenceRoundTrip
  intro s0 s1 s2 s c d frames frame hlegal hcinit hok1 hdinit hok2 hfin hfout hrelayed hcnext hok hcopy
  obtain ⟨hlinked, hspec⟩ := linked_of_construction hlegal hcinit hok1 hdinit hok2 hfin hfout
  obtain ⟨hlast, hspec'⟩ := hlinked.relayedAll hrelayed
  obtain ⟨t, hexec, herr, hframe, -⟩ := (hlast.setFin frame).frameRoundTrip hcnext hok hcopy
  rw [← hspec, ← hspec']
  exact ⟨t, hexec, herr, hframe⟩

end Sys2Proof.Machine
end

section
/-! The errors of a command: what raises IllegalCommand, DimensionMismatch and BadOperand before anything is written, and that
every command reports the first error of its checking order (60_exceptions.md R171 to R179). -/

namespace Sys2Proof.Machine

/-! ### IllegalCommand (60_exceptions.md R176) -/

/-- An outcome that does not end with IllegalCommand. -/
def NotIllegal (r : Result) : Prop := ∀ t, r = .next t → t.err ≠ .illegalCommand

theorem notIllegal_complete (s : State) : NotIllegal (complete s) := by
  intro t h
  rw [complete_eq_next.1 h]
  exact Err.noConfusion

theorem notIllegal_raise {e : Err} (he : e ≠ .illegalCommand) (s : State) : NotIllegal (raise e s) := by
  intro t h
  rw [raise_eq_next.1 h]
  exact he

theorem notIllegal_fault (f : Fault) : NotIllegal (.fault f) := fun _ h => nomatch h

theorem notIllegal_refused (r : Refusal) : NotIllegal (.refused r) := fun _ h => nomatch h

theorem NotIllegal.ite {c : Prop} [Decidable c] {a b : Result} (ha : NotIllegal a) (hb : NotIllegal b) :
    NotIllegal (if c then a else b) := by
  split
  · exact ha
  · exact hb

theorem notIllegal_badOperand (s : State) : NotIllegal (raise .badOperand s) := notIllegal_raise (by decide) s

/-- The commands that need no context check none. -/
theorem notIllegal_exec {s : State} {i : Instr} {w : Nat}
    (hi : i = .tcenc w ∨ i = .tcdec w ∨ i = .bwrst ∨ i = .bwput w ∨ i = .bwfin ∨ i = .brrst ∨ i = .brget w) :
    NotIllegal (exec i s) := by
  obtain rfl | rfl | rfl | rfl | rfl | rfl | rfl := hi
  · exact .ite (notIllegal_badOperand s) (notIllegal_complete _)
  · exact .ite (notIllegal_badOperand s) (notIllegal_complete _)
  · exact notIllegal_complete _
  · exact .ite (notIllegal_badOperand s) (.ite (notIllegal_refused _) (notIllegal_complete _))
  · exact .ite (notIllegal_refused _) (notIllegal_complete _)
  · exact notIllegal_complete _
  · exact .ite (notIllegal_badOperand s)
      (.ite (notIllegal_raise (by decide) _) (.ite (notIllegal_fault _) (notIllegal_complete _)))

/-- Settles O15: the five context commands check their context first, the other seven by `notIllegal_exec`. -/
theorem unconstructedContextIsIllegal : Obligations.UnconstructedContextIsIllegal := by
  unfold Obligations.UnconstructedContextIsIllegal
  refine ⟨fun s i hi hvalid => ?enc, fun s i w hi hvalid => ?dec, fun s t i w hi hexec => notIllegal_exec hi t hexec⟩
  case enc =>
    obtain rfl | rfl | rfl := hi
    · exact exec_pfwd_of_not_valid hvalid
    · exact exec_selw_of_not_valid hvalid
    · exact exec_cnext_of_not_valid hvalid
  case dec =>
    obtain rfl | rfl := hi
    · exact exec_pinv_of_not_valid hvalid
    · exact exec_dnext_of_not_valid hvalid

/-! ### DimensionMismatch (60_exceptions.md R171) -/

theorem CameraSpec.dims_ne {d : Dims} {c : CameraSpec} (h : d.cols ≠ c.cols ∨ d.rows ≠ c.rows) : d ≠ c.dims := by
  rintro rfl
  obtain hcols | hrows := h
  · exact hcols rfl
  · exact hrows rfl

section

variable {s : State} {w : Nat}

theorem exec_pfwd_of_dims_ne (hvalid : s.enc.valid = true) (hdims : s.finDims ≠ s.enc.spec.dims) :
    exec .pfwd s = raise .dimensionMismatch s := by
  show execPfwd s = _
  rw [execPfwd, if_neg (by simp [hvalid]), if_pos hdims]

theorem exec_cnext_of_dims_ne (hvalid : s.enc.valid = true) (hdims : s.finDims ≠ s.enc.spec.dims) :
    exec .cnext s = raise .dimensionMismatch s := by
  show execCnext s = _
  rw [execCnext, if_neg (by simp [hvalid]), if_pos hdims]

theorem exec_pinv_of_dims_ne (hvalid : s.dec.valid = true) (hdims : s.foutDims ≠ s.dec.spec.dims) :
    exec .pinv s = raise .dimensionMismatch s := by
  show execPinv s = _
  rw [execPinv, if_neg (by simp [hvalid]), if_pos hdims]

theorem exec_dnext_of_dims_ne (hvalid : s.dec.valid = true) (hdims : s.foutDims ≠ s.dec.spec.dims) :
    exec (.dnext w) s = raise .dimensionMismatch s := by
  show execDnext w s = _
  rw [execDnext, if_neg (by simp [hvalid]), if_pos hdims]

end

/-- Settles O16: the check of the dimensions is the second of each command, and one wrong dimension fails it. -/
theorem dimensionMismatchChangesNothingElse : Obligations.DimensionMismatchChangesNothingElse := by
  unfold Obligations.DimensionMismatchChangesNothingElse
  refine ⟨fun s i hi hvalid hdims => ?enc, fun s i w hi hvalid hdims => ?dec⟩
  case enc =>
    have hne := CameraSpec.dims_ne hdims
    obtain rfl | rfl := hi
    · exact exec_pfwd_of_dims_ne hvalid hne
    · exact exec_cnext_of_dims_ne hvalid hne
  case dec =>
    have hne := CameraSpec.dims_ne hdims
    obtain rfl | rfl := hi
    · exact exec_pinv_of_dims_ne hvalid hne
    · exact exec_dnext_of_dims_ne hvalid hne

/-! ### BadOperand (60_exceptions.md R174) -/

theorem exec_cinit_of_bad {s : State} (h : s.spec.bad s.params) : exec .cinit s = raise .badOperand s := if_pos h

theorem exec_dinit_of_bad {s : State} (h : s.spec.bad s.params) : exec .dinit s = raise .badOperand s := if_pos h

/-- Settles O17: each command tests its operand before it writes anything. -/
theorem badOperandChangesNothingElse : Obligations.BadOperandChangesNothingElse := by
  unfold Obligations.BadOperandChangesNothingElse
  refine ⟨fun s i w hi hw => ?width, fun s w hvalid hdims hw => ?dnext, fun s i hi hspec => ?spec⟩
  case width =>
    have hbad := badWidth_iff.2 hw
    obtain rfl | rfl | rfl | rfl := hi
    · exact exec_tcenc_of_badWidth hbad
    · exact exec_tcdec_of_badWidth hbad
    · exact exec_bwput_of_badWidth hbad
    · exact exec_brget_of_badWidth hbad
  case dnext => exact exec_dnext_of_badWidth (badWidth_iff.2 hw) hvalid hdims
  case spec =>
    obtain rfl | rfl := hi
    · exact exec_cinit_of_bad hspec
    · exact exec_dinit_of_bad hspec

/-! ### The checking order (60_exceptions.md R178) -/

@[simp] theorem firstError_nil : firstError [] = .ok := rfl

@[simp] theorem firstError_cons (c : Bool) (e : Err) (rest : List (Bool × Err)) :
    firstError ((c, e) :: rest) = if c then e else firstError rest := rfl

theorem goodWidth_of_not_badWidth {w : Nat} (h : ¬ badWidth w) : goodWidth w := by
  rw [badWidth_iff] at h
  omega

theorem tooWide_eq_true_iff {rs : List Int} : tooWide rs = true ↔ ∃ r ∈ rs, ¬ inWidth 16 r := by
  simp only [tooWide, List.any_eq_true, decide_eq_true_eq]

theorem tooWide_eq_decide (rs : List Int) : tooWide rs = decide (16 < selectWidth rs) := by
  rw [Bool.eq_iff_iff, decide_eq_true_iff, lt_selectWidth_iff (by omega), tooWide_eq_true_iff]

/-- The command ends with the first error of its checking order whose condition holds, or with OK. -/
def ReportsFirstError (s : State) (i : Instr) : Prop := ∃ t, exec i s = .next t ∧ t.err = firstError (errorChecks s i)

section

variable {s : State} {i : Instr}

theorem ReportsFirstError.of_raise {t : State} {e : Err} (hexec : exec i s = raise e t)
    (hfirst : firstError (errorChecks s i) = e) : ReportsFirstError s i := ⟨t.setErr e, hexec, hfirst.symm⟩

theorem ReportsFirstError.of_complete {t : State} (hexec : exec i s = complete t)
    (hfirst : firstError (errorChecks s i) = .ok) : ReportsFirstError s i := ⟨t.setErr .ok, hexec, hfirst.symm⟩

/-- A constructed context holds a frame of at most `MAX_N` samples (10_state.md R26). -/
theorem count_le_of_ctxInv {p : Params} {c : CameraSpec} {valid hist : Bool} {history : Mem 16} {res : Mem 32}
    (h : ctxInv p c valid hist history res) (hvalid : valid = true) : c.count ≤ p.maxN := by
  obtain ⟨hspec, -⟩ := h
  exact Nat.not_lt.1 fun hlt => hspec hvalid (.inr (.inr hlt))

/-- The context check fails, or the dimension check after it, or both pass. -/
theorem ready_cases {p : Params} {c : CameraSpec} {valid hist : Bool} {history : Mem 16} {res : Mem 32}
    (h : ctxInv p c valid hist history res) (dims : Dims) :
    valid = false ∨ (valid = true ∧ dims ≠ c.dims) ∨ ready p c valid dims := by
  cases hvalid : valid with
  | false => exact .inl rfl
  | true =>
    by_cases hdims : dims = c.dims
    · exact .inr (.inr ⟨rfl, hdims, count_le_of_ctxInv h hvalid⟩)
    · exact .inr (.inl ⟨rfl, hdims⟩)

theorem Inv.encReady_cases (h : Inv s) :
    s.enc.valid = false ∨ (s.enc.valid = true ∧ s.finDims ≠ s.enc.spec.dims) ∨ encReady s :=
  ready_cases h.enc.1 s.finDims

theorem Inv.decReady_cases (h : Inv s) :
    s.dec.valid = false ∨ (s.dec.valid = true ∧ s.foutDims ≠ s.dec.spec.dims) ∨ decReady s :=
  ready_cases h.dec.1 s.foutDims

/-! ### Each command in its checking order

Each condition in turn, with the command's answer where it is the first that holds. -/

theorem reportsFirstError_cinit : ReportsFirstError s .cinit := by
  by_cases hspec : s.spec.bad s.params
  · exact .of_raise (exec_cinit_of_bad hspec) (if_pos (decide_eq_true hspec))
  · exact .of_complete (execCinit_of_not_bad hspec) (if_neg (by simpa using hspec))

theorem reportsFirstError_dinit : ReportsFirstError s .dinit := by
  by_cases hspec : s.spec.bad s.params
  · exact .of_raise (exec_dinit_of_bad hspec) (if_pos (decide_eq_true hspec))
  · exact .of_complete (execDinit_of_not_bad hspec) (if_neg (by simpa using hspec))

theorem reportsFirstError_tcenc (w : Nat) : ReportsFirstError s (.tcenc w) := by
  by_cases hw : badWidth w
  · exact .of_raise (exec_tcenc_of_badWidth hw) (by simp [errorChecks, hw])
  · exact .of_complete (exec_tcenc_of_goodWidth (goodWidth_of_not_badWidth hw)) (by simp [errorChecks, hw])

theorem reportsFirstError_tcdec (w : Nat) : ReportsFirstError s (.tcdec w) := by
  by_cases hw : badWidth w
  · exact .of_raise (exec_tcdec_of_badWidth hw) (by simp [errorChecks, hw])
  · exact .of_complete (exec_tcdec_of_goodWidth (goodWidth_of_not_badWidth hw)) (by simp [errorChecks, hw])

theorem reportsFirstError_bwput {w : Nat} (hfit : goodWidth w → s.enc.bw.bytesWith w ≤ s.params.obufCap) :
    ReportsFirstError s (.bwput w) := by
  by_cases hw : badWidth w
  · exact .of_raise (exec_bwput_of_badWidth hw) (by simp [errorChecks, hw])
  · have hgood := goodWidth_of_not_badWidth hw
    exact .of_complete (exec_bwput_of_fits hgood (hfit hgood)) (by simp [errorChecks, hw])

theorem reportsFirstError_bwfin (h : Inv s) : ReportsFirstError s .bwfin := by
  obtain ⟨hfit, -⟩ := h.writer
  exact .of_complete (exec_bwfin_of_fits hfit) rfl

theorem reportsFirstError_brget (h : Inv s) (w : Nat) : ReportsFirstError s (.brget w) := by
  obtain ⟨hcap, -⟩ := h.reader
  by_cases hw : badWidth w
  · exact .of_raise (exec_brget_of_badWidth hw) (by simp [errorChecks, hw])
  have hgood := goodWidth_of_not_badWidth hw
  by_cases hshort : s.dec.br.short w
  · exact .of_raise (exec_brget_of_short hgood hshort) (by simp [errorChecks, hw, hshort])
  · exact .of_complete (exec_brget_of_long hgood (Nat.not_lt.1 hshort) hcap) (by simp [errorChecks, hw, hshort])

theorem reportsFirstError_pfwd (h : Inv s) : ReportsFirstError s .pfwd := by
  obtain hvalid | ⟨hvalid, hdims⟩ | hready := h.encReady_cases
  · exact .of_raise (exec_pfwd_of_not_valid hvalid) (by simp [errorChecks, hvalid])
  · exact .of_raise (exec_pfwd_of_dims_ne hvalid hdims) (by simp [errorChecks, hvalid, hdims])
  · exact .of_complete (exec_pfwd_of_ready hready) (by simp [errorChecks, hready])

theorem reportsFirstError_pinv (h : Inv s) : ReportsFirstError s .pinv := by
  obtain hvalid | ⟨hvalid, hdims⟩ | hready := h.decReady_cases
  · exact .of_raise (exec_pinv_of_not_valid hvalid) (by simp [errorChecks, hvalid])
  · exact .of_raise (exec_pinv_of_dims_ne hvalid hdims) (by simp [errorChecks, hvalid, hdims])
  · exact .of_complete (exec_pinv_of_ready hready) (by simp [errorChecks, hready])

theorem reportsFirstError_selw (h : Inv s) : ReportsFirstError s .selw := by
  cases hvalid : s.enc.valid with
  | false => exact .of_raise (exec_selw_of_not_valid hvalid) (by simp [errorChecks, hvalid])
  | true =>
    have hexec := exec_selw_of_valid hvalid (count_le_of_ctxInv h.enc.1 hvalid)
    by_cases hwide : 16 < selectWidth (residuals s.enc.res s.enc.spec.count)
    · exact .of_raise (hexec.trans (if_pos hwide)) (by simp [errorChecks, hvalid, tooWide_eq_decide, hwide])
    · exact .of_complete (hexec.trans (if_neg hwide)) (by simp [errorChecks, hvalid, tooWide_eq_decide, hwide])

/-- The errors of CNEXT on a context that passes its checks. -/
theorem firstError_cnext_of_ready (hready : encReady s) :
    firstError (errorChecks s .cnext) = if 16 < frameWidth s then .bitWidthOverflow else .ok := by
  have hwide : tooWide (widthResiduals s.params.framing (frameResidualList s)) = decide (16 < frameWidth s) :=
    tooWide_eq_decide _
  simp [errorChecks, hready, hwide]

theorem reportsFirstError_cnext (h : Inv s) : ReportsFirstError s .cnext := by
  obtain hvalid | ⟨hvalid, hdims⟩ | hready := h.encReady_cases
  · exact .of_raise (exec_cnext_of_not_valid hvalid) (by simp [errorChecks, hvalid])
  · exact .of_raise (exec_cnext_of_dims_ne hvalid hdims) (by simp [errorChecks, hvalid, hdims])
  have hfirst := firstError_cnext_of_ready hready
  by_cases hwide : 16 < frameWidth s
  · rw [if_pos hwide] at hfirst
    exact ⟨_, exec_cnext_of_wide hready hwide, hfirst.symm⟩
  · have hwidth := Nat.not_lt.1 hwide
    rw [if_neg hwide] at hfirst
    exact ⟨_, exec_cnext_of_fits hready hwidth (framePack_fits hready h.legal hwidth), hfirst.symm⟩

/-- The errors of DNEXT on a context that passes its checks, at a legal width. -/
theorem firstError_dnext_of_ready {w : Nat} (hready : decReady s) (hw : ¬ badWidth w) :
    firstError (errorChecks s (.dnext w)) =
      if 8 * s.dec.br.ilen.toNat < (frameWidths s.params.framing w s.dec.spec.count).sum then .streamUnderrun else .ok := by
  simp [errorChecks, hready, hw]

theorem reportsFirstError_dnext (h : Inv s) (w : Nat) : ReportsFirstError s (.dnext w) := by
  obtain ⟨hcap, -⟩ := h.reader
  obtain hvalid | ⟨hvalid, hdims⟩ | hready := h.decReady_cases
  · exact .of_raise (exec_dnext_of_not_valid hvalid) (by simp [errorChecks, hvalid])
  · exact .of_raise (exec_dnext_of_dims_ne hvalid hdims) (by simp [errorChecks, hvalid, hdims])
  by_cases hw : badWidth w
  · obtain ⟨hvalid, hdims, -⟩ := id hready
    exact .of_raise (exec_dnext_of_badWidth hw hvalid hdims) (by simp [errorChecks, hready, hw])
  have hgood := goodWidth_of_not_badWidth hw
  have hfirst := firstError_dnext_of_ready hready hw
  by_cases hshort : 8 * s.dec.br.ilen.toNat < (frameWidths s.params.framing w s.dec.spec.count).sum
  · exact .of_raise (exec_dnext_of_short hready hgood hshort) (hfirst.trans (if_pos hshort))
  · obtain ⟨history, fout, hexec, -⟩ := exec_dnext_of_long hready hgood (Nat.not_lt.1 hshort) hcap
    rw [if_neg hshort] at hfirst
    exact ⟨_, hexec, hfirst.symm⟩

end

/-- Settles O14: each command by its lemma above; an illegal word reaches none of them. -/
theorem firstErrorInCheckingOrderIsReported : Obligations.FirstErrorInCheckingOrderIsReported := by
  unfold Obligations.FirstErrorInCheckingOrderIsReported
  refine ⟨fun s i hinv hfit => ?command, fun s r hdecode => runCommand_of_decode_error hdecode⟩
  case command =>
    show ReportsFirstError s i
    cases i with
    | cinit => exact reportsFirstError_cinit
    | dinit => exact reportsFirstError_dinit
    | tcenc w => exact reportsFirstError_tcenc w
    | tcdec w => exact reportsFirstError_tcdec w
    | bwrst => exact .of_complete rfl rfl
    | bwput w => exact reportsFirstError_bwput (hfit w rfl)
    | bwfin => exact reportsFirstError_bwfin hinv
    | brrst => exact .of_complete rfl rfl
    | brget w => exact reportsFirstError_brget hinv w
    | pfwd => exact reportsFirstError_pfwd hinv
    | pinv => exact reportsFirstError_pinv hinv
    | selw => exact reportsFirstError_selw hinv
    | cnext => exact reportsFirstError_cnext hinv
    | dnext w => exact reportsFirstError_dnext hinv w

end Sys2Proof.Machine
end
